-- ==== Sys2Proof/Word.lean ====
section
/-! DEFINITION. The words of the Bloom filter engine (00_scope.md R14 to R17): bytes, the 16, 32 and 64 bit
integers of packets and registers, and the 8 bit bank identifier of the command word. -/

namespace Sys2Proof

/-- A byte is 8 bits (R15). -/
abbrev Byte := BitVec 8

/-- The operand width of the U16 forms (R115). -/
abbrev Word16 := BitVec 16

/-- The width of `K`, `LEN`, `N` and of the command word (R14, R112, R115). -/
abbrev Word32 := BitVec 32

/-- The width of probe positions, base hashes, BITLEN, COUNT and RESULT (R14). -/
abbrev Word64 := BitVec 64

/-- The width of the `FID` and `SFID` fields of the command word (R112). -/
abbrev FilterId := BitVec 8

end Sys2Proof
end

