-- ==== Sys2Proof/Config.lean ====
section
/-! DEFINITION. What an implementation of the engine fixes (00_scope.md R8 to R13): the parameters that are plain
data, and the two function parameters H128 and FPR_FN, which are opaque constants without a body. -/

namespace Sys2Proof

/-- One value of the parameter H128 that a machine is given as data: `H128(key) = (v1, v2)`. -/
structure HashEntry where
  key : List Byte
  v1 : Word64
  v2 : Word64
  deriving DecidableEq, Repr

/-- The parameters of the model that are plain data and that no step changes.
NUM_FILTERS (R9) and NUM_PORTS (R8) are the lengths of the state's lists of banks and of ports.
`log2MaxBytes` is LOG2_MAX_BYTES (R10).
`hashTable` lists the values of H128 that this machine is known to have, as 95_test_vectors.md section 0 assumes
some; every key it does not list is hashed by the opaque `Config.h128` (log entry 2). -/
structure Params where
  log2MaxBytes : Nat
  hashTable : List HashEntry
  deriving DecidableEq, Repr

/-- The reference value of LOG2_MAX_BYTES (R10), and no assumed hash value. -/
def Params.reference : Params := { log2MaxBytes := 16, hashTable := [] }

/-- H128 (R12, R149): a total function from byte sequences to pairs of 64-bit values, of which nothing is known
but that it is a function.  FREE VALUE (log entry 2). -/
opaque Config.h128 : List Byte → Word64 × Word64

/-- The greatest bit pattern of a binary64 number in [0, 1] whose sign bit is clear: that of 1.0. -/
def Config.one64 : Word64 := 0x3FF0000000000000#64

/-- A value of the parameter FPR_FN with the properties R237 guarantees, for `k ≥ 1` and `m ≥ 1`.
Binary64 patterns with a clear sign bit are ordered as the numbers they stand for, so `[0, 1]` (item 2) and
"non-decreasing" (item 4) are comparisons of patterns (log entry 3). -/
structure FprFn where
  /-- item 1: the estimate is a function of (k, n, m) -/
  rate : Word32 → Word64 → Word64 → Word64 := fun _ _ _ => 0
  /-- item 2: its value is a number in [0, 1], never NaN, never negative -/
  inUnit : ∀ k n m, k ≠ 0 → m ≠ 0 → rate k n m ≤ Config.one64 := by intros; decide
  /-- item 3: +0.0 at n = 0 -/
  atZero : ∀ k m, k ≠ 0 → m ≠ 0 → rate k 0 m = 0 := by intros; rfl
  /-- item 4: non-decreasing in n for fixed k and m -/
  mono : ∀ k n n' m, k ≠ 0 → m ≠ 0 → n ≤ n' → rate k n m ≤ rate k n' m := by intros; decide
  deriving Inhabited

/-- FPR_FN (R13, R237): the numerics of the false-positive-rate estimate.  FREE VALUE (log entry 3). -/
opaque Config.fprFn : FprFn

end Sys2Proof
end

