-- ==== Sys2Proof/Syntax.lean ====
section
/-! DEFINITION. The commands of the engine (30_encoding.md R113): one constructor per row of spec/opcode_table.json. -/

namespace Sys2Proof

/-- A decoded command with its operands (R112, R115, R116).  `fid` is the bank the command operates on (the
destination, for MERGE), `sfid` the source bank of MERGE. -/
inductive Instr where
  | config (fid : FilterId) (conc : Bool) (capacity : Word64) (k : Word32)
  | add (fid : FilterId) (key : List Byte)
  | addStr (fid : FilterId) (key : List Byte)
  | addU16 (fid : FilterId) (v : Word16)
  | addU32 (fid : FilterId) (v : Word32)
  | addU64 (fid : FilterId) (v : Word64)
  | addb (fid : FilterId) (keys : List (List Byte))
  | addbU16 (fid : FilterId) (vs : List Word16)
  | addbU32 (fid : FilterId) (vs : List Word32)
  | addbU64 (fid : FilterId) (vs : List Word64)
  | test (fid : FilterId) (key : List Byte)
  | testStr (fid : FilterId) (key : List Byte)
  | testU16 (fid : FilterId) (v : Word16)
  | testU32 (fid : FilterId) (v : Word32)
  | testU64 (fid : FilterId) (v : Word64)
  | merge (fid : FilterId) (sfid : FilterId)
  | reset (fid : FilterId)
  | cap (fid : FilterId)
  | size (fid : FilterId)
  | fpr (fid : FilterId)
  deriving DecidableEq, Repr

end Sys2Proof
end

