-- ==== Sys2Proof/WellFormed.lean ====
section
/-! DEFINITION. Which commands a request packet can carry: `LEN`, `LEN_e` and `N` are 32-bit fields (R115), so a
key, an element and a batch have fewer than 2^32 bytes, bytes and elements. -/

namespace Sys2Proof

/-- A length that a 32-bit length field can hold (R115, R116). -/
def fitsU32 (n : Nat) : Bool := decide (n < 2 ^ 32)

/-- Every length of the command fits its 32-bit field (R115); 0 is legal (R117). -/
def Instr.wf : Instr → Bool
  | .config _ _ _ _ => true
  | .add _ key => fitsU32 key.length
  | .addStr _ key => fitsU32 key.length
  | .addU16 _ _ => true
  | .addU32 _ _ => true
  | .addU64 _ _ => true
  | .addb _ keys => fitsU32 keys.length && keys.all (fun key => fitsU32 key.length)
  | .addbU16 _ vs => fitsU32 vs.length
  | .addbU32 _ vs => fitsU32 vs.length
  | .addbU64 _ vs => fitsU32 vs.length
  | .test _ key => fitsU32 key.length
  | .testStr _ key => fitsU32 key.length
  | .testU16 _ _ => true
  | .testU32 _ _ => true
  | .testU64 _ _ => true
  | .merge _ _ => true
  | .reset _ => true
  | .cap _ => true
  | .size _ => true
  | .fpr _ => true

end Sys2Proof
end

