-- ==== Sys2Proof/Decode.lean ====
section
/-! DEFINITION. The request packet: its decoder, total on any bytes (30_encoding.md R110 to R124, the packet checks
of 60_exceptions.md R273 steps 1 to 4), and after it the encoder, from the same tables. -/

namespace Sys2Proof

/-! ### Byte order (R17, R110) -/

/-- `le_N(v)` for `8 * n = N`: the `n` bytes of `v`, least significant first (R17). -/
def leBytes : Nat → Nat → List Byte
  | 0, _ => []
  | n + 1, v => BitVec.ofNat 8 v :: leBytes n (v / 256)

/-- The unsigned integer whose little-endian bytes these are (R110). -/
def leValue : List Byte → Nat
  | [] => 0
  | b :: bs => b.toNat + 256 * leValue bs

/-- The integer field of `n` bytes at offset `off` (R110, R116). A byte past the end counts as zero; the length
checks come before any use of such a field. -/
def fieldAt (off n : Nat) (bs : List Byte) : Nat := leValue ((bs.drop off).take n)

/-! ### The command word (R112 to R114) -/

/-- The status codes of R270. -/
inductive Status where
  | ok
  | mismatch
  | unsupported
  | configInvalid
  | unconfigured
  | illegalOpcode
  | reservedField
  | badFilterId
  | length
  deriving DecidableEq, Repr

/-- The 20 legal opcodes (R113). -/
inductive Opcode where
  | config | add | addStr | addU16 | addU32 | addU64 | addb | addbU16 | addbU32 | addbU64
  | test | testStr | testU16 | testU32 | testU64 | merge | reset | cap | size | fpr
  deriving DecidableEq, Repr

/-- The opcode number of each command (R113). -/
def Opcode.code : Opcode → BitVec 5
  | .config => 0x01#5
  | .add => 0x02#5
  | .addStr => 0x03#5
  | .addU16 => 0x04#5
  | .addU32 => 0x05#5
  | .addU64 => 0x06#5
  | .addb => 0x07#5
  | .addbU16 => 0x08#5
  | .addbU32 => 0x09#5
  | .addbU64 => 0x0A#5
  | .test => 0x0B#5
  | .testStr => 0x0C#5
  | .testU16 => 0x0D#5
  | .testU32 => 0x0E#5
  | .testU64 => 0x0F#5
  | .merge => 0x10#5
  | .reset => 0x11#5
  | .cap => 0x12#5
  | .size => 0x13#5
  | .fpr => 0x14#5

/-- The command an opcode number stands for; 0x00 and 0x15 to 0x1F are illegal (R113, R124). -/
def Opcode.ofBits (b : BitVec 5) : Option Opcode :=
  match b.toNat with
  | 0x01 => some .config
  | 0x02 => some .add
  | 0x03 => some .addStr
  | 0x04 => some .addU16
  | 0x05 => some .addU32
  | 0x06 => some .addU64
  | 0x07 => some .addb
  | 0x08 => some .addbU16
  | 0x09 => some .addbU32
  | 0x0A => some .addbU64
  | 0x0B => some .test
  | 0x0C => some .testStr
  | 0x0D => some .testU16
  | 0x0E => some .testU32
  | 0x0F => some .testU64
  | 0x10 => some .merge
  | 0x11 => some .reset
  | 0x12 => some .cap
  | 0x13 => some .size
  | 0x14 => some .fpr
  | _ => none

/-- The command word of a packet: its bytes 0 to 3, little-endian (R110, R112).
A shorter packet has none (R119) and reads as 0 here (DESIGN CHOICE, log entry 7); the decoder has refused it before. -/
def commandWord : List Byte → Word32
  | b0 :: b1 :: b2 :: b3 :: _ => b3 ++ b2 ++ b1 ++ b0
  | _ => 0

/-- `OP`, bits 4:0 of the command word (R112). -/
def cmdOp (c : Word32) : BitVec 5 := c.extractLsb' 0 5

/-- `CONC`, bit 5 of the command word (R112). -/
def cmdConc (c : Word32) : Bool := c.getLsbD 5

/-- `FID`, bits 15:8 of the command word (R112). -/
def cmdFid (c : Word32) : FilterId := c.extractLsb' 8 8

/-- `SFID`, bits 23:16 of the command word (R112). -/
def cmdSfid (c : Word32) : FilterId := c.extractLsb' 16 8

/-- The must-be-0 bits of the command word (R112): 7:6 and 31:24 always, 5 unless CONFIG, 23:16 unless MERGE. -/
def Opcode.reservedMask : Opcode → Word32
  | .config => 0xFFFF00C0#32
  | .merge => 0xFF0000E0#32
  | _ => 0xFFFF00E0#32

/-- The selection mask of R114 (the `mask` of spec/opcode_table.json). -/
def Opcode.selectMask : Opcode → Word32
  | .config => 0xFFFF00DF#32
  | .merge => 0xFF0000FF#32
  | _ => 0xFFFF00FF#32

/-! ### Lengths (R115, R119, R123) -/

/-- The length walk of `F_BKEY` (R119): from offset `off`, over `n` elements, in a packet of length `bs.length`;
`none` is BAD. -/
def walkElements : Nat → Nat → List Byte → Option Nat
  | 0, off, _ => some off
  | n + 1, off, bs =>
    if bs.length < off + 4 then none
    else walkElements n (off + 4 + fieldAt off 4 bs) bs

/-- `expected_len(OP, packet)` (R119); `none` is BAD. -/
def expectedLength (op : Opcode) (bs : List Byte) : Option Nat :=
  match op with
  | .config => some 16
  | .add | .addStr | .test | .testStr => if bs.length < 8 then none else some (8 + fieldAt 4 4 bs)
  | .addU16 | .testU16 => some 6
  | .addU32 | .testU32 => some 8
  | .addU64 | .testU64 => some 12
  | .addb => if bs.length < 8 then none else walkElements (fieldAt 4 4 bs) 8 bs
  | .addbU16 => if bs.length < 8 then none else some (8 + 2 * fieldAt 4 4 bs)
  | .addbU32 => if bs.length < 8 then none else some (8 + 4 * fieldAt 4 4 bs)
  | .addbU64 => if bs.length < 8 then none else some (8 + 8 * fieldAt 4 4 bs)
  | .merge | .reset | .cap | .size | .fpr => some 4

/-- `length_ok` (R119). -/
def lengthOk (op : Opcode) (bs : List Byte) : Bool := decide (expectedLength op bs = some bs.length)

/-! ### Operands (R115, R116) -/

/-- `n` integers of `w` bits, one after another from the first byte of `bs` (R115). -/
def takeWords (w : Nat) : Nat → List Byte → List (BitVec w)
  | 0, _ => []
  | n + 1, bs => BitVec.ofNat w (leValue (bs.take (w / 8))) :: takeWords w n (bs.drop (w / 8))

/-- `n` elements of `F_BKEY`, each its 32-bit length and its bytes (R115). -/
def takeKeys : Nat → List Byte → List (List Byte)
  | 0, _ => []
  | n + 1, bs =>
    ((bs.drop 4).take (fieldAt 0 4 bs)) :: takeKeys n (bs.drop (4 + fieldAt 0 4 bs))

/-- The command and its operands, read from a packet whose length is right for its opcode (R115, R116). -/
def operands (op : Opcode) (bs : List Byte) : Instr :=
  let c := commandWord bs
  let fid := cmdFid c
  match op with
  | .config =>
    .config fid (cmdConc c) (BitVec.ofNat 64 (fieldAt 4 8 bs)) (BitVec.ofNat 32 (fieldAt 12 4 bs))
  | .add => .add fid (bs.drop 8)
  | .addStr => .addStr fid (bs.drop 8)
  | .addU16 => .addU16 fid (BitVec.ofNat 16 (fieldAt 4 2 bs))
  | .addU32 => .addU32 fid (BitVec.ofNat 32 (fieldAt 4 4 bs))
  | .addU64 => .addU64 fid (BitVec.ofNat 64 (fieldAt 4 8 bs))
  | .addb => .addb fid (takeKeys (fieldAt 4 4 bs) (bs.drop 8))
  | .addbU16 => .addbU16 fid (takeWords 16 (fieldAt 4 4 bs) (bs.drop 8))
  | .addbU32 => .addbU32 fid (takeWords 32 (fieldAt 4 4 bs) (bs.drop 8))
  | .addbU64 => .addbU64 fid (takeWords 64 (fieldAt 4 4 bs) (bs.drop 8))
  | .test => .test fid (bs.drop 8)
  | .testStr => .testStr fid (bs.drop 8)
  | .testU16 => .testU16 fid (BitVec.ofNat 16 (fieldAt 4 2 bs))
  | .testU32 => .testU32 fid (BitVec.ofNat 32 (fieldAt 4 4 bs))
  | .testU64 => .testU64 fid (BitVec.ofNat 64 (fieldAt 4 8 bs))
  | .merge => .merge fid (cmdSfid c)
  | .reset => .reset fid
  | .cap => .cap fid
  | .size => .size fid
  | .fpr => .fpr fid

/-! ### The decoder (R122, R273 steps 1 to 4) -/

/-- Every request decodes to one command with its operands or to an error status (R122); the checks are steps 1 to 4
of R273, in that order. -/
def decode (bs : List Byte) : Except Status Instr :=
  if bs.length < 4 then .error .length
  else
    match Opcode.ofBits (cmdOp (commandWord bs)) with
    | none => .error .illegalOpcode
    | some op =>
      if commandWord bs &&& op.reservedMask ≠ 0 then .error .reservedField
      else if lengthOk op bs then .ok (operands op bs)
      else .error .length

/-! ### The encoder -/

/-- The opcode of a command (R113). -/
def Instr.opcode : Instr → Opcode
  | .config _ _ _ _ => .config
  | .add _ _ => .add
  | .addStr _ _ => .addStr
  | .addU16 _ _ => .addU16
  | .addU32 _ _ => .addU32
  | .addU64 _ _ => .addU64
  | .addb _ _ => .addb
  | .addbU16 _ _ => .addbU16
  | .addbU32 _ _ => .addbU32
  | .addbU64 _ _ => .addbU64
  | .test _ _ => .test
  | .testStr _ _ => .testStr
  | .testU16 _ _ => .testU16
  | .testU32 _ _ => .testU32
  | .testU64 _ _ => .testU64
  | .merge _ _ => .merge
  | .reset _ => .reset
  | .cap _ => .cap
  | .size _ => .size
  | .fpr _ => .fpr

/-- The four bytes of the command word (R110, R112): `OP` and `CONC` in byte 0, `FID` in byte 1, `SFID` in byte 2. -/
def commandBytes (op : Opcode) (conc : Bool) (fid sfid : FilterId) : List Byte :=
  [(0#2 ++ BitVec.ofBool conc ++ op.code : BitVec 8), fid, sfid, 0#8]

/-- `F_KEY` (R115). -/
def keyPayload (key : List Byte) : List Byte := leBytes 4 key.length ++ key

/-- `F_BKEY` (R115). -/
def keysPayload (keys : List (List Byte)) : List Byte := leBytes 4 keys.length ++ keys.flatMap keyPayload

/-- `F_BU16`, `F_BU32` and `F_BU64` (R115), for values of `w` bits. -/
def wordsPayload {w : Nat} (vs : List (BitVec w)) : List Byte :=
  leBytes 4 vs.length ++ vs.flatMap (fun v => leBytes (w / 8) v.toNat)

/-- What follows the command word (R115). -/
def Instr.payload : Instr → List Byte
  | .config _ _ capacity k => leBytes 8 capacity.toNat ++ leBytes 4 k.toNat
  | .add _ key => keyPayload key
  | .addStr _ key => keyPayload key
  | .addU16 _ v => leBytes 2 v.toNat
  | .addU32 _ v => leBytes 4 v.toNat
  | .addU64 _ v => leBytes 8 v.toNat
  | .addb _ keys => keysPayload keys
  | .addbU16 _ vs => wordsPayload vs
  | .addbU32 _ vs => wordsPayload vs
  | .addbU64 _ vs => wordsPayload vs
  | .test _ key => keyPayload key
  | .testStr _ key => keyPayload key
  | .testU16 _ v => leBytes 2 v.toNat
  | .testU32 _ v => leBytes 4 v.toNat
  | .testU64 _ v => leBytes 8 v.toNat
  | .merge _ _ => []
  | .reset _ => []
  | .cap _ => []
  | .size _ => []
  | .fpr _ => []

/-- `FID` (R112): the bank a command operates on. -/
def Instr.fid : Instr → FilterId
  | .config fid _ _ _ => fid
  | .add fid _ => fid
  | .addStr fid _ => fid
  | .addU16 fid _ => fid
  | .addU32 fid _ => fid
  | .addU64 fid _ => fid
  | .addb fid _ => fid
  | .addbU16 fid _ => fid
  | .addbU32 fid _ => fid
  | .addbU64 fid _ => fid
  | .test fid _ => fid
  | .testStr fid _ => fid
  | .testU16 fid _ => fid
  | .testU32 fid _ => fid
  | .testU64 fid _ => fid
  | .merge fid _ => fid
  | .reset fid => fid
  | .cap fid => fid
  | .size fid => fid
  | .fpr fid => fid

/-- The `SFID` field of a command: the source bank of MERGE, 0 in every other command (R112). -/
def Instr.sfid : Instr → FilterId
  | .merge _ sfid => sfid
  | _ => 0

/-- The `CONC` bit of a command: the flag of CONFIG, 0 in every other command (R112). -/
def Instr.concBit : Instr → Bool
  | .config _ conc _ _ => conc
  | _ => false

/-- The request packet of a command (R112 to R116). -/
def encode (i : Instr) : List Byte :=
  commandBytes i.opcode i.concBit i.fid i.sfid ++ i.payload

/-! ### A packet from the bits of an opcode-table row -/

/-- The end of `n` elements of `F_BKEY` in a byte stream, from offset `off` (R123): the walk of R119 without a packet
length to check against. -/
def streamElements : Nat → Nat → List Byte → Nat
  | 0, off, _ => off
  | n + 1, off, bs => streamElements n (off + 4 + fieldAt off 4 bs) bs

/-- The length a decoder takes from the format when it reads from a byte stream (R123). R123 and R119 give no length
for an illegal OP (0x00, 0x15 to 0x1F), for a stream of fewer than 4 bytes, which has no command word, nor for one that
ends before LEN, N or a LEN_e. DESIGN CHOICE (log entry 7): 4 bytes, the command word alone, for an illegal OP; the same
4 bytes for a stream of fewer than 4, whatever its byte 0 holds; absent bytes of a length field as zeros. -/
def streamLength (bs : List Byte) : Nat :=
  match Opcode.ofBits (cmdOp (commandWord bs)) with
  | none => 4
  | some .config => 16
  | some .add | some .addStr | some .test | some .testStr => 8 + fieldAt 4 4 bs
  | some .addU16 | some .testU16 => 6
  | some .addU32 | some .testU32 => 8
  | some .addU64 | some .testU64 => 12
  | some .addb => streamElements (fieldAt 4 4 bs) 8 bs
  | some .addbU16 => 8 + 2 * fieldAt 4 4 bs
  | some .addbU32 => 8 + 4 * fieldAt 4 4 bs
  | some .addbU64 => 8 + 8 * fieldAt 4 4 bs
  | some .merge | some .reset | some .cap | some .size | some .fpr => 4

/-- The packet whose first `nbits` bits are `w` (bit 0 the least significant bit of byte 0) and whose further bytes,
up to the length its format implies (R123), are zero. -/
def tablePacket (nbits w : Nat) : List Byte :=
  let bs := leBytes (nbits / 8) w
  bs ++ List.replicate (streamLength bs - bs.length) 0#8

/-- The command the decoder reads from that packet. -/
def decodeTableWord (nbits w : Nat) : Option Instr :=
  match decode (tablePacket nbits w) with
  | .ok i => some i
  | .error _ => none

end Sys2Proof
end

