-- ==== Sys2Proof/Machine/State.lean ====
section
/-! DEFINITION. The state of the engine (10_state.md R30 to R54): banks with their registers, storage and guard; host
ports with the command in flight and its progress; and, beside the engine's own state, the host's side of each port and
the schedule, which the spec leaves to the host and to the platform. All of it is plain data. -/

namespace Sys2Proof.Machine

/-- Why a step can stop. No fault can occur in a state that satisfies the invariants of Safety.lean: the engine has
no fault of its own (60_exceptions.md R277). -/
inductive Fault where
  /-- Raised by `exec` where the state's current port is not one of the engine's ports (R8). Safe: the spec has no
  such port, so nothing it describes is stopped. -/
  | noSuchPort
  /-- Raised by a micro-step on a bank the engine does not have (R9). Safe: every command that names such a bank
  ends BAD_FILTER_ID before its first micro-step on it (R273 step 5). -/
  | noSuchBank
  /-- Raised by an access to a storage byte at or above 2^LOG2_MAX_BYTES, which R41 says does not exist. Safe: every
  slot of a configured bank is below BITLEN (R72). -/
  | noSuchByte
  deriving DecidableEq, Repr

/-- Why an instruction can have no meaning. -/
inductive Refusal where
  /-- Raised by an arm of `exec` whose instruction is not modelled yet; no arm raises it. Safe. -/
  | notModelled (mnemonic : String)
  deriving DecidableEq, Repr

/-- The guard of a bank (R46), and the bank's `config_pending` bit (R255). Ports are named by their number; a set of
ports is a list in rising order. -/
structure Guard where
  /-- the port that holds the exclusive lock -/
  writer : Option Nat
  /-- the ports that hold the shared lock -/
  readers : List Nat
  /-- the ports whose commands wait to acquire -/
  waiting : List Nat
  configPending : Bool
  deriving DecidableEq, Repr

/-- The registers, the storage and the guard of one bank (R34 to R43, R46, R54). `storage` lists the bytes of the
bank's 2^LOG2_MAX_BYTES that differ from `Memory.unlisted`, by rising byte number (Ops.lean). -/
structure Bank where
  cfg : Bool
  conc : Bool
  log2len : BitVec 6
  bitlen : Word64
  k : Word32
  count : Word64
  storage : List Host.Cell
  guard : Guard
  deriving DecidableEq, Repr

/-- The four base hashes of a key, `h[0]` to `h[3]` (R143). -/
structure HashQuad where
  h0 : Word64
  h1 : Word64
  h2 : Word64
  h3 : Word64
  deriving DecidableEq, Repr

/-- Where a command's RESULT comes from (R121). -/
inductive Answer where
  /-- a value known when the command was admitted -/
  | const (v : Word64)
  /-- the outcome of the TestBits of a TEST command (R180) -/
  | hit
  /-- the COUNT that the command read (R233) -/
  | count
  /-- FPR_FN of `k`, the COUNT that the command read, and `m` (R236) -/
  | estimate (k : Word32) (m : Word64)
  deriving DecidableEq, Repr

/-- The micro-steps of R86, each indivisible. `f` is a bank, `h` the four base hashes of the key in hand, `i` a probe
index and `j` a byte index: with what `Latch` holds they are the progress of R47. -/
inductive Micro where
  /-- `admit`, the admission step (R255) -/
  | admitStep
  /-- the atomic step of CONFIG (R250) -/
  | configure (f : Nat) (capacity : Word64) (k : Word32) (conc : Bool)
  | acquireExcl (f : Nat)
  | acquireShared (f : Nat)
  | release (f : Nat)
  /-- micro-step 1 of SetBit of probe `i` (R77) -/
  | setRead (f : Nat) (h : HashQuad) (i : Nat)
  /-- micro-step 2 of SetBit of probe `i` (R77) -/
  | setWrite (f : Nat) (h : HashQuad) (i : Nat)
  /-- TestBit of probe `i` (R78) -/
  | testRead (f : Nat) (h : HashQuad) (i : Nat)
  | readCount (f : Nat)
  /-- WriteCount of the COUNT read before, plus 1 (R160) -/
  | writeCountSucc (f : Nat)
  /-- WriteCount of 0 (R220) -/
  | writeCountZero (f : Nat)
  /-- micro-step 1 of OrByte (R79) -/
  | orReadSource (fs : Nat) (j : Nat)
  /-- micro-step 2 of OrByte (R79) -/
  | orReadDest (fd : Nat) (j : Nat)
  /-- micro-step 3 of OrByte (R79) -/
  | orWrite (fd : Nat) (j : Nat)
  /-- ZeroByte (R80) -/
  | zeroByte (f : Nat) (j : Nat)
  /-- the response (R120), always last -/
  | respond (status : Status) (answer : Answer)
  deriving DecidableEq, Repr

/-- What a command in flight holds between its micro-steps: the byte it read for a SetBit or from MERGE's destination,
the byte it read from MERGE's source, the COUNT it read, and whether every TestBit so far found a 1. -/
structure Latch where
  byte : Byte
  source : Byte
  count : Word64
  hit : Bool
  deriving DecidableEq, Repr

/-- What a BUSY port holds (R44, R47): the accepted request packet and the progress of its command, which is whether
it took its admission step, the latch, and the micro-steps that remain (R54). -/
structure InFlight where
  request : List Byte
  admitted : Bool
  latch : Latch
  todo : List Micro
  deriving DecidableEq, Repr

/-- A response: STATUS and RESULT (R120). `Response.packet` (Flags.lean) gives its 16 bytes. -/
structure Response where
  status : Status
  result : Word64
  deriving DecidableEq, Repr

/-- A host port (R44): IDLE where `inFlight` is none, BUSY where it is a command.
`queue` and `delivered` are the host's side of the port, not state of the engine (log entry 5): the requests the host
has offered and the port has not accepted (R45), and the responses the port delivered (R331), oldest first. -/
structure Port where
  inFlight : Option InFlight
  queue : List (List Byte)
  delivered : List Response
  deriving DecidableEq, Repr

/-- One choice of the schedule, of the host or of the platform (R87, R332; log entry 4). -/
inductive Move where
  /-- port `p` accepts the request at the head of its queue, if it is IDLE (R45) -/
  | accept (p : Nat)
  /-- port `p` takes its next micro-step, if it is enabled (R87) -/
  | micro (p : Nat)
  /-- port `p` accepts, if it is IDLE, and takes micro-steps, with no other port moving in between, until it has
  responded or its next micro-step is not enabled -/
  | command (p : Nat)
  /-- the host offers a request packet to port `p` (R332) -/
  | offer (p : Nat) (packet : List Byte)
  /-- the platform drives power-on reset (R310) -/
  | powerOn
  deriving DecidableEq, Repr

/-- The machine: the engine's record of R54 (`banks`, with their guards, and `ports`; NUM_FILTERS and NUM_PORTS are
the lists' lengths), its parameters, and the model's own fields for the schedule (log entry 4): `cur`, the port whose
turn it is, and `agenda`, the moves to come. -/
structure State where
  params : Params
  banks : List Bank
  ports : List Port
  cur : Nat
  agenda : List Move
  deriving DecidableEq, Repr

/-- A guard that no port holds or waits for (R51). -/
def Guard.free : Guard := { writer := none, readers := [], waiting := [], configPending := false }

/-- A bank after power-on reset (R49, R50, R51). -/
def Bank.unconfigured : Bank :=
  { cfg := false, conc := false, log2len := 0, bitlen := 0, k := 0, count := 0, storage := [], guard := Guard.free }

/-- An IDLE port with nothing offered and nothing delivered (R51). -/
def Port.idle : Port := { inFlight := none, queue := [], delivered := [] }

/-- The latch of a command that has read nothing yet. -/
def Latch.start : Latch := { byte := 0, source := 0, count := 0, hit := true }

/-- The engine with these parameters right after power-on reset (R310, R311). -/
def State.resetWith (params : Params) (numFilters numPorts : Nat) : State :=
  { params := params
    banks := List.replicate numFilters Bank.unconfigured
    ports := List.replicate numPorts Port.idle
    cur := 0
    agenda := [] }

/-- The engine of the reference configuration (R8 to R10: two ports, two banks, 2^16 bytes each) right after power-on
reset (R310, R311). -/
def State.reset : State := State.resetWith Params.reference 2 2

end Sys2Proof.Machine
end

