-- ==== Sys2Proof/Machine/Flags.lean ====
section
/-! DEFINITION. The engine has no condition codes and no sticky flags (10_state.md R32): the outcome of a command is
its response. This file holds the status codes (60_exceptions.md R270) and the response packet (30_encoding.md R120). -/

namespace Sys2Proof.Machine

/-- The STATUS byte of each status (R270). -/
def statusCode : Status → Byte
  | .ok => 0x00#8
  | .mismatch => 0x01#8
  | .unsupported => 0x02#8
  | .configInvalid => 0x03#8
  | .unconfigured => 0x04#8
  | .illegalOpcode => 0x05#8
  | .reservedField => 0x06#8
  | .badFilterId => 0x07#8
  | .length => 0x08#8

/-- The 16 bytes of a response: STATUS, seven zero bytes, RESULT little-endian (R120). -/
def Response.packet (r : Response) : List Byte :=
  statusCode r.status :: List.replicate 7 0#8 ++ leBytes 8 r.result.toNat

/-- The response to a command that completed (R121). -/
def Response.success (result : Word64) : Response := { status := .ok, result := result }

/-- The response to a command that ends in an error: RESULT is 0 (R120, R270). -/
def Response.error (e : Status) : Response := { status := e, result := 0 }

end Sys2Proof.Machine
end

