-- ==== Sys2Proof/Machine/HashEngine.lean ====
section
/-! DEFINITION. The HashEngine (40_hash_engine.md R143 to R147) and the location of a probe position (20_memory.md
R71): pure functions of a key, a bank's K and its BITLEN. -/

namespace Sys2Proof.Machine

/-- The pair that a table of known hash values lists for a key. -/
def lookupHash : List HashEntry → List Byte → Option (Word64 × Word64)
  | [], _ => none
  | e :: es, key => if e.key = key then some (e.v1, e.v2) else lookupHash es key

/-- H128 of this machine (R12): the value its table lists for the key, else that of the opaque `Config.h128`. -/
def hash128 (params : Params) (key : List Byte) : Word64 × Word64 :=
  (lookupHash params.hashTable key).getD (Config.h128 key)

/-- `baseHash(key)` (R143): H128 of the key gives `h[0]` and `h[1]`, H128 of the key followed by the byte 0x01 gives
`h[2]` and `h[3]`. -/
def baseHash (params : Params) (key : List Byte) : HashQuad :=
  let v := hash128 params key
  let w := hash128 params (key ++ [0x01#8])
  { h0 := v.1, h1 := v.2, h2 := w.1, h3 := w.2 }

/-- `h[j]` (R143); the formula of R144 uses the indices 0 to 3 only. -/
def hashAt (h : HashQuad) (j : Nat) : Word64 :=
  match j with
  | 0 => h.h0
  | 1 => h.h1
  | 2 => h.h2
  | _ => h.h3

/-- `probePosition(h, i)` (R144), `i` taken as a 64-bit value; sum and product wrap modulo 2^64. -/
def probePosition (h : HashQuad) (i : Nat) : Word64 :=
  let i64 : Word64 := BitVec.ofNat 64 i
  hashAt h (i64 &&& 1#64).toNat
    + i64 * hashAt h (2 + (((i64 + (i64 &&& 1#64)) &&& 3#64) / 2#64).toNat)

/-- The slot of a probe position in a bank of this BITLEN (R71). -/
def slotOf (bitlen position : Word64) : Nat := ((position >>> 3) &&& (bitlen - 1#64)).toNat

/-- The bit offset of a probe position (R71). -/
def offsetOf (position : Word64) : Nat := (position &&& 7#64).toNat

/-- The mask `1 << o` of a bit offset in a storage byte (R15, R74). -/
def bitMask (o : Nat) : Byte := 1#8 <<< o

/-- Probe positions `i` to `i + n - 1`, in ascending order. -/
def probesFrom (h : HashQuad) : Nat → Nat → List Word64
  | _, 0 => []
  | i, n + 1 => probePosition h i :: probesFrom h (i + 1) n

/-- `probes(key, K)` (R147). -/
def probes (params : Params) (key : List Byte) (k : Word32) : List Word64 :=
  probesFrom (baseHash params key) 0 k.toNat

/-- The least `L` from `l` on, over at most `fuel` candidates, with `2^L ≥ c`. -/
def ceilLog2From (c : Nat) : Nat → Nat → Nat
  | 0, l => l
  | fuel + 1, l => if c ≤ 2 ^ l then l else ceilLog2From c fuel (l + 1)

/-- `ceil_log2(c)` (R251) for `c ≥ 1`: the smallest `L` with `2^L ≥ c`, computed on integers; `c` candidates are
always enough, since `2^c ≥ c`. -/
def ceilLog2 (c : Nat) : Nat := ceilLog2From c c 0

end Sys2Proof.Machine
end

