-- ==== Sys2Proof/Machine/Operands.lean ====
section
/-! DEFINITION. The operand forms: the Codec (40_hash_engine.md R141, R142), which makes the key of a command's
operand, and the banks a command names (60_exceptions.md R273, 44_config.md R255). -/

namespace Sys2Proof.Machine

/-- The Codec for BYTES and STR operands: the bytes as they stand; UTF-8 validity is not checked (R141, R142). -/
def encodeBytes (key : List Byte) : List Byte := key

/-- The Codec for a string operand: its own bytes, unchanged (R142). -/
def encodeStr (text : List Byte) : List Byte := encodeBytes text

/-- The Codec for U16 operands: `le_16(v)` (R141). -/
def encodeU16 (v : Word16) : List Byte := leBytes 2 v.toNat

/-- The Codec for U32 operands: `le_32(v)` (R141). -/
def encodeU32 (v : Word32) : List Byte := leBytes 4 v.toNat

/-- The Codec for U64 operands: `le_64(v)` (R141). -/
def encodeU64 (v : Word64) : List Byte := leBytes 8 v.toNat

/-- The bank an 8-bit identifier names (R112). -/
def bankOf (fid : FilterId) : Nat := fid.toNat

/-- The banks a command names: FID, and SFID for MERGE (R255, R273). -/
def namedBanks (i : Instr) : List Nat :=
  match i with
  | .merge fid sfid => [bankOf fid, bankOf sfid]
  | .config fid _ _ _ => [bankOf fid]
  | .add fid _ => [bankOf fid]
  | .addStr fid _ => [bankOf fid]
  | .addU16 fid _ => [bankOf fid]
  | .addU32 fid _ => [bankOf fid]
  | .addU64 fid _ => [bankOf fid]
  | .addb fid _ => [bankOf fid]
  | .addbU16 fid _ => [bankOf fid]
  | .addbU32 fid _ => [bankOf fid]
  | .addbU64 fid _ => [bankOf fid]
  | .test fid _ => [bankOf fid]
  | .testStr fid _ => [bankOf fid]
  | .testU16 fid _ => [bankOf fid]
  | .testU32 fid _ => [bankOf fid]
  | .testU64 fid _ => [bankOf fid]
  | .reset fid => [bankOf fid]
  | .cap fid => [bankOf fid]
  | .size fid => [bankOf fid]
  | .fpr fid => [bankOf fid]

end Sys2Proof.Machine
end

