-- ==== Sys2Proof/Machine/Ops.lean ====
section
/-! DEFINITION. The named operations over the state: storage bytes (20_memory.md R75, R76, R81), COUNT, the guard
(R90), the CONFIG interlock (44_config.md R255), the response (30_encoding.md R120) and its error form
(60_exceptions.md R272), the host's side of a port, and power-on reset (70_reset_and_hazards.md R310). -/

namespace Sys2Proof.Machine

/-! ### Storage as data -/

/-- What a storage byte that is not listed reads as (log entry 1). -/
def Memory.unlisted : Byte := 0#8

/-- The canonical form: byte numbers strictly rising, and no listed byte equal to what an unlisted one reads as. -/
abbrev Memory.wf (m : List Host.Cell) : Prop :=
  m.Pairwise (fun x y => x.1 < y.1) ∧ ∀ c ∈ m, c.2 ≠ Memory.unlisted

/-- Byte `j`. -/
def Memory.read : List Host.Cell → Nat → Byte
  | [], _ => Memory.unlisted
  | (a, b) :: m, j => if a = j then b else Memory.read m j

/-- A cell at the head of a list of later cells, unless it holds what an unlisted byte reads as. -/
def Memory.put (j : Nat) (v : Byte) (m : List Host.Cell) : List Host.Cell :=
  if v = Memory.unlisted then m else (j, v) :: m

/-- Byte `j` becomes `v`; the canonical form is kept. -/
def Memory.write : List Host.Cell → Nat → Byte → List Host.Cell
  | [], j, v => Memory.put j v []
  | (a, b) :: m, j, v =>
    if j < a then Memory.put j v ((a, b) :: m)
    else if j = a then Memory.put j v m
    else (a, b) :: Memory.write m j v

/-- Bytes 0 to `n - 1` become 0 (R250). -/
def Memory.zeroBelow (m : List Host.Cell) (n : Nat) : List Host.Cell := m.filter (fun c => decide (n ≤ c.1))

/-! ### Banks and ports -/

/-- Bank `f`, where the engine has it (R9). -/
def State.bank? (s : State) (f : Nat) : Option Bank := s.banks[f]?

/-- Bank `f` is changed by `g`. -/
def State.modifyBank (s : State) (f : Nat) (g : Bank → Bank) : State := { s with banks := s.banks.modify f g }

/-- Port `p`, where the engine has it (R8). -/
def State.port? (s : State) (p : Nat) : Option Port := s.ports[p]?

/-- Port `p` is changed by `g`. -/
def State.modifyPort (s : State) (p : Nat) (g : Port → Port) : State := { s with ports := s.ports.modify p g }

/-- `2^LOG2_MAX_BYTES`, the bytes of every bank's storage (R41). -/
def State.physicalBytes (s : State) : Nat := 2 ^ s.params.log2MaxBytes

/-! ### Micro-steps on a bank (R86) -/

/-- `MemRead(f, j, 1)` (R75). -/
def memRead (s : State) (f j : Nat) : Except Fault Byte :=
  match s.bank? f with
  | none => .error .noSuchBank
  | some b => if j < s.physicalBytes then .ok (Memory.read b.storage j) else .error .noSuchByte

/-- `MemWrite(f, j, 1, v)` (R76). -/
def memWrite (s : State) (f j : Nat) (v : Byte) : Except Fault State :=
  match s.bank? f with
  | none => .error .noSuchBank
  | some _ =>
    if j < s.physicalBytes then
      .ok (s.modifyBank f (fun b => { b with storage := Memory.write b.storage j v }))
    else .error .noSuchByte

/-- `ReadCount(f)` (R86). -/
def readCount (s : State) (f : Nat) : Except Fault Word64 :=
  match s.bank? f with
  | none => .error .noSuchBank
  | some b => .ok b.count

/-- `WriteCount(f, v)` (R86). -/
def writeCount (s : State) (f : Nat) (v : Word64) : Except Fault State :=
  match s.bank? f with
  | none => .error .noSuchBank
  | some _ => .ok (s.modifyBank f (fun b => { b with count := v }))

/-! ### The guard (R90) -/

/-- A set of ports with `p` in it. -/
def insertPort (p : Nat) : List Nat → List Nat
  | [] => [p]
  | q :: qs => if p < q then p :: q :: qs else if p = q then q :: qs else q :: insertPort p qs

/-- A set of ports without `p`. -/
def removePort (p : Nat) (qs : List Nat) : List Nat := qs.filter (fun q => decide (q ≠ p))

/-- `acquire_excl` (R90), where it is enabled. -/
def Guard.acquireExcl (g : Guard) (p : Nat) : Option Guard :=
  if g.writer = none ∧ g.readers = [] then
    some { g with writer := some p, waiting := removePort p g.waiting }
  else none

/-- `acquire_shared` (R90), where it is enabled. -/
def Guard.acquireShared (g : Guard) (p : Nat) : Option Guard :=
  if g.writer = none then
    some { g with readers := insertPort p g.readers, waiting := removePort p g.waiting }
  else none

/-- `release` (R90). -/
def Guard.release (g : Guard) (p : Nat) : Guard :=
  if g.writer = some p then { g with writer := none } else { g with readers := removePort p g.readers }

/-- Port `p` waits to acquire (R46, R90). -/
def Guard.wait (g : Guard) (p : Nat) : Guard := { g with waiting := insertPort p g.waiting }

/-- The command of port `p` has come to its acquisition of bank `f`'s guard, where the bank's CONC is 1: the port is in
`guard[f].waiting` until it acquires (R46, R90; log entry 6). With CONC = 0 the guard is bypassed (R38). -/
def State.reachLock (s : State) (p f : Nat) (conc : Bool) : State :=
  if conc then s.modifyBank f (fun b => { b with guard := b.guard.wait p }) else s

/-! ### The response and the error (R120, R272) -/

/-- The response is delivered to port `p`, which becomes IDLE (R45, R120). -/
def State.deliver (s : State) (p : Nat) (r : Response) : State :=
  s.modifyPort p (fun port => { port with inFlight := none, delivered := port.delivered ++ [r] })

/-- `raise E`: the command of port `p` ends with `respond(E, 0)` and nothing else (R272). This is the engine's only
exception: no state is saved, no mode changes and no control moves (R277, R280). -/
def State.raise (s : State) (p : Nat) (e : Status) : State := s.deliver p (Response.error e)

/-- Port `p` is BUSY with this command (R44). -/
def State.park (s : State) (p : Nat) (c : InFlight) : State :=
  s.modifyPort p (fun port => { port with inFlight := some c })

/-! ### The host's side of a port (R45, R332) -/

/-- The host offers a request to port `p`; it waits behind the requests offered before. -/
def State.offer (s : State) (p : Nat) (packet : List Byte) : State :=
  s.modifyPort p (fun port => { port with queue := port.queue ++ [packet] })

/-- Port `p` takes the request at the head of its queue. -/
def State.takeRequest (s : State) (p : Nat) : State :=
  s.modifyPort p (fun port => { port with queue := port.queue.tail })

/-! ### The CONFIG interlock (R255) -/

/-- `guard[f].config_pending`. -/
def State.configPending (s : State) (f : Nat) : Bool :=
  match s.bank? f with
  | none => false
  | some b => b.guard.configPending

/-- `guard[f].config_pending <- v`. -/
def State.setPending (s : State) (f : Nat) (v : Bool) : State :=
  s.modifyBank f (fun b => { b with guard := { b.guard with configPending := v } })

/-- The request of a command in flight names bank `f` (R255). -/
def InFlight.names (c : InFlight) (f : Nat) : Bool :=
  match decode c.request with
  | .ok i => decide (f ∈ namedBanks i)
  | .error _ => false

/-- Port `q` holds an admitted, unanswered command that names bank `f` (R255). -/
def State.portNames (s : State) (q f : Nat) : Bool :=
  match s.port? q with
  | none => false
  | some port =>
    match port.inFlight with
    | none => false
    | some c => c.admitted && c.names f

/-- A port other than `p` holds an admitted, unanswered command that names bank `f` (R255). -/
def State.othersName (s : State) (p f : Nat) : Bool :=
  (List.range s.ports.length).any (fun q => decide (q ≠ p) && s.portNames q f)

/-! ### Construction (R250) and power-on reset (R310) -/

/-- The effect of CONFIG's atomic step on its bank (R250). -/
def Bank.configure (b : Bank) (capacity : Word64) (k : Word32) (conc : Bool) : Bank :=
  let l := ceilLog2 capacity.toNat
  { cfg := true
    conc := conc
    log2len := BitVec.ofNat 6 l
    bitlen := 1#64 <<< l
    k := k
    count := 0
    storage := Memory.zeroBelow b.storage (2 ^ l)
    guard := { b.guard with configPending := false } }

/-- A port after power-on reset (R51, R310): IDLE, its command abandoned without a response. What the host still
offers and what was delivered before are the host's (log entry 5). -/
def Port.powerOn (port : Port) : Port := { port with inFlight := none }

/-- Power-on reset (R310): every bank, guard and port takes its reset value (R49 to R51). -/
def State.powerOn (s : State) : State :=
  { s with
    banks := s.banks.map (fun _ => Bank.unconfigured)
    ports := s.ports.map Port.powerOn }

end Sys2Proof.Machine
end

