-- ==== Sys2Proof/Machine/Programs.lean ====
section
/-! DEFINITION. The micro-step sequences of the commands (20_memory.md R86), one definition per command, each a row
of R86's table written out for one bank: the guard's micro-steps stand in it only where the bank's CONC is 1 (R90). -/

namespace Sys2Proof.Machine

/-! ### The loops of R86 -/

/-- SetBit of the probes `i` to `i + n - 1` of a key with base hashes `h` (R77, R86). -/
def setBitOps (f : Nat) (h : HashQuad) : Nat → Nat → List Micro
  | _, 0 => []
  | i, n + 1 => .setRead f h i :: .setWrite f h i :: setBitOps f h (i + 1) n

/-- `add_key(f, key)` for a key with base hashes `h` (R160): the bits, then COUNT. -/
def addKeyOps (f : Nat) (k : Word32) (h : HashQuad) : List Micro :=
  setBitOps f h 0 k.toNat ++ [.readCount f, .writeCountSucc f]

/-- `add_key` of each key, in order (R170). -/
def addKeysOps (params : Params) (f : Nat) (k : Word32) : List (List Byte) → List Micro
  | [] => []
  | key :: keys => addKeyOps f k (baseHash params key) ++ addKeysOps params f k keys

/-- TestBit of the probes `i` to `i + n - 1` (R180); the micro-step that finds a 0 drops the rest (R185). -/
def testBitOps (f : Nat) (h : HashQuad) : Nat → Nat → List Micro
  | _, 0 => []
  | i, n + 1 => .testRead f h i :: testBitOps f h (i + 1) n

/-- OrByte of the bytes `j` to `j + n - 1` (R79, R210). -/
def orByteOps (fd fs : Nat) : Nat → Nat → List Micro
  | _, 0 => []
  | j, n + 1 => .orReadSource fs j :: .orReadDest fd j :: .orWrite fd j :: orByteOps fd fs (j + 1) n

/-- ZeroByte of the bytes `j` to `j + n - 1` (R80, R220). -/
def zeroByteOps (f : Nat) : Nat → Nat → List Micro
  | _, 0 => []
  | j, n + 1 => .zeroByte f j :: zeroByteOps f (j + 1) n

/-! ### The guard around a body -/

/-- A writing command on bank `b`, number `f`: under the exclusive lock where CONC is 1 (R86, R88, R90). -/
def exclusive (b : Bank) (f : Nat) (body : List Micro) (answer : Answer) : List Micro :=
  if b.conc then .acquireExcl f :: (body ++ [.release f, .respond .ok answer])
  else body ++ [.respond .ok answer]

/-- A read-only command on bank `b`, number `f`: under the shared lock where CONC is 1 (R86, R88, R90). -/
def shared (b : Bank) (f : Nat) (body : List Micro) (answer : Answer) : List Micro :=
  if b.conc then .acquireShared f :: (body ++ [.release f, .respond .ok answer])
  else body ++ [.respond .ok answer]

/-- An ADD of one key (R160). -/
def addOneProgram (params : Params) (b : Bank) (f : Nat) (key : List Byte) : List Micro :=
  exclusive b f (addKeyOps f b.k (baseHash params key)) (.const 0)

/-- An ADDB: the guard once for the whole batch (R92, R170). -/
def addBatchProgram (params : Params) (b : Bank) (f : Nat) (keys : List (List Byte)) : List Micro :=
  exclusive b f (addKeysOps params f b.k keys) (.const 0)

/-- A TEST of one key (R180). -/
def testOneProgram (params : Params) (b : Bank) (f : Nat) (key : List Byte) : List Micro :=
  shared b f (testBitOps f (baseHash params key) 0 b.k.toNat) .hit

/-! ### One program per command -/

/-- R250: the atomic step, then the response. -/
def programConfig (fid : FilterId) (conc : Bool) (capacity : Word64) (k : Word32) : List Micro :=
  [.configure (bankOf fid) capacity k conc, .respond .ok (.const 0)]

/-- R160. -/
def programAdd (params : Params) (b : Bank) (fid : FilterId) (key : List Byte) : List Micro :=
  addOneProgram params b (bankOf fid) (encodeBytes key)

/-- R161. -/
def programAddStr (params : Params) (b : Bank) (fid : FilterId) (key : List Byte) : List Micro :=
  addOneProgram params b (bankOf fid) (encodeStr key)

/-- R162. -/
def programAddU16 (params : Params) (b : Bank) (fid : FilterId) (v : Word16) : List Micro :=
  addOneProgram params b (bankOf fid) (encodeU16 v)

/-- R163. -/
def programAddU32 (params : Params) (b : Bank) (fid : FilterId) (v : Word32) : List Micro :=
  addOneProgram params b (bankOf fid) (encodeU32 v)

/-- R164. -/
def programAddU64 (params : Params) (b : Bank) (fid : FilterId) (v : Word64) : List Micro :=
  addOneProgram params b (bankOf fid) (encodeU64 v)

/-- R170. -/
def programAddb (params : Params) (b : Bank) (fid : FilterId) (keys : List (List Byte)) : List Micro :=
  addBatchProgram params b (bankOf fid) (keys.map encodeBytes)

/-- R171. -/
def programAddbU16 (params : Params) (b : Bank) (fid : FilterId) (vs : List Word16) : List Micro :=
  addBatchProgram params b (bankOf fid) (vs.map encodeU16)

/-- R172. -/
def programAddbU32 (params : Params) (b : Bank) (fid : FilterId) (vs : List Word32) : List Micro :=
  addBatchProgram params b (bankOf fid) (vs.map encodeU32)

/-- R173. -/
def programAddbU64 (params : Params) (b : Bank) (fid : FilterId) (vs : List Word64) : List Micro :=
  addBatchProgram params b (bankOf fid) (vs.map encodeU64)

/-- R180. -/
def programTest (params : Params) (b : Bank) (fid : FilterId) (key : List Byte) : List Micro :=
  testOneProgram params b (bankOf fid) (encodeBytes key)

/-- R181. -/
def programTestStr (params : Params) (b : Bank) (fid : FilterId) (key : List Byte) : List Micro :=
  testOneProgram params b (bankOf fid) (encodeStr key)

/-- R182. -/
def programTestU16 (params : Params) (b : Bank) (fid : FilterId) (v : Word16) : List Micro :=
  testOneProgram params b (bankOf fid) (encodeU16 v)

/-- R183. -/
def programTestU32 (params : Params) (b : Bank) (fid : FilterId) (v : Word32) : List Micro :=
  testOneProgram params b (bankOf fid) (encodeU32 v)

/-- R184. -/
def programTestU64 (params : Params) (b : Bank) (fid : FilterId) (v : Word64) : List Micro :=
  testOneProgram params b (bankOf fid) (encodeU64 v)

/-- R210: only the destination's guard is acquired (R93). -/
def programMerge (b : Bank) (fid sfid : FilterId) : List Micro :=
  exclusive b (bankOf fid) (orByteOps (bankOf fid) (bankOf sfid) 0 b.bitlen.toNat) (.const 0)

/-- R220. -/
def programReset (b : Bank) (fid : FilterId) : List Micro :=
  exclusive b (bankOf fid) (zeroByteOps (bankOf fid) 0 b.bitlen.toNat ++ [.writeCountZero (bankOf fid)]) (.const 0)

/-- R230: BITLEN is a register read, no micro-step (R85). -/
def programCap (b : Bank) (fid : FilterId) : List Micro :=
  shared b (bankOf fid) [] (.const b.bitlen)

/-- R233. -/
def programSize (b : Bank) (fid : FilterId) : List Micro :=
  shared b (bankOf fid) [.readCount (bankOf fid)] .count

/-- R236. -/
def programFpr (b : Bank) (fid : FilterId) : List Micro :=
  shared b (bankOf fid) [.readCount (bankOf fid)] (.estimate b.k b.bitlen)

/-- The micro-steps of a command after its admission (R86), `b` being the bank that its FID names. -/
def program (params : Params) (b : Bank) (i : Instr) : List Micro :=
  match i with
  | .config fid conc capacity k => programConfig fid conc capacity k
  | .add fid key => programAdd params b fid key
  | .addStr fid key => programAddStr params b fid key
  | .addU16 fid v => programAddU16 params b fid v
  | .addU32 fid v => programAddU32 params b fid v
  | .addU64 fid v => programAddU64 params b fid v
  | .addb fid keys => programAddb params b fid keys
  | .addbU16 fid vs => programAddbU16 params b fid vs
  | .addbU32 fid vs => programAddbU32 params b fid vs
  | .addbU64 fid vs => programAddbU64 params b fid vs
  | .test fid key => programTest params b fid key
  | .testStr fid key => programTestStr params b fid key
  | .testU16 fid v => programTestU16 params b fid v
  | .testU32 fid v => programTestU32 params b fid v
  | .testU64 fid v => programTestU64 params b fid v
  | .merge fid sfid => programMerge b fid sfid
  | .reset fid => programReset b fid
  | .cap fid => programCap b fid
  | .size fid => programSize b fid
  | .fpr fid => programFpr b fid

end Sys2Proof.Machine
end

