-- ==== Sys2Proof/Machine/Engine.lean ====
section
/-! DEFINITION. How a command runs: the checks that need the engine (60_exceptions.md R273 steps 5 to 9), admission
(44_config.md R255), one micro-step of a port (20_memory.md R86, R87), and a command's micro-steps taken one after
another with no other port moving, which is what the meaning of every command is made of. -/

namespace Sys2Proof.Machine

/-! ### The checks (R273) -/

/-- Step 6: the validation of CONFIG (R252). -/
def configCheck (s : State) (i : Instr) : Option Status :=
  match i with
  | .config _ _ capacity k =>
    if capacity = 0 then some .configInvalid
    else if k = 0 then some .configInvalid
    else if s.physicalBytes < capacity.toNat then some .configInvalid
    else none
  | _ => none

/-- Steps 5 and 6: the checks after decoding that read the packet and the parameters only (R273). -/
def packetCheck (s : State) (i : Instr) : Option Status :=
  if s.banks.length ≤ bankOf i.fid then some .badFilterId
  else if i.opcode = .merge ∧ s.banks.length ≤ bankOf i.sfid then some .badFilterId
  else configCheck s i

/-- Bank `f` has been configured (R39). -/
def configured (s : State) (f : Nat) : Bool :=
  match s.bank? f with
  | none => false
  | some b => b.cfg

/-- Steps 8 and 9 for a destination and a source bank (R211). -/
def mergeCheck (bd bs : Bank) : Option Status :=
  if bd.bitlen ≠ bs.bitlen ∨ bd.k ≠ bs.k then some .mismatch
  else if bs.conc then some .unsupported
  else none

/-- Steps 7 to 9: the checks that read bank registers, made in the admission step (R273, R255). -/
def bankCheck (s : State) (i : Instr) : Option Status :=
  if i.opcode ≠ .config ∧ configured s (bankOf i.fid) = false then some .unconfigured
  else if i.opcode = .merge then
    if configured s (bankOf i.sfid) = false then some .unconfigured
    else
      match s.bank? (bankOf i.fid), s.bank? (bankOf i.sfid) with
      | some bd, some bs => mergeCheck bd bs
      | _, _ => some .unconfigured
  else none

/-! ### What a micro-step ends in -/

/-- The outcome of one micro-step, or of several: the command goes on, its next micro-step is not enabled, it has
responded, or a bank or byte it touches does not exist. -/
inductive Advance where
  | moved (c : InFlight) (s : State)
  | blocked (c : InFlight) (s : State)
  | done (s : State)
  | fault (r : Fault)
  deriving DecidableEq, Repr

/-- A command whose only remaining micro-step is an error response (R86, R272). -/
def InFlight.failing (request : List Byte) (e : Status) : InFlight :=
  { request := request, admitted := false, latch := Latch.start, todo := [.respond e (.const 0)] }

/-- A command whose packet checks passed and whose next micro-step is its admission (R86). -/
def InFlight.accepted (request : List Byte) : InFlight :=
  { request := request, admitted := false, latch := Latch.start, todo := [.admitStep] }

/-- The bank a command works on, as its program reads it. -/
def homeBank (s : State) (i : Instr) : Bank := (s.bank? (bankOf i.fid)).getD Bank.unconfigured

/-- What has changed beside port `p` once its command `i` is admitted: a CONFIG has set `config_pending` (R255), and
any other command on a bank with CONC = 1 stands at its acquisition (R86), so that its port waits to acquire (R90; log
entry 6). -/
def State.afterAdmission (s : State) (p : Nat) (i : Instr) : State :=
  if i.opcode = .config then s.setPending (bankOf i.fid) true
  else s.reachLock p (bankOf i.fid) (homeBank s i).conc

/-- The admission step of command `i` of port `p` (R255): enabled only while no bank it names has `config_pending`; it
makes the bank checks, and for CONFIG it sets `config_pending`. -/
def admission (p : Nat) (i : Instr) (c : InFlight) (s : State) : Advance :=
  if (namedBanks i).any s.configPending then .blocked c s
  else
    match bankCheck s i with
    | some e => .moved { c with admitted := true, todo := [.respond e (.const 0)] } s
    | none =>
      .moved { c with admitted := true, todo := program s.params (homeBank s i) i } (s.afterAdmission p i)

/-- The remaining micro-steps after a TestBit that found a 0: the other TestBits are dropped (R180, R185). -/
def dropTests : List Micro → List Micro
  | .testRead _ _ _ :: rest => dropTests rest
  | todo => todo

/-- The RESULT of a response (R121). -/
def answerValue (l : Latch) : Answer → Word64
  | .const v => v
  | .hit => if l.hit then 1 else 0
  | .count => l.count
  | .estimate k m => Config.fprFn.rate k l.count m

/-! ### The micro-steps, one by one

`p` is the port, `c` its command, `rest` what remains after this micro-step. -/

/-- A micro-step that reads a byte of bank `f` at the slot of a probe, or the fault of reading it. -/
def readProbe (s : State) (f : Nat) (h : HashQuad) (i : Nat) : Except Fault Byte :=
  match s.bank? f with
  | none => .error .noSuchBank
  | some b => memRead s f (slotOf b.bitlen (probePosition h i))

/-- SetBit, micro-step 1 (R77). -/
def stepSetRead (f : Nat) (h : HashQuad) (i : Nat) (rest : List Micro) (c : InFlight) (s : State) : Advance :=
  match readProbe s f h i with
  | .error r => .fault r
  | .ok v => .moved { c with latch := { c.latch with byte := v }, todo := rest } s

/-- SetBit, micro-step 2 (R77). -/
def stepSetWrite (f : Nat) (h : HashQuad) (i : Nat) (rest : List Micro) (c : InFlight) (s : State) : Advance :=
  match s.bank? f with
  | none => .fault .noSuchBank
  | some b =>
    match memWrite s f (slotOf b.bitlen (probePosition h i))
        (c.latch.byte ||| bitMask (offsetOf (probePosition h i))) with
    | .error r => .fault r
    | .ok s' => .moved { c with todo := rest } s'

/-- TestBit (R78), which ends the loop at the first 0 (R180). -/
def stepTestRead (f : Nat) (h : HashQuad) (i : Nat) (rest : List Micro) (c : InFlight) (s : State) : Advance :=
  match readProbe s f h i with
  | .error r => .fault r
  | .ok v =>
    if (v >>> offsetOf (probePosition h i)) &&& 1#8 = 1#8 then .moved { c with todo := rest } s
    else .moved { c with latch := { c.latch with hit := false }, todo := dropTests rest } s

/-- `ReadCount` (R86). -/
def stepReadCount (f : Nat) (rest : List Micro) (c : InFlight) (s : State) : Advance :=
  match readCount s f with
  | .error r => .fault r
  | .ok v => .moved { c with latch := { c.latch with count := v }, todo := rest } s

/-- `WriteCount` of a value (R86). -/
def stepWriteCount (f : Nat) (v : Word64) (rest : List Micro) (c : InFlight) (s : State) : Advance :=
  match writeCount s f v with
  | .error r => .fault r
  | .ok s' => .moved { c with todo := rest } s'

/-- OrByte, micro-step 1 (R79). -/
def stepOrReadSource (fs j : Nat) (rest : List Micro) (c : InFlight) (s : State) : Advance :=
  match memRead s fs j with
  | .error r => .fault r
  | .ok v => .moved { c with latch := { c.latch with source := v }, todo := rest } s

/-- OrByte, micro-step 2 (R79). -/
def stepOrReadDest (fd j : Nat) (rest : List Micro) (c : InFlight) (s : State) : Advance :=
  match memRead s fd j with
  | .error r => .fault r
  | .ok v => .moved { c with latch := { c.latch with byte := v }, todo := rest } s

/-- `MemWrite` of a value (R76): OrByte's micro-step 3 (R79) and ZeroByte (R80). -/
def stepMemWrite (f j : Nat) (v : Byte) (rest : List Micro) (c : InFlight) (s : State) : Advance :=
  match memWrite s f j v with
  | .error r => .fault r
  | .ok s' => .moved { c with todo := rest } s'

/-- An acquisition (R90). Where it is not enabled the port, which has been in the guard's waiting set since its command
came to the acquisition (`State.reachLock`), goes on waiting. -/
def stepAcquire (p f : Nat) (acquire : Guard → Nat → Option Guard) (rest : List Micro) (c : InFlight)
    (s : State) : Advance :=
  match s.bank? f with
  | none => .fault .noSuchBank
  | some b =>
    match acquire b.guard p with
    | some g => .moved { c with todo := rest } (s.modifyBank f (fun b => { b with guard := g }))
    | none => .blocked c s

/-- `release` (R90). -/
def stepRelease (p f : Nat) (rest : List Micro) (c : InFlight) (s : State) : Advance :=
  match s.bank? f with
  | none => .fault .noSuchBank
  | some _ =>
    .moved { c with todo := rest } (s.modifyBank f (fun b => { b with guard := b.guard.release p }))

/-- CONFIG's atomic step (R250), enabled only when no other admitted, unanswered command names the bank (R255). -/
def stepConfigure (p f : Nat) (capacity : Word64) (k : Word32) (conc : Bool) (rest : List Micro) (c : InFlight)
    (s : State) : Advance :=
  match s.bank? f with
  | none => .fault .noSuchBank
  | some _ =>
    if s.othersName p f then .blocked c s
    else .moved { c with todo := rest } (s.modifyBank f (fun b => b.configure capacity k conc))

/-- The admission of a command in flight: its request is decoded again, which is pure (R87). -/
def stepAdmit (p : Nat) (c : InFlight) (s : State) : Advance :=
  match decode c.request with
  | .error e => .moved { c with todo := [.respond e (.const 0)] } s
  | .ok i => admission p i c s

/-- One micro-step of the command `c` of port `p` (R86, R87). A command with nothing left to do (no command that the
engine accepts is ever in that state) does nothing. -/
def advance (p : Nat) (c : InFlight) (s : State) : Advance :=
  match c.todo with
  | [] => .blocked c s
  | .admitStep :: _ => stepAdmit p c s
  | .configure f capacity k conc :: rest => stepConfigure p f capacity k conc rest c s
  | .acquireExcl f :: rest => stepAcquire p f Guard.acquireExcl rest c s
  | .acquireShared f :: rest => stepAcquire p f Guard.acquireShared rest c s
  | .release f :: rest => stepRelease p f rest c s
  | .setRead f h i :: rest => stepSetRead f h i rest c s
  | .setWrite f h i :: rest => stepSetWrite f h i rest c s
  | .testRead f h i :: rest => stepTestRead f h i rest c s
  | .readCount f :: rest => stepReadCount f rest c s
  | .writeCountSucc f :: rest => stepWriteCount f (c.latch.count + 1) rest c s
  | .writeCountZero f :: rest => stepWriteCount f 0 rest c s
  | .orReadSource fs j :: rest => stepOrReadSource fs j rest c s
  | .orReadDest fd j :: rest => stepOrReadDest fd j rest c s
  | .orWrite fd j :: rest => stepMemWrite fd j (c.latch.byte ||| c.latch.source) rest c s
  | .zeroByte f j :: rest => stepMemWrite f j 0 rest c s
  | .respond status answer :: _ => .done (s.deliver p { status := status, result := answerValue c.latch answer })

/-! ### A command's micro-steps with no other port moving -/

/-- At most `n` micro-steps of the command `c` of port `p`, one after another. -/
def drive : Nat → Nat → InFlight → State → Advance
  | 0, _, c, s => .moved c s
  | n + 1, p, c, s =>
    match advance p c s with
    | .moved c' s' => drive n p c' s'
    | .blocked c' s' => .blocked c' s'
    | .done s' => .done s'
    | .fault r => .fault r

/-- The state after some micro-steps of port `p`: a command that has not responded stays in flight in its port. -/
def conclude (p : Nat) : Advance → Host.Outcome State Fault Refusal
  | .moved c s => .next (s.park p c)
  | .blocked c s => .next (s.park p c)
  | .done s => .next s
  | .fault r => .fault r

/-- The command `c` of port `p`, from where it stands to its response or to a micro-step that is not enabled. Every
micro-step but admission shortens what remains, so after the first one as many micro-steps as remain are enough. -/
def runFrom (p : Nat) (c : InFlight) (s : State) : Advance :=
  match advance p c s with
  | .moved c' s' => drive c'.todo.length p c' s'
  | .blocked c' s' => .blocked c' s'
  | .done s' => .done s'
  | .fault r => .fault r

/-- The same from the admission of command `i` on. -/
def runAdmitted (p : Nat) (i : Instr) (c : InFlight) (s : State) : Advance :=
  match admission p i c s with
  | .moved c' s' => drive c'.todo.length p c' s'
  | .blocked c' s' => .blocked c' s'
  | .done s' => .done s'
  | .fault r => .fault r

/-- Command `i`, handed to the port whose turn it is, and run until it has responded or its next micro-step is not
enabled: the checks of R273 from step 5 on, admission (R255), the micro-steps of R86. A BUSY port does not accept it
and it waits at the host (R45). -/
def runCommand (i : Instr) (s : State) : Host.Outcome State Fault Refusal :=
  match s.port? s.cur with
  | none => .fault .noSuchPort
  | some port =>
    match port.inFlight with
    | some _ => .next (s.offer s.cur (encode i))
    | none =>
      match packetCheck s i with
      | some e => .next (s.raise s.cur e)
      | none => conclude s.cur (runAdmitted s.cur i (InFlight.accepted (encode i)) s)

end Sys2Proof.Machine
end

