-- ==== Sys2Proof/Machine/Add.lean ====
section
/-! DEFINITION. Single-key Add (41_add_test.md section 1): ADD and its typed forms. Each meaning runs its command through the shared engine;
what is its own is its operands (Operands.lean) and its micro-steps (Programs.lean). -/

namespace Sys2Proof.Machine

/-- ADD (R160). -/
def execAdd (fid : FilterId) (key : List Byte) (s : State) : Host.Outcome State Fault Refusal :=
  runCommand (.add fid key) s

/-- ADD.STR (R161): the string's bytes as they are (R142). -/
def execAddStr (fid : FilterId) (key : List Byte) (s : State) : Host.Outcome State Fault Refusal :=
  runCommand (.addStr fid key) s

/-- ADD.U16 (R162): the key is `le_16(V)`. -/
def execAddU16 (fid : FilterId) (v : Word16) (s : State) : Host.Outcome State Fault Refusal :=
  runCommand (.addU16 fid v) s

/-- ADD.U32 (R163): the key is `le_32(V)`. -/
def execAddU32 (fid : FilterId) (v : Word32) (s : State) : Host.Outcome State Fault Refusal :=
  runCommand (.addU32 fid v) s

/-- ADD.U64 (R164): the key is `le_64(V)`. -/
def execAddU64 (fid : FilterId) (v : Word64) (s : State) : Host.Outcome State Fault Refusal :=
  runCommand (.addU64 fid v) s

end Sys2Proof.Machine
end

