-- ==== Sys2Proof/Machine/AddBatch.lean ====
section
/-! DEFINITION. Batch Add (41_add_test.md section 2): ADDB and its typed forms. Each meaning runs its command through the shared engine;
what is its own is its operands (Operands.lean) and its micro-steps (Programs.lean). -/

namespace Sys2Proof.Machine

/-- ADDB (R170). -/
def execAddb (fid : FilterId) (keys : List (List Byte)) (s : State) : Host.Outcome State Fault Refusal :=
  runCommand (.addb fid keys) s

/-- ADDB.U16 (R171). -/
def execAddbU16 (fid : FilterId) (vs : List Word16) (s : State) : Host.Outcome State Fault Refusal :=
  runCommand (.addbU16 fid vs) s

/-- ADDB.U32 (R172). -/
def execAddbU32 (fid : FilterId) (vs : List Word32) (s : State) : Host.Outcome State Fault Refusal :=
  runCommand (.addbU32 fid vs) s

/-- ADDB.U64 (R173). -/
def execAddbU64 (fid : FilterId) (vs : List Word64) (s : State) : Host.Outcome State Fault Refusal :=
  runCommand (.addbU64 fid vs) s

end Sys2Proof.Machine
end

