-- ==== Sys2Proof/Machine/Construct.lean ====
section
/-! DEFINITION. Construction (44_config.md): CONFIG. Each meaning runs its command through the shared engine;
what is its own is its operands (Operands.lean) and its micro-steps (Programs.lean). -/

namespace Sys2Proof.Machine

/-- CONFIG (R250): the checks, admission, one atomic step, the response. -/
def execConfig (fid : FilterId) (conc : Bool) (capacity : Word64) (k : Word32) (s : State) : Host.Outcome State Fault Refusal :=
  runCommand (.config fid conc capacity k) s

end Sys2Proof.Machine
end

