-- ==== Sys2Proof/Machine/MergeReset.lean ====
section
/-! DEFINITION. Merge and Reset (42_merge_reset.md). Each meaning runs its command through the shared engine;
what is its own is its operands (Operands.lean) and its micro-steps (Programs.lean). -/

namespace Sys2Proof.Machine

/-- MERGE (R210): destination FID, source SFID. -/
def execMerge (fid sfid : FilterId) (s : State) : Host.Outcome State Fault Refusal :=
  runCommand (.merge fid sfid) s

/-- RESET (R220). -/
def execReset (fid : FilterId) (s : State) : Host.Outcome State Fault Refusal :=
  runCommand (.reset fid) s

end Sys2Proof.Machine
end

