-- ==== Sys2Proof/Machine/Stats.lean ====
section
/-! DEFINITION. Statistics (43_stats.md): CAP, SIZE and FPR. Each meaning runs its command through the shared engine;
what is its own is its operands (Operands.lean) and its micro-steps (Programs.lean). -/

namespace Sys2Proof.Machine

/-- CAP (R230). -/
def execCap (fid : FilterId) (s : State) : Host.Outcome State Fault Refusal :=
  runCommand (.cap fid) s

/-- SIZE (R233). -/
def execSize (fid : FilterId) (s : State) : Host.Outcome State Fault Refusal :=
  runCommand (.size fid) s

/-- FPR (R236). -/
def execFpr (fid : FilterId) (s : State) : Host.Outcome State Fault Refusal :=
  runCommand (.fpr fid) s

end Sys2Proof.Machine
end

