-- ==== Sys2Proof/Machine/Test.lean ====
section
/-! DEFINITION. Test (41_add_test.md section 3): TEST and its typed forms. Each meaning runs its command through the shared engine;
what is its own is its operands (Operands.lean) and its micro-steps (Programs.lean). -/

namespace Sys2Proof.Machine

/-- TEST (R180). -/
def execTest (fid : FilterId) (key : List Byte) (s : State) : Host.Outcome State Fault Refusal :=
  runCommand (.test fid key) s

/-- TEST.STR (R181): the string's bytes as they are (R142). -/
def execTestStr (fid : FilterId) (key : List Byte) (s : State) : Host.Outcome State Fault Refusal :=
  runCommand (.testStr fid key) s

/-- TEST.U16 (R182): the key is `le_16(V)`. -/
def execTestU16 (fid : FilterId) (v : Word16) (s : State) : Host.Outcome State Fault Refusal :=
  runCommand (.testU16 fid v) s

/-- TEST.U32 (R183): the key is `le_32(V)`. -/
def execTestU32 (fid : FilterId) (v : Word32) (s : State) : Host.Outcome State Fault Refusal :=
  runCommand (.testU32 fid v) s

/-- TEST.U64 (R184): the key is `le_64(V)`. -/
def execTestU64 (fid : FilterId) (v : Word64) (s : State) : Host.Outcome State Fault Refusal :=
  runCommand (.testU64 fid v) s

end Sys2Proof.Machine
end

