-- ==== Sys2Proof/Machine/Dispatch.lean ====
section
/-! DEFINITION. One arm per command: the meaning each command has. -/

namespace Sys2Proof.Machine

def exec (i : Instr) (s : State) : Host.Outcome State Fault Refusal :=
  match i with
  | .config fid conc capacity k => Sys2Proof.Machine.execConfig fid conc capacity k s
  | .add fid key => Sys2Proof.Machine.execAdd fid key s
  | .addStr fid key => Sys2Proof.Machine.execAddStr fid key s
  | .addU16 fid v => Sys2Proof.Machine.execAddU16 fid v s
  | .addU32 fid v => Sys2Proof.Machine.execAddU32 fid v s
  | .addU64 fid v => Sys2Proof.Machine.execAddU64 fid v s
  | .addb fid keys => Sys2Proof.Machine.execAddb fid keys s
  | .addbU16 fid vs => Sys2Proof.Machine.execAddbU16 fid vs s
  | .addbU32 fid vs => Sys2Proof.Machine.execAddbU32 fid vs s
  | .addbU64 fid vs => Sys2Proof.Machine.execAddbU64 fid vs s
  | .test fid key => Sys2Proof.Machine.execTest fid key s
  | .testStr fid key => Sys2Proof.Machine.execTestStr fid key s
  | .testU16 fid v => Sys2Proof.Machine.execTestU16 fid v s
  | .testU32 fid v => Sys2Proof.Machine.execTestU32 fid v s
  | .testU64 fid v => Sys2Proof.Machine.execTestU64 fid v s
  | .merge fid sfid => Sys2Proof.Machine.execMerge fid sfid s
  | .reset fid => Sys2Proof.Machine.execReset fid s
  | .cap fid => Sys2Proof.Machine.execCap fid s
  | .size fid => Sys2Proof.Machine.execSize fid s
  | .fpr fid => Sys2Proof.Machine.execFpr fid s

end Sys2Proof.Machine
end

