-- ==== Sys2Proof/Machine/Schedule.lean ====
section
/-! DEFINITION. The moves of the schedule, of the host and of the platform (20_memory.md R87, 10_state.md R45,
70_reset_and_hazards.md R310, R332), which Step.lean takes one at a time from the state's agenda (log entry 4). -/

namespace Sys2Proof.Machine

/-- The command a port holds once it has accepted this packet (R45, R86): its admission comes next, or the error
response of the packet check that failed (R273 steps 1 to 6). -/
def acceptedCommand (s : State) (packet : List Byte) : InFlight :=
  match decode packet with
  | .error e => InFlight.failing packet e
  | .ok i =>
    match packetCheck s i with
    | some e => InFlight.failing packet e
    | none => InFlight.accepted packet

/-- Port `p` accepts the request at the head of its queue, if it is IDLE and there is one (R45). -/
def acceptMove (p : Nat) (s : State) : State :=
  match s.port? p with
  | none => s
  | some port =>
    match port.inFlight, port.queue with
    | none, packet :: _ => (s.takeRequest p).park p (acceptedCommand s packet)
    | _, _ => s

/-- Port `p` takes its next micro-step, if it is BUSY and the micro-step is enabled (R87). -/
def microMove (p : Nat) (s : State) : Host.Outcome State Fault Refusal :=
  match s.port? p with
  | none => .next s
  | some port =>
    match port.inFlight with
    | none => .next s
    | some c => conclude p (advance p c s)

/-- A request packet handed to the IDLE port whose turn it is, and its command run with no other port moving: the
command's meaning, or the error response of the decoder (R122, R273). -/
def runPacket (packet : List Byte) (s : State) : Host.Outcome State Fault Refusal :=
  match decode packet with
  | .error e => .next (s.raise s.cur e)
  | .ok i => exec i s

/-- Port `p` accepts, if it is IDLE, and takes micro-steps until it has responded or is not enabled, no other port
moving in between: one of the orders R87 admits. -/
def commandMove (p : Nat) (s : State) : Host.Outcome State Fault Refusal :=
  match s.port? p with
  | none => .next s
  | some port =>
    match port.inFlight, port.queue with
    | some c, _ => conclude p (runFrom p c s)
    | none, packet :: _ => runPacket packet (s.takeRequest p)
    | none, [] => .next s

/-- Port `p` has a move to make: it is BUSY and its next micro-step is enabled, or it is IDLE and a request waits. -/
def canMove (s : State) (p : Nat) : Bool :=
  match s.port? p with
  | none => false
  | some port =>
    match port.inFlight with
    | none => !port.queue.isEmpty
    | some c =>
      match advance p c s with
      | .blocked _ _ => false
      | .moved _ _ => true
      | .done _ => true
      | .fault _ => true

/-- The port that moves where the agenda says nothing: the lowest-numbered one that can (log entry 4). -/
def nextPort (s : State) : Option Nat := (List.range s.ports.length).find? (fun p => canMove s p)

/-- It is port `p`'s turn. -/
def State.turn (s : State) (p : Nat) : State := { s with cur := p }

/-- One move. -/
def performMove (m : Move) (s : State) : Host.Outcome State Fault Refusal :=
  match m with
  | .accept p => .next (acceptMove p (s.turn p))
  | .micro p => microMove p (s.turn p)
  | .command p => commandMove p (s.turn p)
  | .offer p packet => .next (s.offer p packet)
  | .powerOn => .next s.powerOn

/-- With no move on the agenda the next port that can move runs its command; with none the engine is at rest (R331). -/
def defaultMove (s : State) : Host.Outcome State Fault Refusal :=
  match nextPort s with
  | some p => performMove (.command p) s
  | none => .next s

/-- The first IDLE port, or port 0 where there is none. -/
def fetchPort (s : State) : Nat :=
  match (List.range s.ports.length).find? (fun p => match s.port? p with
      | none => false
      | some port => port.inFlight.isNone) with
  | some p => p
  | none => 0

/-- The state in which the next move hands this packet to an IDLE port and runs it. -/
def State.withPacket (s : State) (packet : List Byte) : State :=
  let p := fetchPort s
  { s.modifyPort p (fun port => { port with inFlight := none, queue := packet :: port.queue }) with
    agenda := .command p :: s.agenda }

end Sys2Proof.Machine
end

