-- ==== Sys2Proof/Machine/Step.lean ====
section
/-! DEFINITION. One step of the machine, and the placing of a request where the next step takes it. -/

namespace Sys2Proof.Machine

/-- One step: the next move of the agenda, or the default where the agenda is empty (log entry 4). -/
def step (s : State) : Host.Outcome State Fault Refusal :=
  match s.agenda with
  | [] => defaultMove s
  | m :: rest => performMove m { s with agenda := rest }

/-- `s` with the packet whose first `nbits` bits are `w` (zero bytes after them, up to the length its format implies)
offered at an IDLE port, ahead of what waits there, and that port's turn next (log entry 7). -/
def State.withFetchWord (s : State) (nbits w : Nat) : State := s.withPacket (tablePacket nbits w)

end Sys2Proof.Machine
end

