-- ==== Sys2Proof/Machine/Assembler.lean ====
section
/-! DEFINITION. The spec's textual syntax for one command per line (30_encoding.md R126), which the host's programs are
written in. The engine itself never sees it: `assemble` gives a line's port and command, and `encode` its packet. -/

namespace Sys2Proof.Machine

/-- The tokens of a line. -/
inductive Token where
  /-- letters, digits and dots: a mnemonic, a bank, a port or a number -/
  | word (w : List Char)
  /-- `"text"`, the ASCII bytes without a terminator -/
  | text (bytes : List Byte)
  /-- `x"hex digits"`, two digits a byte -/
  | hex (bytes : List Byte)
  | comma
  | colon
  | openBrace
  | closeBrace
  deriving DecidableEq, Repr

/-- Where the scanner stands: between tokens, in a word, in a text, in hex digits. The characters or bytes read so far
stand last first; `half` is the first digit of a byte. -/
inductive Scan where
  | between
  | word (read : List Char)
  | text (read : List Byte)
  | hex (read : List Byte) (half : Option Nat)
  deriving DecidableEq, Repr

/-- The value of a hexadecimal digit. -/
def hexDigit (c : Char) : Option Nat :=
  let n := c.toNat
  if 48 ≤ n ∧ n ≤ 57 then some (n - 48)
  else if 97 ≤ n ∧ n ≤ 102 then some (n - 87)
  else if 65 ≤ n ∧ n ≤ 70 then some (n - 55)
  else none

/-- The value of a decimal digit. -/
def decDigit (c : Char) : Option Nat := if 48 ≤ c.toNat ∧ c.toNat ≤ 57 then some (c.toNat - 48) else none

/-- A character of a word: a letter, a digit or a dot. -/
def wordChar (c : Char) : Bool :=
  let n := c.toNat
  decide (n = 46 ∨ (48 ≤ n ∧ n ≤ 57) ∨ (65 ≤ n ∧ n ≤ 90) ∨ (97 ≤ n ∧ n ≤ 122))

/-- A character that stands between tokens, and what comes of it: the token it is, if any, and where the scanner stands
after it. -/
def scanOne (c : Char) : Option (List Token × Scan) :=
  if c.toNat = 32 ∨ c.toNat = 9 then some ([], .between)
  else if c.toNat = 44 then some ([.comma], .between)
  else if c.toNat = 58 then some ([.colon], .between)
  else if c.toNat = 123 then some ([.openBrace], .between)
  else if c.toNat = 125 then some ([.closeBrace], .between)
  else if c.toNat = 34 then some ([], .text [])
  else if wordChar c then some ([], .word [c])
  else none

/-- The tokens of a line, up to its comment, which `;` starts; `none` where the line is not of the syntax. -/
def scan : Scan → List Char → Option (List Token)
  | .between, [] => some []
  | .word read, [] => some [.word read.reverse]
  | .text _, [] => none
  | .hex _ _, [] => none
  | .between, c :: cs =>
    if c.toNat = 59 then some []
    else
      match scanOne c with
      | none => none
      | some (ts, next) => (scan next cs).map (ts ++ ·)
  | .word read, c :: cs =>
    if wordChar c then scan (.word (c :: read)) cs
    else if c.toNat = 34 ∧ read.map Char.toNat = [120] then scan (.hex [] none) cs
    else if c.toNat = 59 then some [.word read.reverse]
    else
      match scanOne c with
      | none => none
      | some (ts, next) => (scan next cs).map (.word read.reverse :: ts ++ ·)
  | .text read, c :: cs =>
    if c.toNat = 34 then (scan .between cs).map (.text read.reverse :: ·)
    else if c.toNat < 128 then scan (.text (BitVec.ofNat 8 c.toNat :: read)) cs
    else none
  | .hex read half, c :: cs =>
    if c.toNat = 34 then
      match half with
      | none => (scan .between cs).map (.hex read.reverse :: ·)
      | some _ => none
    else
      match hexDigit c, half with
      | none, _ => none
      | some d, none => scan (.hex read (some d)) cs
      | some d, some h => scan (.hex (BitVec.ofNat 8 (16 * h + d) :: read) none) cs

/-- The number that digits of a base spell, after the value read so far. -/
def digits (digit : Char → Option Nat) (base : Nat) : Nat → List Char → Option Nat
  | n, [] => some n
  | n, c :: cs =>
    match digit c with
    | none => none
    | some d => digits digit base (base * n + d) cs

/-- A decimal number of at least one digit. -/
def decimal (w : List Char) : Option Nat := if w = [] then none else digits decDigit 10 0 w

/-- A number, decimal or `0x` hexadecimal. -/
def number (w : List Char) : Option Nat :=
  match w with
  | '0' :: 'x' :: ds => if ds = [] then none else digits hexDigit 16 0 ds
  | _ => decimal w

/-- A number that fits `n` bits. -/
def sized (n : Nat) : Token → Option (BitVec n)
  | .word w =>
    match number w with
    | none => none
    | some v => if v < 2 ^ n then some (BitVec.ofNat n v) else none
  | _ => none

/-- `f<FID>`. -/
def bankToken : Token → Option FilterId
  | .word ('f' :: ds) =>
    match decimal ds with
    | none => none
    | some v => if v < 256 then some (BitVec.ofNat 8 v) else none
  | _ => none

/-- `<bytes>`: a text or hex digits. -/
def bytesToken : Token → Option (List Byte)
  | .text bs => some bs
  | .hex bs => some bs
  | _ => none

/-- `"text"` only, the operand of the STR forms. -/
def textToken : Token → Option (List Byte)
  | .text bs => some bs
  | _ => none

/-- Further elements of a batch: a comma and an element each, then the closing brace. -/
def moreElements : List Token → Option (List Token)
  | [.closeBrace] => some []
  | .comma :: t :: ts => (moreElements ts).map (t :: ·)
  | _ => none

/-- The elements of a batch between braces. -/
def elements : List Token → Option (List Token)
  | [.openBrace, .closeBrace] => some []
  | .openBrace :: t :: ts => (moreElements ts).map (t :: ·)
  | _ => none

/-- Every element read the same way. -/
def readAll {α : Type} (read : Token → Option α) : List Token → Option (List α)
  | [] => some []
  | t :: ts =>
    match read t, readAll read ts with
    | some a, some as => some (a :: as)
    | _, _ => none

/-- Operands `f<FID>`. -/
def oneBank (make : FilterId → Instr) : List Token → Option Instr
  | [f] => (bankToken f).map make
  | _ => none

/-- Operands `f<FID>, <operand>`. -/
def bankAnd {α : Type} (read : Token → Option α) (make : FilterId → α → Instr) : List Token → Option Instr
  | [f, .comma, t] =>
    match bankToken f, read t with
    | some fid, some a => some (make fid a)
    | _, _ => none
  | _ => none

/-- Operands `f<FID>, ` and a batch. -/
def bankAndBatch {α : Type} (read : Token → Option α) (make : FilterId → List α → Instr) : List Token → Option Instr
  | f :: .comma :: ts =>
    match bankToken f, (elements ts).bind (readAll read) with
    | some fid, some as => some (make fid as)
    | _, _ => none
  | _ => none

/-- Operands `f<FID>, <CAP>, <K>` and, where CONC is 1, `, conc`. -/
def configOperands : List Token → Option Instr
  | f :: .comma :: capacity :: .comma :: k :: rest =>
    match bankToken f, sized 64 capacity, sized 32 k with
    | some fid, some c, some n =>
      if rest = [] then some (.config fid false c n)
      else if rest = [.comma, .word ['c', 'o', 'n', 'c']] then some (.config fid true c n)
      else none
    | _, _, _ => none
  | _ => none

/-- The command that a mnemonic (R113) and its operands stand for (R126). -/
def readCommand (mnemonic : List Char) (ts : List Token) : Option Instr :=
  if mnemonic = "CONFIG".toList then configOperands ts
  else if mnemonic = "ADD".toList then bankAnd bytesToken .add ts
  else if mnemonic = "ADD.STR".toList then bankAnd textToken .addStr ts
  else if mnemonic = "ADD.U16".toList then bankAnd (sized 16) .addU16 ts
  else if mnemonic = "ADD.U32".toList then bankAnd (sized 32) .addU32 ts
  else if mnemonic = "ADD.U64".toList then bankAnd (sized 64) .addU64 ts
  else if mnemonic = "ADDB".toList then bankAndBatch bytesToken .addb ts
  else if mnemonic = "ADDB.U16".toList then bankAndBatch (sized 16) .addbU16 ts
  else if mnemonic = "ADDB.U32".toList then bankAndBatch (sized 32) .addbU32 ts
  else if mnemonic = "ADDB.U64".toList then bankAndBatch (sized 64) .addbU64 ts
  else if mnemonic = "TEST".toList then bankAnd bytesToken .test ts
  else if mnemonic = "TEST.STR".toList then bankAnd textToken .testStr ts
  else if mnemonic = "TEST.U16".toList then bankAnd (sized 16) .testU16 ts
  else if mnemonic = "TEST.U32".toList then bankAnd (sized 32) .testU32 ts
  else if mnemonic = "TEST.U64".toList then bankAnd (sized 64) .testU64 ts
  else if mnemonic = "MERGE".toList then bankAnd bankToken .merge ts
  else if mnemonic = "RESET".toList then oneBank .reset ts
  else if mnemonic = "CAP".toList then oneBank .cap ts
  else if mnemonic = "SIZE".toList then oneBank .size ts
  else if mnemonic = "FPR".toList then oneBank .fpr ts
  else none

/-- What a line is. -/
inductive Line where
  /-- nothing but blanks and a comment -/
  | blank
  /-- a command, and the port its `p<n>:` names; port 0 where it names none (95_test_vectors.md section 3) -/
  | command (port : Nat) (i : Instr)
  /-- not of the syntax -/
  | wrong
  deriving DecidableEq, Repr

/-- A line that is a command on this port, where it is one. -/
def lineOf (port : Nat) : Option Instr → Line
  | some i => .command port i
  | none => .wrong

/-- The line's port and command (R126). -/
def assemble (line : List Char) : Line :=
  match scan .between line with
  | none => .wrong
  | some [] => .blank
  | some (.word ('p' :: ds) :: .colon :: .word m :: ts) =>
    match decimal ds with
    | none => .wrong
    | some port => lineOf port (readCommand m ts)
  | some (.word m :: ts) => lineOf 0 (readCommand m ts)
  | some _ => .wrong

end Sys2Proof.Machine
end

