-- ==== Sys2Proof/Safety.lean ====
section
/-! DEFINITION. The terms claims about the engine are stated in: the one-step effects of the commands (20_memory.md
R88, R89, R320), the conditions under which a command meets no other (R320), what a machine without a stuck or illegal
part looks like, when a run has ended (R331), and what R330 assumes of a schedule. -/

namespace Sys2Proof.Machine

/-! ### One-step effects on a bank -/

/-- `SetBit` in one step (R77). -/
def Bank.setBit (b : Bank) (position : Word64) : Bank :=
  let slot := slotOf b.bitlen position
  { b with storage := Memory.write b.storage slot (Memory.read b.storage slot ||| bitMask (offsetOf position)) }

/-- The bit a probe position addresses is 1 (R78). -/
def Bank.bit (b : Bank) (position : Word64) : Bool :=
  (Memory.read b.storage (slotOf b.bitlen position)).getLsbD (offsetOf position)

/-- `add_key` in one step (R160): every probe's bit, then COUNT plus 1. -/
def Bank.addKey (params : Params) (b : Bank) (key : List Byte) : Bank :=
  { (probes params key b.k).foldl Bank.setBit b with count := b.count + 1 }

/-- `add_key` of each key in order (R170). -/
def Bank.addKeys (params : Params) (b : Bank) (keys : List (List Byte)) : Bank :=
  keys.foldl (Bank.addKey params) b

/-- `test_key` in one step (R180): every probe's bit is 1. -/
def Bank.testKey (params : Params) (b : Bank) (key : List Byte) : Bool :=
  (probes params key b.k).all b.bit

/-- The RESULT of a TEST (R121, R180). -/
def testResult (params : Params) (b : Bank) (key : List Byte) : Word64 :=
  if b.testKey params key then 1 else 0

/-! ### What a command inserts and stores -/

/-- The keys a command inserts, after the Codec (R141, R160 to R164, R170 to R173). -/
def insertedKeys : Instr → List (List Byte)
  | .config _ _ _ _ => []
  | .add _ key => [encodeBytes key]
  | .addStr _ key => [encodeStr key]
  | .addU16 _ v => [encodeU16 v]
  | .addU32 _ v => [encodeU32 v]
  | .addU64 _ v => [encodeU64 v]
  | .addb _ keys => keys.map encodeBytes
  | .addbU16 _ vs => vs.map encodeU16
  | .addbU32 _ vs => vs.map encodeU32
  | .addbU64 _ vs => vs.map encodeU64
  | .test _ _ => []
  | .testStr _ _ => []
  | .testU16 _ _ => []
  | .testU32 _ _ => []
  | .testU64 _ _ => []
  | .merge _ _ => []
  | .reset _ => []
  | .cap _ => []
  | .size _ => []
  | .fpr _ => []

/-- The key a command tests, after the Codec (R141, R180 to R184). -/
def testedKey : Instr → Option (List Byte)
  | .test _ key => some (encodeBytes key)
  | .testStr _ key => some (encodeStr key)
  | .testU16 _ v => some (encodeU16 v)
  | .testU32 _ v => some (encodeU32 v)
  | .testU64 _ v => some (encodeU64 v)
  | .config _ _ _ _ => none
  | .add _ _ => none
  | .addStr _ _ => none
  | .addU16 _ _ => none
  | .addU32 _ _ => none
  | .addU64 _ _ => none
  | .addb _ _ => none
  | .addbU16 _ _ => none
  | .addbU32 _ _ => none
  | .addbU64 _ _ => none
  | .merge _ _ => none
  | .reset _ => none
  | .cap _ => none
  | .size _ => none
  | .fpr _ => none

/-- The command is of the ADD or ADDB family (R86). -/
def isInsertion (i : Instr) : Bool :=
  match i.opcode with
  | .add | .addStr | .addU16 | .addU32 | .addU64 | .addb | .addbU16 | .addbU32 | .addbU64 => true
  | .config | .test | .testStr | .testU16 | .testU32 | .testU64 | .merge | .reset | .cap | .size | .fpr => false

/-- The command clears bits of the bank it names: RESET and CONFIG (R42). -/
def isClearing (i : Instr) : Bool :=
  match i.opcode with
  | .config | .reset => true
  | .add | .addStr | .addU16 | .addU32 | .addU64 | .addb | .addbU16 | .addbU32 | .addbU64
  | .test | .testStr | .testU16 | .testU32 | .testU64 | .merge | .cap | .size | .fpr => false

/-- The command is read-only: TEST and its forms, CAP, SIZE and FPR (R88). -/
def isReading (i : Instr) : Bool :=
  match i.opcode with
  | .test | .testStr | .testU16 | .testU32 | .testU64 | .cap | .size | .fpr => true
  | .config | .add | .addStr | .addU16 | .addU32 | .addU64 | .addb | .addbU16 | .addbU32 | .addbU64
  | .merge | .reset => false

/-- Whether a command on the bank `b` that its FID names may store to byte `j`: a slot of a probe of an inserted key
for ADD and ADDB (R77), a byte below BITLEN for MERGE and RESET (R210, R220), a byte below the new BITLEN for CONFIG
(R250), none for TEST, CAP, SIZE and FPR. -/
def storesTo (params : Params) (b : Bank) (i : Instr) (j : Nat) : Prop :=
  match i with
  | .config _ _ capacity _ => j < 2 ^ ceilLog2 capacity.toNat
  | .merge _ _ => j < b.bitlen.toNat
  | .reset _ => j < b.bitlen.toNat
  | i => ∃ key ∈ insertedKeys i, ∃ q ∈ probes params key b.k, j = slotOf b.bitlen q

/-! ### Legal machines -/

/-- The register values a configured bank can hold (10_state.md section 2, R36). -/
def Bank.legal (log2MaxBytes : Nat) (b : Bank) : Prop :=
  b.log2len.toNat ≤ log2MaxBytes ∧ b.bitlen = 1#64 <<< b.log2len.toNat ∧ b.k ≠ 0

/-- The storage of a bank is canonical and lists only bytes that exist (R41). -/
def Bank.storageOk (log2MaxBytes : Nat) (b : Bank) : Prop :=
  Memory.wf b.storage ∧ ∀ c ∈ b.storage, c.1 < 2 ^ log2MaxBytes

/-- Every bank's storage is canonical and lists only bytes that exist. -/
def State.StorageInv (s : State) : Prop := ∀ b ∈ s.banks, b.storageOk s.params.log2MaxBytes

/-- A micro-step touches only banks, bytes and register values that exist, and CONFIG's atomic step brings legal
ones (R252). -/
def Micro.legal (s : State) : Micro → Prop
  | .admitStep => True
  | .configure f capacity k _ =>
    f < s.banks.length ∧ capacity ≠ 0 ∧ k ≠ 0 ∧ capacity.toNat ≤ s.physicalBytes
  | .acquireExcl f => f < s.banks.length
  | .acquireShared f => f < s.banks.length
  | .release f => f < s.banks.length
  | .setRead f _ _ => configured s f = true
  | .setWrite f _ _ => configured s f = true
  | .testRead f _ _ => configured s f = true
  | .readCount f => f < s.banks.length
  | .writeCountSucc f => f < s.banks.length
  | .writeCountZero f => f < s.banks.length
  | .orReadSource f j => f < s.banks.length ∧ j < s.physicalBytes
  | .orReadDest f j => f < s.banks.length ∧ j < s.physicalBytes
  | .orWrite f j => f < s.banks.length ∧ j < s.physicalBytes
  | .zeroByte f j => f < s.banks.length ∧ j < s.physicalBytes
  | .respond _ _ => True

/-- What remains of a command in flight is legal, and a command still to be admitted passed its packet checks
(R273 steps 1 to 6). -/
def InFlight.legal (s : State) (c : InFlight) : Prop :=
  (∀ m ∈ c.todo, m.legal s) ∧
    (Micro.admitStep ∈ c.todo → ∀ i, decode c.request = .ok i → packetCheck s i = none)

/-- The registers of every configured bank and what remains of every command in flight are legal (R10, R36, R40). -/
def State.RegisterInv (s : State) : Prop :=
  s.params.log2MaxBytes ≤ 61 ∧
    (∀ b ∈ s.banks, b.cfg = true → b.legal s.params.log2MaxBytes) ∧
    (∀ port ∈ s.ports, ∀ c, port.inFlight = some c → c.legal s)

/-- The guard's invariant (R46): a writer excludes readers. -/
def State.GuardInv (s : State) : Prop := ∀ b ∈ s.banks, b.guard.writer ≠ none → b.guard.readers = []

/-- Port `p` is BUSY with command `c`. -/
def State.busyWith (s : State) (p : Nat) (c : InFlight) : Prop :=
  ∃ port, s.port? p = some port ∧ port.inFlight = some c

/-- A command in flight holds bank `f`'s lock: it has acquired it and not yet released it (R90, R91). -/
def InFlight.holds (c : InFlight) (f : Nat) : Prop :=
  Micro.release f ∈ c.todo ∧ Micro.acquireExcl f ∉ c.todo ∧ Micro.acquireShared f ∉ c.todo

/-- A command in flight is before its admission, about to report an error, or somewhere along the micro-steps R86
gives its request. -/
def InFlight.onTrack (s : State) (c : InFlight) : Prop :=
  (c.todo = [.admitStep] ∧ c.admitted = false) ∨
    (∃ e, c.todo = [.respond e (.const 0)]) ∨
    (c.admitted = true ∧ c.todo ≠ [] ∧
      ∃ i, decode c.request = .ok i ∧ c.todo <:+ program s.params (homeBank s i) i)

/-- A command in flight is at CONFIG's atomic step on bank `f`. -/
def InFlight.configures (c : InFlight) (f : Nat) : Prop :=
  ∃ capacity k conc, Micro.configure f capacity k conc ∈ c.todo

/-- A command in flight waits to acquire bank `f`'s lock: the acquisition is its next micro-step (R46, R90). -/
def InFlight.acquires (c : InFlight) (f : Nat) : Prop :=
  c.todo.head? = some (.acquireExcl f) ∨ c.todo.head? = some (.acquireShared f)

/-- Locks, waiting sets and interlock bits are exactly those of the commands in flight (R46, R90, R91, R255). So a port
whose acquisition is not enabled is in the guard's waiting set, as R90 says. -/
def State.LockInv (s : State) : Prop :=
  (∀ p c, s.busyWith p c → c.onTrack s) ∧
    (∀ f b, s.bank? f = some b →
      (∀ p, (b.guard.writer = some p ∨ p ∈ b.guard.readers) ↔ ∃ c, s.busyWith p c ∧ c.holds f) ∧
      (∀ p, p ∈ b.guard.waiting ↔ ∃ c, s.busyWith p c ∧ c.acquires f) ∧
      (b.guard.configPending = true ↔ ∃ p c, s.busyWith p c ∧ c.configures f) ∧
      (∀ p q c d, s.busyWith p c → s.busyWith q d → c.configures f → d.configures f → p = q))

/-! ### Commands that meet no other -/

/-- The port whose turn it is exists and is IDLE (R44). -/
def State.idleTurn (s : State) : Prop := ∃ port, s.port? s.cur = some port ∧ port.inFlight = none

/-- The guard grants the exclusive lock to port `p` at once (R90), and `p` is in none of its sets. -/
def Guard.openExclusive (g : Guard) (p : Nat) : Prop :=
  g.writer = none ∧ g.readers = [] ∧ p ∉ g.waiting

/-- The guard grants the shared lock to port `p` at once (R90), and `p` is in none of its sets. -/
def Guard.openShared (g : Guard) (p : Nat) : Prop :=
  g.writer = none ∧ p ∉ g.readers ∧ p ∉ g.waiting

/-- Bank `f` is the configured bank `b`, with legal registers and no CONFIG pending (R39, R255). -/
def State.holdsBank (s : State) (f : Nat) (b : Bank) : Prop :=
  s.bank? f = some b ∧ b.cfg = true ∧ b.guard.configPending = false ∧ b.legal s.params.log2MaxBytes

/-- The port whose turn it is can run a writing command on bank `f` at once. -/
def State.readyToWrite (s : State) (f : Nat) (b : Bank) : Prop :=
  s.idleTurn ∧ s.holdsBank f b ∧ (b.conc = true → b.guard.openExclusive s.cur)

/-- The port whose turn it is can run a read-only command on bank `f` at once. -/
def State.readyToRead (s : State) (f : Nat) (b : Bank) : Prop :=
  s.idleTurn ∧ s.holdsBank f b ∧ (b.conc = true → b.guard.openShared s.cur)

/-- Bank `f` holds `b'`, and the port whose turn it is has been answered OK with this RESULT; nothing else differs. -/
def State.answered (s : State) (f : Nat) (b' : Bank) (result : Word64) : State :=
  (s.modifyBank f (fun _ => b')).deliver s.cur (Response.success result)

/-! ### Whole runs -/

/-- ADD of each key in turn, from the same port. -/
def execAddEach (fid : FilterId) : List (List Byte) → State → Option State
  | [], s => some s
  | key :: keys, s =>
    match exec (.add fid key) s with
    | .next t => execAddEach fid keys t
    | .fault _ => none
    | .refused _ => none

/-- Commands of any ports, each of them allowed, run one after another. -/
inductive Run (allowed : Instr → Prop) : State → State → Prop where
  | refl (s : State) : Run allowed s s
  | tail {s t u : State} (p : Nat) (i : Instr) (h : Run allowed s t) (hi : allowed i)
      (hu : exec i (t.turn p) = .next u) : Run allowed s u

/-- A run in which no command is a RESET or a CONFIG of bank `f`. -/
def RunWithoutClearing (f : Nat) : State → State → Prop := Run (fun i => ¬ (isClearing i = true ∧ bankOf i.fid = f))

/-- A run in which every command whose FID is bank `f` is read-only. -/
def RunWithoutWriting (f : Nat) : State → State → Prop := Run (fun i => bankOf i.fid = f → isReading i = true)

/-- The move is the host's offer of a request (R332). -/
def Move.isOffer : Move → Bool
  | .offer _ _ => true
  | .accept _ => false
  | .micro _ => false
  | .command _ => false
  | .powerOn => false

/-- A run has ended (R331): every port is IDLE and the host has no request left to offer, neither one that waits at a
port nor one that is still to come on the agenda. -/
def State.atRest (s : State) : Prop :=
  (∀ port ∈ s.ports, port.inFlight = none ∧ port.queue = []) ∧ ∀ m ∈ s.agenda, m.isOffer = false

/-! ### Schedules (R87, R330)

The schedule is a parameter (93_implementation_defined.md V11, U8), and a moment's agenda is a finite stretch of one.
What the spec asks of a whole schedule is said here of the moves it makes without end. -/

/-- The moves of the ports, the host and the platform, one after another without end. -/
abbrev Schedule := Nat → Move

/-- The state before move `n` of the schedule, from `s` (a move that stops leaves the state; NoStepStops says that none
does). -/
def Schedule.stateAt (σ : Schedule) (s : State) : Nat → State
  | 0 => s
  | n + 1 =>
    match step { σ.stateAt s n with agenda := [σ n] } with
    | .next t => t
    | .fault _ => σ.stateAt s n
    | .refused _ => σ.stateAt s n

/-- Every move of a BUSY port is one micro-step (R86). A whole-command move stands for accepting and such moves
(statement CommandIsItsMicroSteps). -/
def Schedule.bySteps (σ : Schedule) : Prop := ∀ n p, σ n ≠ .command p

/-- Port `p` is BUSY and its next micro-step is enabled (R87). -/
def State.microEnabled (s : State) (p : Nat) : Prop :=
  ∃ c, s.busyWith p c ∧ ∀ c' s', advance p c s ≠ .blocked c' s'

/-- Weak fairness (R330): a port whose next micro-step stays enabled takes it. -/
def Schedule.weaklyFair (σ : Schedule) (s : State) : Prop :=
  ∀ p n, (∀ m, n ≤ m → (σ.stateAt s m).microEnabled p) → ∃ m, n ≤ m ∧ σ m = .micro p

/-- Port `p` is in `guard[f].waiting` (R46). -/
def State.waitsFor (s : State) (p f : Nat) : Prop := ∃ b, s.bank? f = some b ∧ p ∈ b.guard.waiting

/-- Move `n` grants bank `f`'s lock to port `p`, which waited for it (R90). -/
def Schedule.grants (σ : Schedule) (s : State) (n p f : Nat) : Prop :=
  σ n = .micro p ∧ (σ.stateAt s n).waitsFor p f ∧ ¬ (σ.stateAt s (n + 1)).waitsFor p f

/-- The guard is starvation-free (R90): a port that waits is granted after finitely many other grants. Where a bank's
lock is granted without end, each port that waits for it stops waiting (it is granted, or power-on reset abandons it). -/
def Schedule.starvationFree (σ : Schedule) (s : State) : Prop :=
  ∀ p f n, (σ.stateAt s n).waitsFor p f →
    (∃ m, n ≤ m ∧ ¬ (σ.stateAt s m).waitsFor p f) ∨ ∃ m, ∀ k q, m ≤ k → ¬ σ.grants s k q f

/-- What R330 assumes of the schedule: weak fairness and the guard's starvation freedom. -/
def Schedule.fair (σ : Schedule) (s : State) : Prop := σ.bySteps ∧ σ.weaklyFair s ∧ σ.starvationFree s

/-- From some move on no port accepts a CONFIG. -/
def Schedule.configsEnd (σ : Schedule) (s : State) : Prop :=
  ∃ n, ∀ m p port packet i, n ≤ m → σ m = .accept p → (σ.stateAt s m).port? p = some port → port.inFlight = none →
    port.queue.head? = some packet → decode packet = .ok i → i.opcode ≠ .config

/-- The parameters are in the ranges R8 to R10 give them. -/
def State.parametersOk (s : State) : Prop :=
  1 ≤ s.ports.length ∧ 1 ≤ s.banks.length ∧ s.banks.length ≤ 256 ∧ s.params.log2MaxBytes ≤ 61

end Sys2Proof.Machine
end

