-- ==== Sys2Proof/Certificates/Slice0/Obligations.lean ====
section
/-! DEFINITION. The statements for the provers. Each docstring names the rules of spec/ it rests on. -/

open Sys2Proof Sys2Proof.Machine

/-! ### Encoding -/

/-- R112, R113, R115 to R117: a command's packet decodes to that command, every operand at every value. -/
def Obligations.DecodeOfEncode : Prop :=
  ∀ i : Instr, i.wf = true → decode (encode i) = .ok i

/-- R115, R116, R119, R122: a packet that decodes is the packet of what it decodes to, so no bit of it is dropped. -/
def Obligations.EncodeOfDecode : Prop :=
  ∀ (bs : List Byte) (i : Instr), decode bs = .ok i → i.wf = true ∧ encode i = bs

/-- R114: the selection patterns on CMD, and what a CMD that matches none of them ends in. -/
def Obligations.SelectionPatterns : Prop :=
  (∀ c : Word32, c &&& 0xFFFF00DF#32 = 0x00000001#32 ↔
    Opcode.ofBits (cmdOp c) = some .config ∧ c &&& Opcode.reservedMask .config = 0) ∧
  (∀ c : Word32, c &&& 0xFF0000FF#32 = 0x00000010#32 ↔
    Opcode.ofBits (cmdOp c) = some .merge ∧ c &&& Opcode.reservedMask .merge = 0) ∧
  (∀ (op : Opcode) (c : Word32), op ≠ .config → op ≠ .merge →
    (c &&& 0xFFFF00FF#32 = op.code.setWidth 32 ↔
      Opcode.ofBits (cmdOp c) = some op ∧ c &&& op.reservedMask = 0)) ∧
  (∀ bs : List Byte, 4 ≤ bs.length →
    (∀ op : Opcode, commandWord bs &&& op.selectMask ≠ op.code.setWidth 32) →
    decode bs = .error .illegalOpcode ∨ decode bs = .error .reservedField)

/-- R123 with R115 and R119: the length a decoder takes from a byte stream is the packet's, whatever follows it, and it
is the length R119 expects. -/
def Obligations.StreamLengthOfPacket : Prop :=
  ∀ (i : Instr) (tail : List Byte), i.wf = true →
    streamLength (encode i ++ tail) = (encode i).length ∧
    expectedLength i.opcode (encode i) = some (encode i).length

/-- R128: encodings written out in the spec, byte by byte. -/
def Obligations.SpecPacketsDecode : Prop :=
  decode [0x21#8, 1#8, 0#8, 0#8, 0#8, 4#8, 0#8, 0#8, 0#8, 0#8, 0#8, 0#8, 3#8, 0#8, 0#8, 0#8] =
    .ok (.config 1 true 1024 3) ∧
  decode [5#8, 1#8, 0#8, 0#8, 0xEF#8, 0xBE#8, 0xAD#8, 0xDE#8] = .ok (.addU32 1 0xDEADBEEF) ∧
  decode [8#8, 0#8, 0#8, 0#8, 2#8, 0#8, 0#8, 0#8, 1#8, 0#8, 3#8, 2#8] = .ok (.addbU16 0 [1, 0x0203]) ∧
  decode [0x10#8, 0#8, 1#8, 0#8] = .ok (.merge 0 1)

/-- R126, R128: lines of the textual syntax, and the bytes R128 gives for them. -/
def Obligations.AssembledLines : Prop :=
  (assemble "CONFIG f1, 1024, 3, conc ; CONC = 1".toList = .command 0 (.config 1 true 1024 3) ∧
    encode (.config 1 true 1024 3) =
      [0x21#8, 1#8, 0#8, 0#8, 0#8, 4#8, 0#8, 0#8, 0#8, 0#8, 0#8, 0#8, 3#8, 0#8, 0#8, 0#8]) ∧
  (assemble "ADD.STR f0, \"bloom\"".toList = .command 0 (.addStr 0 [0x62#8, 0x6C#8, 0x6F#8, 0x6F#8, 0x6D#8]) ∧
    encode (.addStr 0 [0x62#8, 0x6C#8, 0x6F#8, 0x6F#8, 0x6D#8]) =
      [3#8, 0#8, 0#8, 0#8, 5#8, 0#8, 0#8, 0#8, 0x62#8, 0x6C#8, 0x6F#8, 0x6F#8, 0x6D#8]) ∧
  (assemble "ADD.U32 f1, 0xDEADBEEF".toList = .command 0 (.addU32 1 0xDEADBEEF) ∧
    encode (.addU32 1 0xDEADBEEF) = [5#8, 1#8, 0#8, 0#8, 0xEF#8, 0xBE#8, 0xAD#8, 0xDE#8]) ∧
  (assemble "p1: MERGE f0, f1".toList = .command 1 (.merge 0 1) ∧ encode (.merge 0 1) = [0x10#8, 0#8, 1#8, 0#8])

/-- R124: illegal opcodes and reserved bits, for a packet of any bytes handed to an IDLE port: the response is the
error, and no bank and no other port changes. -/
def Obligations.IllegalAndReservedRefused : Prop :=
  (∀ b : BitVec 5, Opcode.ofBits b = none ↔ b = 0x00#5 ∨ 0x15 ≤ b.toNat) ∧
  (∀ (s : State) (bs : List Byte), s.idleTurn → 4 ≤ bs.length →
    (Opcode.ofBits (cmdOp (commandWord bs)) = none →
      runPacket bs s = .next (s.raise s.cur .illegalOpcode)) ∧
    (∀ op : Opcode, Opcode.ofBits (cmdOp (commandWord bs)) = some op → commandWord bs &&& op.reservedMask ≠ 0 →
      runPacket bs s = .next (s.raise s.cur .reservedField))) ∧
  (∀ (s : State) (e : Status), (s.raise s.cur e).banks = s.banks ∧
    ∀ q, q ≠ s.cur → (s.raise s.cur e).port? q = s.port? q)

/-! ### HashEngine, addressing, sizing -/

/-- R145: the index pattern of the probe positions. -/
def Obligations.ProbeIndexPattern : Prop :=
  ∀ (h : HashQuad) (i : Nat),
    (i % 4 = 0 → probePosition h i = h.h0 + BitVec.ofNat 64 i * h.h2) ∧
    (i % 4 = 1 → probePosition h i = h.h1 + BitVec.ofNat 64 i * h.h3) ∧
    (i % 4 = 2 → probePosition h i = h.h0 + BitVec.ofNat 64 i * h.h3) ∧
    (i % 4 = 3 → probePosition h i = h.h1 + BitVec.ofNat 64 i * h.h2)

/-- R147: `probes(key, K)` is the probe positions 0 to K - 1 of the key's base hashes, in ascending order; it depends on
the key and K only, so banks of equal K and BITLEN locate a key's probes to the same bits. -/
def Obligations.ProbeList : Prop :=
  (∀ (params : Params) (key : List Byte) (k : Word32), (probes params key k).length = k.toNat ∧
    ∀ i, i < k.toNat → (probes params key k)[i]? = some (probePosition (baseHash params key) i)) ∧
  (∀ (params : Params) (key : List Byte) (b b' : Bank), b.k = b'.k → b.bitlen = b'.bitlen →
    (probes params key b.k).map (fun q => (slotOf b.bitlen q, offsetOf q)) =
      (probes params key b'.k).map (fun q => (slotOf b'.bitlen q, offsetOf q)))

/-- R141: the bytes the Codec makes of each operand, that an integer's are those of its packet, and that an integer
key and a byte key of the same bytes are the same insertion. -/
def Obligations.CodecBytes : Prop :=
  (∀ key, encodeBytes key = key ∧ encodeStr key = key) ∧
  (∀ v : Word16, encodeU16 v = [v.extractLsb' 0 8, v.extractLsb' 8 8]) ∧
  (∀ v : Word32, encodeU32 v = [v.extractLsb' 0 8, v.extractLsb' 8 8, v.extractLsb' 16 8, v.extractLsb' 24 8]) ∧
  (∀ v : Word64, encodeU64 v = [v.extractLsb' 0 8, v.extractLsb' 8 8, v.extractLsb' 16 8, v.extractLsb' 24 8,
    v.extractLsb' 32 8, v.extractLsb' 40 8, v.extractLsb' 48 8, v.extractLsb' 56 8]) ∧
  (∀ (fid : FilterId) (v : Word16) (w : Word32) (x : Word64), (encode (.addU16 fid v)).drop 4 = encodeU16 v ∧
    (encode (.addU32 fid w)).drop 4 = encodeU32 w ∧ (encode (.addU64 fid x)).drop 4 = encodeU64 x ∧
    (encode (.testU16 fid v)).drop 4 = encodeU16 v ∧ (encode (.testU32 fid w)).drop 4 = encodeU32 w ∧
    (encode (.testU64 fid x)).drop 4 = encodeU64 x) ∧
  (∀ (s : State) (fid : FilterId) (b : Bank) (v : Word16) (w : Word32) (x : Word64), s.readyToWrite (bankOf fid) b →
    exec (.addU16 fid v) s = exec (.add fid (encodeU16 v)) s ∧ exec (.addU32 fid w) s = exec (.add fid (encodeU32 w)) s ∧
    exec (.addU64 fid x) s = exec (.add fid (encodeU64 x)) s)

/-- R72: the bit a position addresses, in a bank whose BITLEN is `1 << LOG2LEN`. -/
def Obligations.LocatedBit : Prop :=
  ∀ (L : Nat) (b : Bank) (position : Word64), b.legal L →
    8 * slotOf b.bitlen position + offsetOf position = position.toNat % (8 * b.bitlen.toNat) ∧
    slotOf b.bitlen position < b.bitlen.toNat ∧
    (b.bitlen = 1 → slotOf b.bitlen position = 0) ∧
    (∀ position' : Word64, position'.toNat % 2 ^ (3 + b.log2len.toNat) = position.toNat % 2 ^ (3 + b.log2len.toNat) →
      slotOf b.bitlen position' = slotOf b.bitlen position ∧ offsetOf position' = offsetOf position) ∧
    offsetOf position = position.toNat % 8 ∧
    slotOf b.bitlen position = position.toNat / 8 % 2 ^ b.log2len.toNat

/-- R251: `ceil_log2` is the least `L` with `2^L ≥ c`, `2^L` is the least power of two that is at least `c`, and the
values the rule lists. -/
def Obligations.CeilLog2Least : Prop :=
  (∀ c : Nat, 1 ≤ c → c ≤ 2 ^ ceilLog2 c ∧ (∀ l, c ≤ 2 ^ l → ceilLog2 c ≤ l ∧ 2 ^ ceilLog2 c ≤ 2 ^ l)) ∧
  [1, 2, 3, 5, 1000, 1024, 1025, 65536, 65537].map (fun c => (ceilLog2 c, 2 ^ ceilLog2 c)) =
    [(0, 1), (1, 2), (2, 4), (3, 8), (10, 1024), (10, 1024), (11, 2048), (16, 65536), (17, 131072)]

/-- R120, R270: the 16 bytes of a response. -/
def Obligations.ResponsePacketLayout : Prop :=
  ∀ r : Response, r.packet.length = 16 ∧ r.packet[0]? = some (statusCode r.status) ∧
    (∀ j, 1 ≤ j → j ≤ 7 → r.packet[j]? = some 0) ∧ fieldAt 8 8 r.packet = r.result.toNat ∧
    (statusCode r.status).toNat ≤ 8

/-! ### What each command does when it meets no other -/

/-- R250, R254: CONFIG creates the bank anew, and nothing else changes. -/
def Obligations.ConfigResult : Prop :=
  ∀ (s : State) (fid : FilterId) (conc : Bool) (capacity : Word64) (k : Word32) (b : Bank),
    s.idleTurn → s.bank? (bankOf fid) = some b → b.guard.configPending = false →
    s.othersName s.cur (bankOf fid) = false → s.params.log2MaxBytes ≤ 61 →
    capacity ≠ 0 → k ≠ 0 → capacity.toNat ≤ 2 ^ s.params.log2MaxBytes →
    ∃ m', exec (.config fid conc capacity k) s = .next (s.answered (bankOf fid)
        { cfg := true, conc := conc, log2len := BitVec.ofNat 6 (ceilLog2 capacity.toNat),
          bitlen := 1#64 <<< ceilLog2 capacity.toNat, k := k, count := 0, storage := m', guard := b.guard } 0) ∧
      (∀ j, Memory.read m' j = if j < 2 ^ ceilLog2 capacity.toNat then 0 else Memory.read b.storage j) ∧
      (Memory.wf b.storage → Memory.wf m')

/-- R160 to R164: ADD and its typed forms set the probes' bits of the operand's key and count once. -/
def Obligations.AddResults : Prop :=
  ∀ (s : State) (fid : FilterId) (b : Bank), s.readyToWrite (bankOf fid) b →
    (∀ key, exec (.add fid key) s = .next (s.answered (bankOf fid) (b.addKey s.params key) 0)) ∧
    (∀ key, exec (.addStr fid key) s = .next (s.answered (bankOf fid) (b.addKey s.params key) 0)) ∧
    (∀ v : Word16, exec (.addU16 fid v) s =
      .next (s.answered (bankOf fid) (b.addKey s.params [v.extractLsb' 0 8, v.extractLsb' 8 8]) 0)) ∧
    (∀ v : Word32, exec (.addU32 fid v) s =
      .next (s.answered (bankOf fid) (b.addKey s.params
        [v.extractLsb' 0 8, v.extractLsb' 8 8, v.extractLsb' 16 8, v.extractLsb' 24 8]) 0)) ∧
    (∀ v : Word64, exec (.addU64 fid v) s =
      .next (s.answered (bankOf fid) (b.addKey s.params
        [v.extractLsb' 0 8, v.extractLsb' 8 8, v.extractLsb' 16 8, v.extractLsb' 24 8,
          v.extractLsb' 32 8, v.extractLsb' 40 8, v.extractLsb' 48 8, v.extractLsb' 56 8]) 0))

/-- R170 to R173: ADDB and its typed forms add each key in order. -/
def Obligations.AddBatchResults : Prop :=
  ∀ (s : State) (fid : FilterId) (b : Bank), s.readyToWrite (bankOf fid) b →
    (∀ keys, exec (.addb fid keys) s = .next (s.answered (bankOf fid) (b.addKeys s.params keys) 0)) ∧
    (∀ vs : List Word16, exec (.addbU16 fid vs) s =
      .next (s.answered (bankOf fid) (b.addKeys s.params (vs.map (fun v => leBytes 2 v.toNat))) 0)) ∧
    (∀ vs : List Word32, exec (.addbU32 fid vs) s =
      .next (s.answered (bankOf fid) (b.addKeys s.params (vs.map (fun v => leBytes 4 v.toNat))) 0)) ∧
    (∀ vs : List Word64, exec (.addbU64 fid vs) s =
      .next (s.answered (bankOf fid) (b.addKeys s.params (vs.map (fun v => leBytes 8 v.toNat))) 0))

/-- R180 to R184: TEST and its typed forms answer 1 exactly when every probe's bit is 1, and change no bank. -/
def Obligations.TestResults : Prop :=
  ∀ (s : State) (fid : FilterId) (b : Bank), s.readyToRead (bankOf fid) b →
    (∀ key, exec (.test fid key) s = .next (s.deliver s.cur (Response.success (testResult s.params b key)))) ∧
    (∀ key, exec (.testStr fid key) s = .next (s.deliver s.cur (Response.success (testResult s.params b key)))) ∧
    (∀ v : Word16, exec (.testU16 fid v) s =
      .next (s.deliver s.cur (Response.success (testResult s.params b (leBytes 2 v.toNat))))) ∧
    (∀ v : Word32, exec (.testU32 fid v) s =
      .next (s.deliver s.cur (Response.success (testResult s.params b (leBytes 4 v.toNat))))) ∧
    (∀ v : Word64, exec (.testU64 fid v) s =
      .next (s.deliver s.cur (Response.success (testResult s.params b (leBytes 8 v.toNat)))))

/-- R210, R212: MERGE ORs the source's bytes into the destination's, a self-merge included; the destination's COUNT and
registers, the source and everything else stay. -/
def Obligations.MergeResult : Prop :=
  ∀ (s : State) (fid sfid : FilterId) (bd bs : Bank),
    s.readyToWrite (bankOf fid) bd → s.holdsBank (bankOf sfid) bs → Memory.wf bd.storage →
    bd.bitlen = bs.bitlen → bd.k = bs.k → bs.conc = false →
    ∃ m', exec (.merge fid sfid) s = .next (s.answered (bankOf fid) { bd with storage := m' } 0) ∧ Memory.wf m' ∧
      ∀ j, Memory.read m' j =
        if j < bd.bitlen.toNat then Memory.read bd.storage j ||| Memory.read bs.storage j
        else Memory.read bd.storage j

/-- R220: RESET zeroes bytes 0 to BITLEN - 1 and COUNT; the bank's configuration and everything else stay. -/
def Obligations.ResetResult : Prop :=
  ∀ (s : State) (fid : FilterId) (b : Bank), s.readyToWrite (bankOf fid) b → Memory.wf b.storage →
    ∃ m', exec (.reset fid) s = .next (s.answered (bankOf fid) { b with storage := m', count := 0 } 0) ∧
      Memory.wf m' ∧
      ∀ j, Memory.read m' j = if j < b.bitlen.toNat then 0 else Memory.read b.storage j

/-- R230, R233, R236: CAP answers BITLEN, SIZE answers COUNT, FPR answers FPR_FN of K, COUNT and BITLEN; no bank
changes. -/
def Obligations.StatisticsResults : Prop :=
  ∀ (s : State) (fid : FilterId) (b : Bank), s.readyToRead (bankOf fid) b →
    exec (.cap fid) s = .next (s.deliver s.cur (Response.success b.bitlen)) ∧
    exec (.size fid) s = .next (s.deliver s.cur (Response.success b.count)) ∧
    exec (.fpr fid) s = .next (s.deliver s.cur (Response.success (Config.fprFn.rate b.k b.count b.bitlen)))

/-! ### Errors -/

/-- R273: the checks on a request handed to an IDLE port, in order: the first that fails decides the status, whatever
the later ones would find. Steps 7 to 9 are made where no bank the command names has a CONFIG pending (R255). -/
def Obligations.ChecksInOrder : Prop :=
  ∀ (s : State) (bs : List Byte), s.idleTurn →
    (bs.length < 4 → runPacket bs s = .next (s.raise s.cur .length)) ∧
    (4 ≤ bs.length → Opcode.ofBits (cmdOp (commandWord bs)) = none →
      runPacket bs s = .next (s.raise s.cur .illegalOpcode)) ∧
    (∀ op, 4 ≤ bs.length → Opcode.ofBits (cmdOp (commandWord bs)) = some op →
      (commandWord bs &&& op.reservedMask ≠ 0 → runPacket bs s = .next (s.raise s.cur .reservedField)) ∧
      (commandWord bs &&& op.reservedMask = 0 → expectedLength op bs ≠ some bs.length →
        runPacket bs s = .next (s.raise s.cur .length)) ∧
      (∀ i, decode bs = .ok i → i.opcode = op ∧ i.fid = cmdFid (commandWord bs) ∧
        (op = .merge → i.sfid = cmdSfid (commandWord bs)))) ∧
    (∀ i, decode bs = .ok i →
      (s.banks.length ≤ bankOf i.fid ∨ (i.opcode = .merge ∧ s.banks.length ≤ bankOf i.sfid) →
        runPacket bs s = .next (s.raise s.cur .badFilterId)) ∧
      (∀ fid conc capacity k, i = .config fid conc capacity k → bankOf fid < s.banks.length →
        (capacity = 0 ∨ k = 0 ∨ 2 ^ s.params.log2MaxBytes < capacity.toNat) →
        runPacket bs s = .next (s.raise s.cur .configInvalid)) ∧
      (i.opcode ≠ .config → (∀ f ∈ namedBanks i, f < s.banks.length ∧ s.configPending f = false) →
        (∃ f ∈ namedBanks i, configured s f = false) → runPacket bs s = .next (s.raise s.cur .unconfigured)) ∧
      (∀ fid sfid bd bs', i = .merge fid sfid → s.bank? (bankOf fid) = some bd → s.bank? (bankOf sfid) = some bs' →
        s.configPending (bankOf fid) = false → s.configPending (bankOf sfid) = false → bd.cfg = true → bs'.cfg = true →
        (bd.bitlen ≠ bs'.bitlen ∨ bd.k ≠ bs'.k → runPacket bs s = .next (s.raise s.cur .mismatch)) ∧
        (bd.bitlen = bs'.bitlen → bd.k = bs'.k → bs'.conc = true →
          runPacket bs s = .next (s.raise s.cur .unsupported))))

/-- R252: CONFIG's validation, and that a refused CONFIG writes nothing. -/
def Obligations.ConfigValidation : Prop :=
  ∀ (s : State) (fid : FilterId) (conc : Bool) (capacity : Word64) (k : Word32),
    s.idleTurn → bankOf fid < s.banks.length →
    (capacity = 0 ∨ k = 0 ∨ 2 ^ s.params.log2MaxBytes < capacity.toNat) →
    exec (.config fid conc capacity k) s = .next (s.raise s.cur .configInvalid) ∧
      (s.raise s.cur .configInvalid).banks = s.banks

/-- R257: the capacities at the bound: `2^LOG2_MAX_BYTES` is accepted, one more and every CAP from `2^63 + 1` on is
refused; a bank made with CONC set makes the MERGEs it is the source of end in UNSUPPORTED. -/
def Obligations.ConfigCapacityBound : Prop :=
  ∀ (s : State) (fid : FilterId) (conc : Bool) (capacity : Word64) (k : Word32) (b : Bank),
    s.idleTurn → s.bank? (bankOf fid) = some b → b.guard.configPending = false →
    s.othersName s.cur (bankOf fid) = false → s.params.log2MaxBytes ≤ 61 → k ≠ 0 →
    (capacity.toNat = 2 ^ s.params.log2MaxBytes → ∃ t b', exec (.config fid conc capacity k) s = .next t ∧
      t.bank? (bankOf fid) = some b' ∧ b'.bitlen.toNat = 2 ^ s.params.log2MaxBytes) ∧
    (capacity.toNat = 2 ^ s.params.log2MaxBytes + 1 ∨ 2 ^ 63 + 1 ≤ capacity.toNat →
      exec (.config fid conc capacity k) s = .next (s.raise s.cur .configInvalid)) ∧
    (∀ t, capacity ≠ 0 → capacity.toNat ≤ 2 ^ s.params.log2MaxBytes → exec (.config fid true capacity k) s = .next t →
      ∀ (fd : FilterId) (bd bs : Bank), t.holdsBank (bankOf fd) bd → t.bank? (bankOf fid) = some bs →
        bd.bitlen = bs.bitlen → bd.k = bs.k → exec (.merge fd fid) t = .next (t.raise t.cur .unsupported))

/-- R39, R271: every command but CONFIG that names an unconfigured bank, as FID or as MERGE's SFID, ends UNCONFIGURED
and writes nothing. -/
def Obligations.UnconfiguredRefused : Prop :=
  ∀ (s : State) (i : Instr), s.idleTurn → i.opcode ≠ .config → (∀ f ∈ namedBanks i, f < s.banks.length) →
    (∀ f ∈ namedBanks i, s.configPending f = false) → (∃ f ∈ namedBanks i, configured s f = false) →
    exec i s = .next (s.raise s.cur .unconfigured)

/-- R273 step 5: a bank the engine does not have, before every later check. -/
def Obligations.BadFilterIdRefused : Prop :=
  ∀ (s : State) (i : Instr), s.idleTurn →
    (∃ f ∈ namedBanks i, s.banks.length ≤ f) → exec i s = .next (s.raise s.cur .badFilterId)

/-- R211, R213: MERGE's preconditions, in their order, and that a refused MERGE writes nothing. -/
def Obligations.MergePreconditions : Prop :=
  ∀ (s : State) (fid sfid : FilterId) (bd bs : Bank),
    s.idleTurn → s.holdsBank (bankOf fid) bd → s.holdsBank (bankOf sfid) bs →
    (bd.bitlen ≠ bs.bitlen ∨ bd.k ≠ bs.k → exec (.merge fid sfid) s = .next (s.raise s.cur .mismatch)) ∧
    (bd.bitlen = bs.bitlen → bd.k = bs.k → bs.conc = true →
      exec (.merge fid sfid) s = .next (s.raise s.cur .unsupported)) ∧
    (s.raise s.cur .mismatch).banks = s.banks ∧ (s.raise s.cur .unsupported).banks = s.banks

/-- R272: a command whose response is an error has written nothing: no bank register, storage byte, COUNT or guard
field. -/
def Obligations.ErrorsWriteNothing : Prop :=
  ∀ (s t : State) (i : Instr) (port port' : Port) (r : Response),
    s.port? s.cur = some port → port.inFlight = none → exec i s = .next t →
    t.port? s.cur = some port' → port'.delivered = port.delivered ++ [r] → r.status ≠ .ok →
    r.result = 0 ∧ t = s.raise s.cur r.status ∧ t.banks = s.banks

/-! ### Waiting -/

/-- R45: a BUSY port accepts no request; the request waits at the host, behind those offered before. -/
def Obligations.BusyPortTakesNothing : Prop :=
  ∀ (s : State) (i : Instr) (port : Port) (c : InFlight), s.port? s.cur = some port → port.inFlight = some c →
    ∃ t, exec i s = .next t ∧ t.banks = s.banks ∧
      t.port? s.cur = some { port with queue := port.queue ++ [encode i] } ∧
      acceptMove s.cur s = s

/-- R255: a command that names a bank with `config_pending` waits at its admission; a CONFIG whose bank an admitted,
unanswered command names waits at its atomic step with `config_pending` set. -/
def Obligations.InterlockHolds : Prop :=
  (∀ (s : State) (i : Instr), s.idleTurn → packetCheck s i = none →
    (∃ f ∈ namedBanks i, s.configPending f = true) →
    exec i s = .next (s.park s.cur (InFlight.accepted (encode i)))) ∧
  (∀ (s : State) (fid : FilterId) (conc : Bool) (capacity : Word64) (k : Word32),
    s.idleTurn → packetCheck s (.config fid conc capacity k) = none →
    s.configPending (bankOf fid) = false → s.othersName s.cur (bankOf fid) = true →
    exec (.config fid conc capacity k) s = .next ((s.setPending (bankOf fid) true).park s.cur
      { request := encode (.config fid conc capacity k), admitted := true, latch := Latch.start,
        todo := [.configure (bankOf fid) capacity k conc, .respond .ok (.const 0)] }))

/-- R90: on a bank with CONC = 1 a writing command (a MERGE that R211 accepts, with that bank as its destination,
included) waits while the lock is held at all, a read-only one while it is held exclusively, and the port is in the
guard's waiting set. -/
def Obligations.GuardMakesWait : Prop :=
  ∀ (s : State) (i : Instr) (b : Bank), s.idleTurn →
    s.bank? (bankOf i.fid) = some b → b.cfg = true → b.conc = true → b.guard.configPending = false →
    (i.opcode = .merge → ∃ bs, s.bank? (bankOf i.sfid) = some bs ∧ bs.cfg = true ∧ bs.guard.configPending = false ∧
      b.bitlen = bs.bitlen ∧ b.k = bs.k ∧ bs.conc = false) →
    (((isInsertion i = true ∨ i.opcode = .reset ∨ i.opcode = .merge) ∧
        (b.guard.writer ≠ none ∨ b.guard.readers ≠ [])) ∨
      (isReading i = true ∧ b.guard.writer ≠ none)) →
    ∃ t b', exec i s = .next t ∧ t.bank? (bankOf i.fid) = some b' ∧
      b' = { b with guard := { b.guard with waiting := insertPort s.cur b.guard.waiting } } ∧
      (∃ c, t.busyWith s.cur c ∧ c.admitted = true ∧ c.todo = program s.params b i) ∧
      ∀ g, g ≠ bankOf i.fid → t.bank? g = s.bank? g

/-! ### Frames -/

/-- R43, R44, R53: whatever a command does, it leaves the parameters, the schedule, every other port and every bank
but the one its FID names as they were. -/
def Obligations.CommandFrame : Prop :=
  ∀ (s t : State) (i : Instr), exec i s = .next t →
    t.params = s.params ∧ t.cur = s.cur ∧ t.agenda = s.agenda ∧
    t.banks.length = s.banks.length ∧ t.ports.length = s.ports.length ∧
    (∀ q, q ≠ s.cur → t.port? q = s.port? q) ∧ (∀ f, f ≠ bankOf i.fid → t.bank? f = s.bank? f)

/-- R40, R41, R43, R72: in the bank its FID names, every command but CONFIG leaves CFG, CONC, LOG2LEN, BITLEN and K;
every one but ADD, ADDB, RESET and CONFIG leaves COUNT; every command leaves the guard's writer and, in its sets, every
other port; and every byte the command does not store to reads as before. -/
def Obligations.BankFrame : Prop :=
  ∀ (s t : State) (i : Instr) (b b' : Bank), exec i s = .next t →
    s.bank? (bankOf i.fid) = some b → t.bank? (bankOf i.fid) = some b' →
    (i.opcode ≠ .config → b'.cfg = b.cfg ∧ b'.conc = b.conc ∧ b'.log2len = b.log2len ∧ b'.bitlen = b.bitlen ∧
      b'.k = b.k ∧ b'.guard.configPending = b.guard.configPending) ∧
    (isInsertion i = false → isClearing i = false → b'.count = b.count) ∧
    b'.guard.writer = b.guard.writer ∧
    (∀ q, q ≠ s.cur → ((q ∈ b'.guard.readers ↔ q ∈ b.guard.readers) ∧ (q ∈ b'.guard.waiting ↔ q ∈ b.guard.waiting))) ∧
    (∀ j, ¬ storesTo s.params b i j → Memory.read b'.storage j = Memory.read b.storage j)

/-- R42: a set bit stays set under every command but RESET and CONFIG of its bank. -/
def Obligations.SetBitsStaySet : Prop :=
  ∀ (s t : State) (i : Instr) (f : Nat) (b b' : Bank), s.StorageInv → exec i s = .next t →
    s.bank? f = some b → t.bank? f = some b' → ¬ (isClearing i = true ∧ bankOf i.fid = f) →
    ∀ j o, (Memory.read b.storage j).getLsbD o = true → (Memory.read b'.storage j).getLsbD o = true

/-! ### Properties of the commands -/

/-- R165: exactly one increment per key inserted, whatever the bits were. -/
def Obligations.CountPerKey : Prop :=
  ∀ (s : State) (i : Instr) (b : Bank), isInsertion i = true → s.readyToWrite (bankOf i.fid) b →
    ∃ t b', exec i s = .next t ∧ t.bank? (bankOf i.fid) = some b' ∧
      b'.count = b.count + BitVec.ofNat 64 (insertedKeys i).length

/-- R166: adding a key again, with any commands but RESET and CONFIG of the bank in between, changes no storage byte
and counts once more, so TEST of every key answers as before. -/
def Obligations.AddIdempotent : Prop :=
  ∀ (s t u : State) (fid : FilterId) (key : List Byte) (b bu : Bank) (p : Nat), s.StorageInv →
    s.readyToWrite (bankOf fid) b → exec (.add fid key) s = .next t → RunWithoutClearing (bankOf fid) t u →
    (u.turn p).readyToWrite (bankOf fid) bu →
    exec (.add fid key) (u.turn p) = .next ((u.turn p).answered (bankOf fid) { bu with count := bu.count + 1 } 0) ∧
      ∀ key', testResult u.params { bu with count := bu.count + 1 } key' = testResult u.params bu key'

/-- R174: a batch leaves the bank as the ADDs of its elements in the same order do, COUNT rises by its length, and the
bits do not depend on the order. -/
def Obligations.BatchEquivalence : Prop :=
  ∀ (s : State) (fid : FilterId) (keys keys' : List (List Byte)) (b : Bank), s.readyToWrite (bankOf fid) b →
    Memory.wf b.storage → keys.Perm keys' →
    ∃ t u v b₁ b₂, exec (.addb fid keys) s = .next t ∧ t.bank? (bankOf fid) = some b₁ ∧
      execAddEach fid keys s = some u ∧ u.bank? (bankOf fid) = some b₁ ∧
      b₁.count = b.count + BitVec.ofNat 64 keys.length ∧
      exec (.addb fid keys') s = .next v ∧ v.bank? (bankOf fid) = some b₂ ∧ b₂.storage = b₁.storage

/-- R186: no false negatives: a key inserted by any command, then any commands one after another without RESET or
CONFIG of the bank, then any TEST form of the same key, answers 1. -/
def Obligations.NoFalseNegatives : Prop :=
  ∀ (s t u : State) (i j : Instr) (key : List Byte) (b bu : Bank) (p : Nat), s.StorageInv →
    s.readyToWrite (bankOf i.fid) b → key ∈ insertedKeys i → exec i s = .next t →
    RunWithoutClearing (bankOf i.fid) t u →
    j.fid = i.fid → testedKey j = some key → (u.turn p).readyToRead (bankOf i.fid) bu →
    exec j (u.turn p) = .next ((u.turn p).deliver p (Response.success 1))

/-- R221: after a RESET, and any commands none of which writes the bank, every TEST form answers 0 for every key and
SIZE answers 0. -/
def Obligations.ResetClears : Prop :=
  ∀ (s t u : State) (fid : FilterId) (b bu : Bank) (p : Nat), s.StorageInv → s.readyToWrite (bankOf fid) b →
    exec (.reset fid) s = .next t → RunWithoutWriting (bankOf fid) t u → (u.turn p).readyToRead (bankOf fid) bu →
    (∀ (j : Instr) (key : List Byte), j.fid = fid → testedKey j = some key →
      exec j (u.turn p) = .next ((u.turn p).deliver p (Response.success 0))) ∧
    exec (.size fid) (u.turn p) = .next ((u.turn p).deliver p (Response.success 0))

/-- R214: after a MERGE every bit of either bank is set in the destination, the source keeps its own, and a key that
tested 1 in either tests 1 in the destination. -/
def Obligations.MergeMonotone : Prop :=
  ∀ (s : State) (fid sfid : FilterId) (bd bs : Bank),
    s.readyToWrite (bankOf fid) bd → s.holdsBank (bankOf sfid) bs → Memory.wf bd.storage →
    bd.bitlen = bs.bitlen → bd.k = bs.k → bs.conc = false →
    ∃ t bd' bs', exec (.merge fid sfid) s = .next t ∧ t.bank? (bankOf fid) = some bd' ∧
      t.bank? (bankOf sfid) = some bs' ∧
      (∀ position, (bd.bit position = true ∨ bs.bit position = true → bd'.bit position = true) ∧
        (bs.bit position = true → bs'.bit position = true)) ∧
      (∀ key, bd.testKey s.params key = true ∨ bs.testKey s.params key = true → bd'.testKey t.params key = true)

/-- R215: a self-merge ends UNSUPPORTED where CONC is 1, and changes no bit and no register where it is 0. -/
def Obligations.SelfMerge : Prop :=
  ∀ (s : State) (fid : FilterId) (b : Bank), s.idleTurn → s.holdsBank (bankOf fid) b → Memory.wf b.storage →
    (b.conc = true → exec (.merge fid fid) s = .next (s.raise s.cur .unsupported)) ∧
    (b.conc = false → exec (.merge fid fid) s = .next (s.answered (bankOf fid) b 0))

/-- R231: CAP after a CONFIG that was accepted answers the smallest power of two that is at least the requested
capacity. -/
def Obligations.CapIsPowerOfTwo : Prop :=
  ∀ (s : State) (fid : FilterId) (conc : Bool) (capacity : Word64) (k : Word32) (b : Bank),
    s.idleTurn → s.bank? (bankOf fid) = some b → b.guard = Guard.free →
    s.othersName s.cur (bankOf fid) = false → s.params.log2MaxBytes ≤ 61 →
    1 ≤ capacity.toNat → k ≠ 0 → capacity.toNat ≤ 2 ^ s.params.log2MaxBytes →
    ∃ t r, exec (.config fid conc capacity k) s = .next t ∧
      exec (.cap fid) t = .next (t.deliver t.cur (Response.success r)) ∧
      (∃ l, r.toNat = 2 ^ l) ∧ capacity.toNat ≤ r.toNat ∧ ∀ l, capacity.toNat ≤ 2 ^ l → r.toNat ≤ 2 ^ l

/-- R82: SetBit is idempotent, and TEST, CAP, SIZE and FPR change no bank and answer the same when repeated. -/
def Obligations.ReadsRepeat : Prop :=
  (∀ (b : Bank) (position : Word64), Memory.wf b.storage →
    (b.setBit position).setBit position = b.setBit position) ∧
  (∀ (s : State) (i : Instr) (b : Bank), isReading i = true → s.readyToRead (bankOf i.fid) b →
    ∃ r, exec i s = .next (s.deliver s.cur (Response.success r)) ∧ (s.deliver s.cur (Response.success r)).banks = s.banks ∧
      exec i (s.deliver s.cur (Response.success r)) =
        .next ((s.deliver s.cur (Response.success r)).deliver s.cur (Response.success r)))

/-- R237 items 1 to 4, through the FPR command: its RESULT is a binary64 number in [0, 1], is +0.0 where COUNT is 0,
and for equal K and BITLEN is the same for equal COUNT and does not fall as COUNT rises. -/
def Obligations.FprEstimate : Prop :=
  ∀ (s s' : State) (fid fid' : FilterId) (b b' : Bank), s.readyToRead (bankOf fid) b →
    s'.readyToRead (bankOf fid') b' → b'.k = b.k → b'.bitlen = b.bitlen → b.count ≤ b'.count →
    ∃ r r', exec (.fpr fid) s = .next (s.deliver s.cur (Response.success r)) ∧
      exec (.fpr fid') s' = .next (s'.deliver s'.cur (Response.success r')) ∧
      r ≤ 0x3FF0000000000000#64 ∧ r' ≤ 0x3FF0000000000000#64 ∧ (b.count = 0 → r = 0) ∧
      (b.count = b'.count → r = r') ∧ r ≤ r'

/-! ### Micro-steps -/

/-- R185: a TEST whose first clear bit is that of probe `j` reads exactly `j + 1` bytes, and one that finds none reads
all `n` of them. -/
def Obligations.TestReadsUntilClear : Prop :=
  ∀ (s : State) (p f n : Nat) (h : HashQuad) (b : Bank) (request : List Byte) (l : Latch) (answer : Answer),
    s.bank? f = some b → b.legal s.params.log2MaxBytes → l.hit = true →
    (∀ j < n, (∀ i < j, b.bit (probePosition h i) = true) → b.bit (probePosition h j) = false →
      drive (j + 1) p ⟨request, true, l, testBitOps f h 0 n ++ [.respond .ok answer]⟩ s =
        .moved ⟨request, true, { l with hit := false }, [.respond .ok answer]⟩ s) ∧
    ((∀ i < n, b.bit (probePosition h i) = true) →
      drive n p ⟨request, true, l, testBitOps f h 0 n ++ [.respond .ok answer]⟩ s =
        .moved ⟨request, true, l, [.respond .ok answer]⟩ s)

/-- R96, R324: every micro-step after admission shortens what remains of a command, so as many micro-steps as remain
end in its response or in one that is not enabled. -/
def Obligations.CommandsAreFinite : Prop :=
  ∀ (p : Nat) (c : InFlight) (s : State), Micro.admitStep ∉ c.todo →
    (∀ c' s', advance p c s = .moved c' s' → c'.todo.length < c.todo.length) ∧
    (∀ status answer, c.todo.getLast? = some (.respond status answer) →
      ∀ c' s', drive c.todo.length p c s ≠ .moved c' s')

/-- R89: on a bank with CONC = 0 a SetBit can be lost: two ports at SetBits of one slot both read before either
writes, and the byte ends without the earlier writer's bit where that bit was clear. -/
def Obligations.RaceLosesABit : Prop :=
  ∀ (s : State) (p q f i j : Nat) (h g : HashQuad) (b : Bank) (cp cq : InFlight) (rp rq : List Micro),
    p ≠ q → s.bank? f = some b → b.legal s.params.log2MaxBytes → b.conc = false → Memory.wf b.storage →
    s.busyWith p cp → s.busyWith q cq →
    cp.todo = .setRead f h i :: .setWrite f h i :: rp → cq.todo = .setRead f g j :: .setWrite f g j :: rq →
    slotOf b.bitlen (probePosition h i) = slotOf b.bitlen (probePosition g j) →
    offsetOf (probePosition h i) ≠ offsetOf (probePosition g j) → b.bit (probePosition h i) = false →
    ∃ t b', Host.Core.run Sys2Proof.core 4 { s with agenda := [.micro p, .micro q, .micro p, .micro q] } = .next t ∧
      t.bank? f = some b' ∧ b'.bit (probePosition h i) = false ∧ b'.bit (probePosition g j) = true

/-- R86, R87: a command run with no other port moving is one of the orders of micro-steps R87 admits: it ends where
accepting the request and taking its micro-steps one at a time ends. -/
def Obligations.CommandIsItsMicroSteps : Prop :=
  ∀ (s : State) (p : Nat) (rest : List Move) (port : Port) (packet : List Byte) (queue : List (List Byte)),
    s.agenda = .command p :: rest → s.port? p = some port → port.inFlight = none → port.queue = packet :: queue →
    ∃ n, Host.Core.run Sys2Proof.core (n + 1)
      { s with agenda := .accept p :: (List.replicate n (.micro p) ++ rest) } = step s

/-! ### Steps and invariants -/

/-- R45, R122: where it is an IDLE port's turn and its next request decodes to a command, the step is that command's
meaning, with the request taken and the agenda moved on; where it decodes to an error, the step is the error's
response. The last clause rests on no rule of the spec, since R87 fixes no order: that an empty agenda gives the turn to
the lowest-numbered port that can move is the model's choice (DESIGN CHOICE, log entry 4). -/
def Obligations.StepRunsDecoded : Prop :=
  (∀ (s : State) (p : Nat) (rest : List Move) (port : Port) (packet : List Byte) (queue : List (List Byte)),
    s.agenda = .command p :: rest → s.port? p = some port → port.inFlight = none → port.queue = packet :: queue →
    (∀ i, decode packet = .ok i →
      step s = exec i (({ s with agenda := rest, cur := p } : State).takeRequest p)) ∧
    (∀ e, decode packet = .error e →
      step s = .next ((({ s with agenda := rest, cur := p } : State).takeRequest p).raise p e))) ∧
  (∀ (s : State) (p : Nat), s.agenda = [] → p < s.ports.length → canMove s p = true →
    (∀ q < p, canMove s q = false) → step s = step { s with agenda := [.command p] })

/-- Log entry 7: the request that `withFetchWord` places is what the next step runs. -/
def Obligations.FetchedWordRuns : Prop :=
  ∀ (s : State) (nbits w : Nat) (i : Instr), decodeTableWord nbits w = some i → 0 < s.ports.length →
    ∃ s', step (s.withFetchWord nbits w) = exec i s' ∧ s'.idleTurn ∧ s'.banks = s.banks ∧ s'.params = s.params ∧
      s'.agenda = s.agenda ∧ ∀ q, q ≠ s'.cur → s'.port? q = s.port? q

/-- R41, and the canonical form of storage: every step keeps it. -/
def Obligations.StorageStaysCanonical : Prop :=
  ∀ s t : State, s.StorageInv → step s = .next t → t.StorageInv

/-- R36, R40, R85: the registers of configured banks stay legal, and so does what remains of every command in
flight. -/
def Obligations.RegistersStayLegal : Prop :=
  ∀ s t : State, s.RegisterInv → step s = .next t → t.RegisterInv

/-- 93_implementation_defined.md, R277: no step from a state with legal registers faults or is refused. -/
def Obligations.NoStepStops : Prop :=
  ∀ s : State, s.RegisterInv → ∃ t, step s = .next t

/-- R46: a writer excludes readers, from every state in which it does. -/
def Obligations.WriterExcludesReaders : Prop :=
  ∀ s t : State, s.GuardInv → step s = .next t → t.GuardInv

/-- R46, R90, R91, R255: locks, waiting sets and interlock bits stay those of the commands in flight: a port is in
`guard[f].waiting` exactly while its command's next micro-step acquires `f`'s lock, so every port whose acquisition is
not enabled is in it. That a port whose acquisition is enabled is in it too, until it acquires, is the model's choice
(log entry 6). -/
def Obligations.LocksMatchCommands : Prop :=
  ∀ s t : State, s.RegisterInv → s.GuardInv → s.LockInv → step s = .next t → t.LockInv

/-- R88, R167, R175: while port `p` holds the exclusive lock of a bank with CONC = 1, no move of another port changes
that bank's registers, COUNT or storage. -/
def Obligations.LockedBankIsSafe : Prop :=
  ∀ (s t : State) (p q f : Nat) (b : Bank) (rest : List Move), s.RegisterInv → s.GuardInv → s.LockInv →
    s.bank? f = some b → b.conc = true → b.guard.writer = some p → q ≠ p →
    (s.agenda = .micro q :: rest ∨ s.agenda = .command q :: rest ∨ s.agenda = .accept q :: rest) →
    step s = .next t →
    ∃ b', t.bank? f = some b' ∧ b' = { b with guard := b'.guard } ∧ b'.guard.writer = some p

/-- R93, R96: no deadlock: where some port is BUSY, some BUSY port's next micro-step is enabled. -/
def Obligations.NoDeadlock : Prop :=
  ∀ s : State, s.RegisterInv → s.GuardInv → s.LockInv → (∃ p c, s.busyWith p c) →
    ∃ p c, s.busyWith p c ∧ ∀ c' s', advance p c s ≠ .blocked c' s'

/-- R96, R331: from every legal state the machine's own steps come to the end of the run: every port IDLE, no request
left, and a state that further steps keep. The agenda is finite and the model's default order (log entries 4, 10) then
lets every port that can move do so. -/
def Obligations.RunsComeToRest : Prop :=
  ∀ s : State, s.RegisterInv → s.GuardInv → s.LockInv →
    ∃ n t, Host.Core.run Sys2Proof.core n s = .next t ∧ t.agenda = [] ∧ t.atRest ∧ step t = .next t

/-- R96 with R330 and R90: under every weakly fair schedule in which the guard is starvation-free, a command in flight
is answered, its port BUSY with it until then, unless power-on reset comes. Premise beside R96's: from some move on no
CONFIG is accepted, since weak fairness lets a host that sends CONFIG of a bank without end keep another command from its
admission, which is enabled only in between (log entry 10). -/
def Obligations.FairSchedulesAnswer : Prop :=
  ∀ (s : State) (σ : Schedule) (p n : Nat) (c : InFlight), s.RegisterInv → s.GuardInv → s.LockInv →
    σ.fair s → σ.configsEnd s → (σ.stateAt s n).busyWith p c → (∀ m, n ≤ m → σ m ≠ .powerOn) →
    ∃ m port r, n ≤ m ∧ (∀ k, n ≤ k → k ≤ m → ∃ c', (σ.stateAt s k).busyWith p c' ∧ c'.request = c.request) ∧
      (σ.stateAt s m).port? p = some port ∧
      (σ.stateAt s (m + 1)).port? p = some { port with inFlight := none, delivered := port.delivered ++ [r] }

/-- R49, R50, R51, R311: the state after power-on reset satisfies every invariant, for all parameters in range. -/
def Obligations.ResetSatisfiesInvariants : Prop :=
  ∀ (params : Params) (numFilters numPorts : Nat), params.log2MaxBytes ≤ 61 →
    (State.resetWith params numFilters numPorts).StorageInv ∧
    (State.resetWith params numFilters numPorts).RegisterInv ∧
    (State.resetWith params numFilters numPorts).GuardInv ∧
    (State.resetWith params numFilters numPorts).LockInv

/-- R51, with the register values of R49: what power-on reset leaves, at the start and whenever the platform drives
it (R310). -/
def Obligations.PowerOnReset : Prop :=
  (∀ b ∈ State.reset.banks, b.cfg = false ∧ b.conc = false ∧ b.log2len = 0 ∧ b.bitlen = 0 ∧ b.k = 0 ∧ b.count = 0 ∧
    b.guard = { writer := none, readers := [], waiting := [], configPending := false }) ∧
  (∀ port ∈ State.reset.ports, port.inFlight = none) ∧
  (∀ (s : State) (rest : List Move), s.agenda = .powerOn :: rest →
    ∃ t, step s = .next t ∧ t.banks.length = s.banks.length ∧ t.ports.length = s.ports.length ∧
      (∀ b ∈ t.banks, b.cfg = false ∧ b.conc = false ∧ b.log2len = 0 ∧ b.bitlen = 0 ∧ b.k = 0 ∧ b.count = 0 ∧
        b.guard = { writer := none, readers := [], waiting := [], configPending := false }) ∧
      (∀ port ∈ t.ports, port.inFlight = none))
end

