-- ==== Sys2Proof/Laws/Memory.lean ====
section
/-! SUPPORT. Storage as data: read after write, and that every memory operation keeps the canonical form. -/

namespace Sys2Proof.Machine

@[simp] theorem Memory.read_nil (j : Nat) : Memory.read [] j = Memory.unlisted := rfl

/-- A byte that no cell lists reads as an unlisted byte. -/
theorem Memory.read_of_not_listed {m : List Host.Cell} {j : Nat} (h : ∀ c ∈ m, c.1 ≠ j) :
    Memory.read m j = Memory.unlisted := by
  induction m with
  | nil => rfl
  | cons c m ih =>
    simp only [Memory.read]
    rw [if_neg (h c (by simp)), ih (fun d hd => h d (by simp [hd]))]

/-- A listed byte of a canonical storage reads as its cell says. -/
theorem Memory.read_of_mem {m : List Host.Cell} (hm : Memory.wf m) {c : Host.Cell} (hc : c ∈ m) :
    Memory.read m c.1 = c.2 := by
  obtain ⟨hs, -⟩ := hm
  induction m with
  | nil => simp at hc
  | cons d m ih =>
    rw [List.pairwise_cons] at hs
    rcases List.mem_cons.1 hc with rfl | h
    · simp [Memory.read]
    · have := hs.1 c h
      simp only [Memory.read]
      rw [if_neg (by omega), ih h hs.2]

/-- A write leaves every other byte alone. -/
theorem Memory.read_write_ne {m : List Host.Cell} {i j : Nat} (v : Byte) (h : i ≠ j) :
    Memory.read (Memory.write m i v) j = Memory.read m j := by
  induction m with
  | nil => simp only [Memory.write, Memory.put]; split <;> simp [Memory.read, h]
  | cons c m ih =>
    obtain ⟨a, b⟩ := c
    simp only [Memory.write, Memory.put]
    repeat' split
    all_goals simp_all [Memory.read]

/-- A read after a write to the same byte gives the value written. -/
theorem Memory.read_write_eq {m : List Host.Cell} (hm : m.Pairwise (fun x y => x.1 < y.1)) (i : Nat) (v : Byte) :
    Memory.read (Memory.write m i v) i = v := by
  induction m with
  | nil => simp only [Memory.write, Memory.put]; split <;> simp_all [Memory.read]
  | cons c m ih =>
    obtain ⟨a, b⟩ := c
    rw [List.pairwise_cons] at hm
    have hrest : i ≤ a → ∀ d ∈ m, d.1 ≠ i := fun h d hd => by have := hm.1 d hd; simp at this; omega
    simp only [Memory.write, Memory.put]
    split
    · rename_i hlt
      split
      · rename_i hv
        subst hv
        simp only [Memory.read]
        rw [if_neg (by omega), Memory.read_of_not_listed (hrest (by omega))]
      · simp [Memory.read]
    · split
      · rename_i heq
        split
        · rename_i hv
          rw [hv, Memory.read_of_not_listed (hrest (by omega))]
        · simp [Memory.read]
      · rename_i h1 h2
        simp only [Memory.read]
        rw [if_neg (fun h => h2 h.symm), ih hm.2]

/-- Every cell of a storage after a write was there before or is the byte written. -/
theorem Memory.mem_write {m : List Host.Cell} {i : Nat} {v : Byte} {c : Host.Cell} (h : c ∈ Memory.write m i v) :
    c ∈ m ∨ (c = (i, v) ∧ v ≠ Memory.unlisted) := by
  induction m with
  | nil => simp only [Memory.write, Memory.put] at h; split at h <;> simp_all
  | cons d m ih =>
    obtain ⟨a, b⟩ := d
    simp only [Memory.write, Memory.put] at h
    repeat' split at h
    all_goals simp only [List.mem_cons] at h ⊢
    all_goals tauto

/-- A write keeps the canonical form. -/
theorem Memory.wf_write {m : List Host.Cell} (hm : Memory.wf m) (i : Nat) (v : Byte) :
    Memory.wf (Memory.write m i v) := by
  obtain ⟨hs, hz⟩ := hm
  refine ⟨?_, ?_⟩
  · clear hz
    induction m with
    | nil => simp only [Memory.write, Memory.put]; split <;> simp
    | cons d m ih =>
      obtain ⟨a, b⟩ := d
      rw [List.pairwise_cons] at hs
      have hput : ∀ l : List Host.Cell, l.Pairwise (fun x y => x.1 < y.1) → (∀ c ∈ l, i < c.1) →
          (Memory.put i v l).Pairwise (fun x y => x.1 < y.1) := by
        intro l hl hi
        unfold Memory.put
        split
        · exact hl
        · rw [List.pairwise_cons]; exact ⟨hi, hl⟩
      simp only [Memory.write]
      split
      · rename_i hlt
        apply hput _ (List.pairwise_cons.2 hs)
        intro c hc
        rcases List.mem_cons.1 hc with rfl | hc
        · exact hlt
        · have := hs.1 c hc; simp at this; omega
      · split
        · rename_i heq
          exact hput _ hs.2 (fun c hc => heq ▸ hs.1 c hc)
        · rename_i h1 h2
          rw [List.pairwise_cons]
          refine ⟨fun c hc => ?_, ih hs.2⟩
          rcases Memory.mem_write hc with hc | ⟨rfl, -⟩
          · exact hs.1 c hc
          · simp; omega
  · intro c hc
    rcases Memory.mem_write hc with h | ⟨rfl, h⟩
    · exact hz c h
    · exact h

/-- Zeroing keeps the canonical form. -/
theorem Memory.wf_zeroBelow {m : List Host.Cell} (hm : Memory.wf m) (n : Nat) : Memory.wf (Memory.zeroBelow m n) := by
  obtain ⟨hs, hz⟩ := hm
  exact ⟨hs.filter _, fun c hc => hz c (List.mem_of_mem_filter hc)⟩

/-- What a byte reads as after zeroing bytes 0 to `n - 1`. -/
theorem Memory.read_zeroBelow (m : List Host.Cell) (n j : Nat) :
    Memory.read (Memory.zeroBelow m n) j = if j < n then 0 else Memory.read m j := by
  induction m with
  | nil => simp [Memory.zeroBelow, Memory.read, Memory.unlisted]
  | cons c m ih =>
    obtain ⟨a, b⟩ := c
    simp only [Memory.zeroBelow, List.filter_cons] at ih ⊢
    by_cases ha : n ≤ a
    · simp only [ha, decide_true, if_true, Memory.read, ih]
      by_cases haj : a = j
      · simp [haj, show ¬ j < n by omega]
      · simp [haj]
    · simp only [ha, decide_false, Memory.read, Bool.false_eq_true, if_false]
      by_cases haj : a = j
      · simp [ih, show j < n by omega]
      · simp [ih, haj]

/-- Two canonical storages that read alike are equal. -/
theorem Memory.ext {m m' : List Host.Cell} (hm : Memory.wf m) (hm' : Memory.wf m')
    (h : ∀ j, Memory.read m j = Memory.read m' j) : m = m' := by
  have key : ∀ {l l' : List Host.Cell}, Memory.wf l → Memory.wf l' → (∀ j, Memory.read l j = Memory.read l' j) →
      ∀ c ∈ l, c ∈ l' := by
    intro l l' hl hl' hr c hc
    have h1 := Memory.read_of_mem hl hc
    by_contra hn
    by_cases hex : ∃ d ∈ l', d.1 = c.1
    · obtain ⟨d, hd, hdc⟩ := hex
      have h2 := Memory.read_of_mem hl' hd
      rw [hdc, ← hr, h1] at h2
      exact hn (by rw [show c = d from Prod.ext hdc.symm h2]; exact hd)
    · rw [hr, Memory.read_of_not_listed (fun d hd hdc => hex ⟨d, hd, hdc⟩)] at h1
      exact hl.2 c hc h1.symm
  have hirr : ∀ a b : Host.Cell, a.1 < b.1 → ¬ b.1 < a.1 := fun a b h => by omega
  have hp : m.Perm m' := by
    have nd : ∀ {l : List Host.Cell}, Memory.wf l → l.Nodup := fun hl => hl.1.imp (fun {a b} h e => by subst e; omega)
    exact (List.perm_ext_iff_of_nodup (nd hm) (nd hm')).2
      (fun c => ⟨key hm hm' h c, key hm' hm (fun j => (h j).symm) c⟩)
  exact hp.eq_of_pairwise (fun a b _ _ h1 h2 => absurd h2 (hirr a b h1)) hm.1 hm'.1

end Sys2Proof.Machine
end

