-- ==== Sys2Proof/Laws/State.lean ====
section
/-! SUPPORT. The small lemmas of the state's updates: one per field per update, true by rfl, so that no proof unfolds a
record update. -/

namespace Sys2Proof.Machine

variable (s : State)

@[simp] theorem State.modifyBank_params (f : Nat) (g : Bank → Bank) : (s.modifyBank f g).params = s.params := rfl
@[simp] theorem State.modifyBank_banks (f : Nat) (g : Bank → Bank) : (s.modifyBank f g).banks = s.banks.modify f g := rfl
@[simp] theorem State.modifyBank_ports (f : Nat) (g : Bank → Bank) : (s.modifyBank f g).ports = s.ports := rfl
@[simp] theorem State.modifyBank_cur (f : Nat) (g : Bank → Bank) : (s.modifyBank f g).cur = s.cur := rfl
@[simp] theorem State.modifyBank_agenda (f : Nat) (g : Bank → Bank) : (s.modifyBank f g).agenda = s.agenda := rfl

@[simp] theorem State.modifyPort_params (p : Nat) (g : Port → Port) : (s.modifyPort p g).params = s.params := rfl
@[simp] theorem State.modifyPort_banks (p : Nat) (g : Port → Port) : (s.modifyPort p g).banks = s.banks := rfl
@[simp] theorem State.modifyPort_ports (p : Nat) (g : Port → Port) : (s.modifyPort p g).ports = s.ports.modify p g := rfl
@[simp] theorem State.modifyPort_cur (p : Nat) (g : Port → Port) : (s.modifyPort p g).cur = s.cur := rfl
@[simp] theorem State.modifyPort_agenda (p : Nat) (g : Port → Port) : (s.modifyPort p g).agenda = s.agenda := rfl

@[simp] theorem State.setPending_params (f : Nat) (v : Bool) : (s.setPending f v).params = s.params := rfl
@[simp] theorem State.setPending_ports (f : Nat) (v : Bool) : (s.setPending f v).ports = s.ports := rfl
@[simp] theorem State.setPending_cur (f : Nat) (v : Bool) : (s.setPending f v).cur = s.cur := rfl
@[simp] theorem State.setPending_agenda (f : Nat) (v : Bool) : (s.setPending f v).agenda = s.agenda := rfl

@[simp] theorem State.deliver_params (p : Nat) (r : Response) : (s.deliver p r).params = s.params := rfl
@[simp] theorem State.deliver_banks (p : Nat) (r : Response) : (s.deliver p r).banks = s.banks := rfl
@[simp] theorem State.deliver_cur (p : Nat) (r : Response) : (s.deliver p r).cur = s.cur := rfl
@[simp] theorem State.deliver_agenda (p : Nat) (r : Response) : (s.deliver p r).agenda = s.agenda := rfl

@[simp] theorem State.raise_params (p : Nat) (e : Status) : (s.raise p e).params = s.params := rfl
@[simp] theorem State.raise_banks (p : Nat) (e : Status) : (s.raise p e).banks = s.banks := rfl
@[simp] theorem State.raise_cur (p : Nat) (e : Status) : (s.raise p e).cur = s.cur := rfl
@[simp] theorem State.raise_agenda (p : Nat) (e : Status) : (s.raise p e).agenda = s.agenda := rfl

@[simp] theorem State.park_params (p : Nat) (c : InFlight) : (s.park p c).params = s.params := rfl
@[simp] theorem State.park_banks (p : Nat) (c : InFlight) : (s.park p c).banks = s.banks := rfl
@[simp] theorem State.park_cur (p : Nat) (c : InFlight) : (s.park p c).cur = s.cur := rfl
@[simp] theorem State.park_agenda (p : Nat) (c : InFlight) : (s.park p c).agenda = s.agenda := rfl

@[simp] theorem State.offer_params (p : Nat) (packet : List Byte) : (s.offer p packet).params = s.params := rfl
@[simp] theorem State.offer_banks (p : Nat) (packet : List Byte) : (s.offer p packet).banks = s.banks := rfl
@[simp] theorem State.offer_cur (p : Nat) (packet : List Byte) : (s.offer p packet).cur = s.cur := rfl
@[simp] theorem State.offer_agenda (p : Nat) (packet : List Byte) : (s.offer p packet).agenda = s.agenda := rfl

@[simp] theorem State.takeRequest_params (p : Nat) : (s.takeRequest p).params = s.params := rfl
@[simp] theorem State.takeRequest_banks (p : Nat) : (s.takeRequest p).banks = s.banks := rfl
@[simp] theorem State.takeRequest_cur (p : Nat) : (s.takeRequest p).cur = s.cur := rfl
@[simp] theorem State.takeRequest_agenda (p : Nat) : (s.takeRequest p).agenda = s.agenda := rfl

@[simp] theorem State.turn_params (p : Nat) : (s.turn p).params = s.params := rfl
@[simp] theorem State.turn_banks (p : Nat) : (s.turn p).banks = s.banks := rfl
@[simp] theorem State.turn_ports (p : Nat) : (s.turn p).ports = s.ports := rfl
@[simp] theorem State.turn_cur (p : Nat) : (s.turn p).cur = p := rfl
@[simp] theorem State.turn_agenda (p : Nat) : (s.turn p).agenda = s.agenda := rfl

@[simp] theorem State.powerOn_params : s.powerOn.params = s.params := rfl
@[simp] theorem State.powerOn_cur : s.powerOn.cur = s.cur := rfl
@[simp] theorem State.powerOn_agenda : s.powerOn.agenda = s.agenda := rfl

@[simp] theorem State.reachLock_params (p f : Nat) (conc : Bool) : (s.reachLock p f conc).params = s.params := by
  cases conc <;> rfl
@[simp] theorem State.reachLock_ports (p f : Nat) (conc : Bool) : (s.reachLock p f conc).ports = s.ports := by
  cases conc <;> rfl
@[simp] theorem State.reachLock_cur (p f : Nat) (conc : Bool) : (s.reachLock p f conc).cur = s.cur := by
  cases conc <;> rfl
@[simp] theorem State.reachLock_agenda (p f : Nat) (conc : Bool) : (s.reachLock p f conc).agenda = s.agenda := by
  cases conc <;> rfl

theorem State.setPending_eq (f : Nat) (v : Bool) :
    s.setPending f v = s.modifyBank f (fun b => { b with guard := { b.guard with configPending := v } }) := rfl

theorem State.deliver_eq (p : Nat) (r : Response) :
    s.deliver p r = s.modifyPort p (fun port => { port with inFlight := none, delivered := port.delivered ++ [r] }) := rfl

theorem State.park_eq (p : Nat) (c : InFlight) :
    s.park p c = s.modifyPort p (fun port => { port with inFlight := some c }) := rfl

@[simp] theorem State.bank?_deliver (p : Nat) (r : Response) (f : Nat) : (s.deliver p r).bank? f = s.bank? f := rfl
@[simp] theorem State.bank?_park (p : Nat) (c : InFlight) (f : Nat) : (s.park p c).bank? f = s.bank? f := rfl
@[simp] theorem State.bank?_modifyPort (p : Nat) (g : Port → Port) (f : Nat) :
    (s.modifyPort p g).bank? f = s.bank? f := rfl
@[simp] theorem State.port?_modifyBank (f : Nat) (g : Bank → Bank) (p : Nat) :
    (s.modifyBank f g).port? p = s.port? p := rfl
@[simp] theorem State.physicalBytes_modifyBank (f : Nat) (g : Bank → Bank) :
    (s.modifyBank f g).physicalBytes = s.physicalBytes := rfl
@[simp] theorem State.physicalBytes_modifyPort (p : Nat) (g : Port → Port) :
    (s.modifyPort p g).physicalBytes = s.physicalBytes := rfl

/-- What bank `f'` is after bank `f` was changed. -/
theorem State.bank?_modifyBank (f f' : Nat) (g : Bank → Bank) :
    (s.modifyBank f g).bank? f' = if f = f' then (s.bank? f').map g else s.bank? f' := by
  simp [State.bank?, State.modifyBank, List.getElem?_modify]
  split <;> simp

@[simp] theorem State.bank?_modifyBank_self (f : Nat) (g : Bank → Bank) :
    (s.modifyBank f g).bank? f = (s.bank? f).map g := by simp [State.bank?_modifyBank]

/-- What port `q` is after port `p` was changed. -/
theorem State.port?_modifyPort (p q : Nat) (g : Port → Port) :
    (s.modifyPort p g).port? q = if p = q then (s.port? q).map g else s.port? q := by
  simp [State.port?, State.modifyPort, List.getElem?_modify]
  split <;> simp

/-- Two changes of one bank are one change. -/
theorem State.modifyBank_modifyBank (f : Nat) (g h : Bank → Bank) :
    (s.modifyBank f g).modifyBank f h = s.modifyBank f (h ∘ g) := by
  simp only [State.modifyBank, State.mk.injEq, true_and, and_true]
  apply List.ext_getElem?
  intro j
  simp only [List.getElem?_modify]
  by_cases hj : f = j <;> cases s.banks[j]? <;> simp [hj]

/-- Changing a bank the engine has by a function that gives `b'` on it is putting `b'` there. -/
theorem State.modifyBank_eq_const {f : Nat} {b b' : Bank} {g : Bank → Bank} (hb : s.bank? f = some b)
    (hg : g b = b') : s.modifyBank f g = s.modifyBank f (fun _ => b') := by
  simp only [State.modifyBank, State.mk.injEq, true_and, and_true]
  apply List.ext_getElem?
  intro j
  simp only [List.getElem?_modify]
  by_cases h : f = j
  · subst h
    simp [State.bank?] at hb
    simp [hb, hg]
  · simp [h]

/-- Putting a bank where it already is changes nothing. -/
theorem State.modifyBank_same {f : Nat} {b : Bank} (hb : s.bank? f = some b) :
    s.modifyBank f (fun _ => b) = s := by
  cases s with
  | mk params banks ports cur agenda =>
    simp only [State.modifyBank, State.mk.injEq, true_and, and_true]
    apply List.ext_getElem?
    intro j
    simp only [List.getElem?_modify]
    by_cases h : f = j
    · subst h
      simp [State.bank?] at hb
      simp [hb]
    · simp [h]

/-- A bank change and a port change do not meet. -/
theorem State.modifyBank_modifyPort (f p : Nat) (g : Bank → Bank) (h : Port → Port) :
    (s.modifyBank f g).modifyPort p h = (s.modifyPort p h).modifyBank f g := rfl

end Sys2Proof.Machine
end

