-- ==== Sys2Proof/Laws/Engine.lean ====
section
/-! SUPPORT. What the shared operations of the engine do: the located slot, the micro-steps on a bank that exists, the
loops of R86 run with no other port moving, and the guard around them. -/

namespace Sys2Proof.Machine

/-! ### Bits and slots -/

/-- BITLEN of a bank with legal registers, as a number (R36). -/
theorem bitlen_toNat {L : Nat} {b : Bank} (hb : b.legal L) : b.bitlen.toNat = 2 ^ b.log2len.toNat := by
  obtain ⟨-, hlen, -⟩ := hb
  rw [hlen, BitVec.toNat_shiftLeft, show (1#64).toNat = 1 from rfl, Nat.shiftLeft_eq, one_mul]
  exact Nat.mod_eq_of_lt (Nat.pow_lt_pow_right (by omega) (by have := b.log2len.isLt; omega))

/-- In a bank with legal registers every slot is below BITLEN (R72). -/
theorem slotOf_lt_bitlen {L : Nat} {b : Bank} (hb : b.legal L) (position : Word64) :
    slotOf b.bitlen position < 2 ^ b.log2len.toNat := by
  have hpow := bitlen_toNat hb
  have hpos : 0 < 2 ^ b.log2len.toNat := Nat.two_pow_pos _
  unfold slotOf
  rw [BitVec.toNat_and]
  refine lt_of_le_of_lt Nat.and_le_right ?_
  rw [BitVec.toNat_sub_of_le (by rw [BitVec.le_def, hpow]; exact hpos), hpow]
  exact Nat.sub_lt hpos (by decide)

/-- In a bank with legal registers every slot is a byte that exists (R41, R72). -/
theorem slotOf_lt_physical {L : Nat} {b : Bank} (hb : b.legal L) (position : Word64) :
    slotOf b.bitlen position < 2 ^ L :=
  lt_of_lt_of_le (slotOf_lt_bitlen hb position) (Nat.pow_le_pow_right (by omega) hb.1)

/-! ### Accesses to a bank that exists -/

theorem memRead_ok {s : State} {f j : Nat} {b : Bank} (hb : s.bank? f = some b) (hj : j < s.physicalBytes) :
    memRead s f j = .ok (Memory.read b.storage j) := by simp [memRead, hb, hj]

theorem memWrite_ok {s : State} {f j : Nat} {b : Bank} (v : Byte) (hb : s.bank? f = some b)
    (hj : j < s.physicalBytes) :
    memWrite s f j v = .ok (s.modifyBank f (fun b => { b with storage := Memory.write b.storage j v })) := by
  simp [memWrite, hb, hj]

theorem readCount_ok {s : State} {f : Nat} {b : Bank} (hb : s.bank? f = some b) : readCount s f = .ok b.count := by
  simp [readCount, hb]

theorem writeCount_ok {s : State} {f : Nat} {b : Bank} (v : Word64) (hb : s.bank? f = some b) :
    writeCount s f v = .ok (s.modifyBank f (fun b => { b with count := v })) := by simp [writeCount, hb]

/-- A one-step effect that keeps the registers a loop of R86 reads. -/
structure Bank.SameRegisters (b b' : Bank) : Prop where
  cfg : b'.cfg = b.cfg
  conc : b'.conc = b.conc
  log2len : b'.log2len = b.log2len
  bitlen : b'.bitlen = b.bitlen
  k : b'.k = b.k
  guard : b'.guard = b.guard

theorem Bank.SameRegisters.refl (b : Bank) : b.SameRegisters b := ⟨rfl, rfl, rfl, rfl, rfl, rfl⟩

theorem Bank.SameRegisters.trans {a b c : Bank} (h : a.SameRegisters b) (h' : b.SameRegisters c) :
    a.SameRegisters c :=
  ⟨h'.cfg.trans h.cfg, h'.conc.trans h.conc, h'.log2len.trans h.log2len, h'.bitlen.trans h.bitlen, h'.k.trans h.k,
    h'.guard.trans h.guard⟩

theorem Bank.SameRegisters.legal {L : Nat} {b b' : Bank} (h : b.SameRegisters b') (hb : b.legal L) : b'.legal L := by
  unfold Bank.legal at *
  rw [h.log2len, h.bitlen, h.k]
  exact hb

theorem Bank.setBit_same (b : Bank) (position : Word64) : b.SameRegisters (b.setBit position) :=
  ⟨rfl, rfl, rfl, rfl, rfl, rfl⟩

@[simp] theorem Bank.setBit_count (b : Bank) (position : Word64) : (b.setBit position).count = b.count := rfl

theorem Bank.setBits_same (positions : List Word64) (b : Bank) :
    b.SameRegisters (positions.foldl Bank.setBit b) := by
  induction positions generalizing b with
  | nil => exact .refl b
  | cons q qs ih => exact (b.setBit_same q).trans (ih _)

@[simp] theorem Bank.setBits_count (positions : List Word64) (b : Bank) :
    (positions.foldl Bank.setBit b).count = b.count := by
  induction positions generalizing b with
  | nil => rfl
  | cons q qs ih => simp [ih]

theorem Bank.addKey_same (params : Params) (b : Bank) (key : List Byte) : b.SameRegisters (b.addKey params key) := by
  have h := Bank.setBits_same (probes params key b.k) b
  exact ⟨h.cfg, h.conc, h.log2len, h.bitlen, h.k, h.guard⟩

theorem Bank.addKeys_same (params : Params) (keys : List (List Byte)) (b : Bank) :
    b.SameRegisters (b.addKeys params keys) := by
  induction keys generalizing b with
  | nil => exact .refl b
  | cons key keys ih => exact (b.addKey_same params key).trans (ih _)

/-! ### Driving a command -/

/-- More fuel than a command needs changes nothing. -/
theorem drive_done_mono {n p : Nat} {c : InFlight} {s t : State} (h : drive n p c s = .done t) (m : Nat) :
    drive (n + m) p c s = .done t := by
  induction n generalizing c s with
  | zero => simp [drive] at h
  | succ n ih =>
    rw [show n + 1 + m = (n + m) + 1 by omega]
    simp only [drive] at h ⊢
    cases ha : advance p c s <;> simp_all

theorem drive_succ_moved {n p : Nat} {c c' : InFlight} {s s' : State} (h : advance p c s = .moved c' s') :
    drive (n + 1) p c s = drive n p c' s' := by simp [drive, h]

variable {p f : Nat} {req : List Byte} {adm : Bool} {l : Latch} {rest : List Micro} {s : State} {b : Bank}

/-- SetBit, both micro-steps, on a bank with legal registers (R77). -/
theorem drive_setBit {i : Nat} {h : HashQuad} (n : Nat) (hb : s.bank? f = some b)
    (hl : b.legal s.params.log2MaxBytes) :
    drive (n + 2) p ⟨req, adm, l, .setRead f h i :: .setWrite f h i :: rest⟩ s =
      drive n p ⟨req, adm, { l with byte := Memory.read b.storage (slotOf b.bitlen (probePosition h i)) }, rest⟩
        (s.modifyBank f (fun _ => b.setBit (probePosition h i))) := by
  have hj : slotOf b.bitlen (probePosition h i) < s.physicalBytes := slotOf_lt_physical hl (probePosition h i)
  simp only [drive, advance, stepSetRead, readProbe, hb, memRead_ok hb hj, stepSetWrite, memWrite_ok _ hb hj]
  rw [s.modifyBank_eq_const hb (b' := b.setBit (probePosition h i)) rfl]

/-- The SetBit loop (R86, R160): every probe's bit is set; only the latch's byte differs after it. -/
theorem drive_setBitOps {h : HashQuad} (n i m : Nat) (hb : s.bank? f = some b)
    (hl : b.legal s.params.log2MaxBytes) :
    ∃ v, drive ((setBitOps f h i n).length + m) p ⟨req, adm, l, setBitOps f h i n ++ rest⟩ s =
      drive m p ⟨req, adm, { l with byte := v }, rest⟩
        (s.modifyBank f (fun _ => (probesFrom h i n).foldl Bank.setBit b)) := by
  induction n generalizing i b s l with
  | zero =>
    refine ⟨l.byte, ?_⟩
    simp [setBitOps, probesFrom, s.modifyBank_same hb]
  | succ n ih =>
    have hb' : (s.modifyBank f (fun _ => b.setBit (probePosition h i))).bank? f
        = some (b.setBit (probePosition h i)) := by simp [hb]
    obtain ⟨v, hv⟩ := ih (i := i + 1)
      (l := { l with byte := Memory.read b.storage (slotOf b.bitlen (probePosition h i)) }) hb'
      ((b.setBit_same _).legal hl)
    refine ⟨v, ?_⟩
    simp only [setBitOps, List.length_cons, List.cons_append, probesFrom, List.foldl_cons]
    rw [show (setBitOps f h (i + 1) n).length + 1 + 1 + m = ((setBitOps f h (i + 1) n).length + m) + 2 by omega,
      drive_setBit _ hb hl, hv, State.modifyBank_modifyBank]
    rfl

/-- `add_key` (R160). -/
theorem drive_addKeyOps (key : List Byte) (m : Nat) (hb : s.bank? f = some b)
    (hl : b.legal s.params.log2MaxBytes) :
    ∃ l', drive ((addKeyOps f b.k (baseHash s.params key)).length + m) p
        ⟨req, adm, l, addKeyOps f b.k (baseHash s.params key) ++ rest⟩ s =
      drive m p ⟨req, adm, l', rest⟩ (s.modifyBank f (fun _ => b.addKey s.params key)) := by
  obtain ⟨v, hv⟩ := drive_setBitOps (p := p) (req := req) (adm := adm) (l := l)
    (rest := .readCount f :: .writeCountSucc f :: rest) (h := baseHash s.params key) b.k.toNat 0 (m + 2) hb hl
  have hcount := Bank.setBits_count (probesFrom (baseHash s.params key) 0 b.k.toNat) b
  refine ⟨{ l with byte := v, count := b.count }, ?_⟩
  simp only [addKeyOps, List.length_append, List.append_assoc, List.cons_append, List.nil_append,
    List.length_cons, List.length_nil]
  rw [show (setBitOps f (baseHash s.params key) 0 b.k.toNat).length + (0 + 1 + 1) + m
    = (setBitOps f (baseHash s.params key) 0 b.k.toNat).length + (m + 2) by omega, hv]
  have h1 : (s.modifyBank f (fun _ => (probesFrom (baseHash s.params key) 0 b.k.toNat).foldl Bank.setBit b)).bank? f
      = some ((probesFrom (baseHash s.params key) 0 b.k.toNat).foldl Bank.setBit b) := by simp [hb]
  simp only [drive, advance, stepReadCount, readCount_ok h1, stepWriteCount, writeCount_ok _ h1, hcount]
  rw [State.modifyBank_modifyBank]
  rfl

/-- `add_key` of each key in order (R170). -/
theorem drive_addKeysOps (keys : List (List Byte)) (m : Nat) (hb : s.bank? f = some b)
    (hl : b.legal s.params.log2MaxBytes) :
    ∃ l', drive ((addKeysOps s.params f b.k keys).length + m) p
        ⟨req, adm, l, addKeysOps s.params f b.k keys ++ rest⟩ s =
      drive m p ⟨req, adm, l', rest⟩ (s.modifyBank f (fun _ => b.addKeys s.params keys)) := by
  induction keys generalizing b s l with
  | nil => exact ⟨l, by simp [addKeysOps, Bank.addKeys, s.modifyBank_same hb]⟩
  | cons key keys ih =>
    obtain ⟨l₁, h₁⟩ := drive_addKeyOps (p := p) (req := req) (adm := adm) (l := l)
      (rest := addKeysOps s.params f b.k keys ++ rest) key ((addKeysOps s.params f b.k keys).length + m) hb hl
    have hb' : (s.modifyBank f (fun _ => b.addKey s.params key)).bank? f = some (b.addKey s.params key) := by
      simp [hb]
    obtain ⟨l₂, h₂⟩ := ih (l := l₁) hb' ((b.addKey_same _ key).legal hl)
    refine ⟨l₂, ?_⟩
    simp only [addKeysOps, List.length_append, List.append_assoc, Nat.add_assoc]
    simp only [State.modifyBank_params, (b.addKey_same s.params key).k] at h₂
    rw [h₁, h₂, State.modifyBank_modifyBank]
    rfl

/-- What TestBit finds is the addressed bit (R78). -/
theorem testBit_eq (v : Byte) (position : Word64) :
    ((v >>> offsetOf position) &&& 1#8 = 1#8) ↔ v.getLsbD (offsetOf position) = true := by
  constructor
  · intro h
    have := congrArg (fun x : Byte => x.getLsbD 0) h
    simpa using this
  · intro h
    apply BitVec.eq_of_getLsbD_eq
    intro i hi
    cases i with
    | zero => simpa using h
    | succ i => simp

/-- The TestBit loop (R180, R185), before micro-steps of other kinds: the latch holds whether every bit was 1. -/
theorem drive_testBitOps {h : HashQuad} {t : State} (n i m : Nat) (hb : s.bank? f = some b)
    (hl : b.legal s.params.log2MaxBytes) (hrest : dropTests rest = rest)
    (ht : drive m p ⟨req, adm, { l with hit := l.hit && (probesFrom h i n).all b.bit }, rest⟩ s = .done t) :
    drive ((testBitOps f h i n).length + m) p ⟨req, adm, l, testBitOps f h i n ++ rest⟩ s = .done t := by
  induction n generalizing i l with
  | zero => simpa [testBitOps, probesFrom] using ht
  | succ n ih =>
    have hj : slotOf b.bitlen (probePosition h i) < s.physicalBytes := slotOf_lt_physical hl (probePosition h i)
    simp only [testBitOps, List.length_cons, List.cons_append]
    rw [show (testBitOps f h (i + 1) n).length + 1 + m = ((testBitOps f h (i + 1) n).length + m) + 1 by omega]
    simp only [drive, advance, stepTestRead, readProbe, hb, memRead_ok hb hj]
    by_cases hbit : b.bit (probePosition h i) = true
    · rw [if_pos ((testBit_eq _ _).2 hbit)]
      apply ih
      simpa [probesFrom, hbit] using ht
    · rw [if_neg (fun h' => hbit ((testBit_eq _ _).1 h'))]
      simp only [Bool.not_eq_true] at hbit
      have hdrop : ∀ n i, dropTests (testBitOps f h i n ++ rest) = rest := by
        intro n
        induction n with
        | zero => intro i; simpa [testBitOps] using hrest
        | succ n ih => intro i; simpa [testBitOps, dropTests] using ih (i + 1)
      rw [hdrop]
      simp only [probesFrom, List.all_cons, hbit, Bool.false_and, Bool.and_false] at ht
      rw [Nat.add_comm]
      exact drive_done_mono ht _

/-- OrByte, all three micro-steps (R79). -/
theorem drive_orByte {fd fs j : Nat} {bd bs : Bank} (n : Nat) (hd : s.bank? fd = some bd)
    (hs : s.bank? fs = some bs) (hj : j < s.physicalBytes) :
    drive (n + 3) p ⟨req, adm, l, .orReadSource fs j :: .orReadDest fd j :: .orWrite fd j :: rest⟩ s =
      drive n p ⟨req, adm, { l with source := Memory.read bs.storage j, byte := Memory.read bd.storage j }, rest⟩
        (s.modifyBank fd (fun _ => { bd with
          storage := Memory.write bd.storage j (Memory.read bd.storage j ||| Memory.read bs.storage j) })) := by
  simp only [drive, advance, stepOrReadSource, stepOrReadDest, memRead_ok hd hj, memRead_ok hs hj, stepMemWrite,
    memWrite_ok _ hd hj]
  rw [s.modifyBank_eq_const hd rfl]

/-- The OrByte loop (R86, R210), a self-merge included: the destination's bytes `j` to `j + n - 1` become their OR with
the source's, every other byte and every other field stays. -/
theorem drive_orByteOps {fd fs : Nat} {bd bs : Bank} (n j m : Nat) (hd : s.bank? fd = some bd)
    (hs : s.bank? fs = some bs) (hwf : Memory.wf bd.storage) (hj : j + n ≤ s.physicalBytes) :
    ∃ l' m', drive ((orByteOps fd fs j n).length + m) p ⟨req, adm, l, orByteOps fd fs j n ++ rest⟩ s =
        drive m p ⟨req, adm, l', rest⟩ (s.modifyBank fd (fun _ => { bd with storage := m' })) ∧
      Memory.wf m' ∧
      ∀ x, Memory.read m' x = if j ≤ x ∧ x < j + n then Memory.read bd.storage x ||| Memory.read bs.storage x
        else Memory.read bd.storage x := by
  induction n generalizing j bd bs s l with
  | zero =>
    refine ⟨l, bd.storage, ?_, hwf, ?_⟩
    · simp [orByteOps, s.modifyBank_same hd]
    · intro x; rw [if_neg (by omega)]
  | succ n ih =>
    set v := Memory.read bd.storage j ||| Memory.read bs.storage j with hv
    set s₁ := s.modifyBank fd (fun _ => { bd with storage := Memory.write bd.storage j v }) with hs₁
    have hd₁ : s₁.bank? fd = some { bd with storage := Memory.write bd.storage j v } := by simp [hs₁, hd]
    obtain ⟨bs₁, hbs₁, hread⟩ : ∃ bs₁, s₁.bank? fs = some bs₁ ∧
        ∀ x, x ≠ j → Memory.read bs₁.storage x = Memory.read bs.storage x := by
      by_cases hff : fd = fs
      · subst hff
        rw [hd] at hs
        cases hs
        exact ⟨_, hd₁, fun x hx => Memory.read_write_ne v (Ne.symm hx)⟩
      · exact ⟨bs, by rw [hs₁, State.bank?_modifyBank, if_neg hff, hs], fun _ _ => rfl⟩
    obtain ⟨l', m', hdrive, hm', hr⟩ := ih (s := s₁) (bd := { bd with storage := Memory.write bd.storage j v })
      (bs := bs₁) (l := { l with source := Memory.read bs.storage j, byte := Memory.read bd.storage j }) (j + 1)
      hd₁ hbs₁ (Memory.wf_write hwf j v) (by simp only [hs₁, State.physicalBytes_modifyBank]; omega)
    refine ⟨l', m', ?_, hm', ?_⟩
    · simp only [orByteOps, List.length_cons, List.cons_append]
      rw [show (orByteOps fd fs (j + 1) n).length + 1 + 1 + 1 + m = ((orByteOps fd fs (j + 1) n).length + m) + 3
        by omega, drive_orByte _ hd hs (by omega), ← hv, ← hs₁, hdrive, hs₁, State.modifyBank_modifyBank]
      rfl
    · intro x
      rw [hr]
      by_cases hx : x = j
      · subst hx
        rw [if_neg (by omega), if_pos (by omega)]
        simp [Memory.read_write_eq hwf.1, hv]
      · simp only [Memory.read_write_ne v (Ne.symm hx), hread x hx]
        by_cases hx' : j + 1 ≤ x ∧ x < j + 1 + n
        · rw [if_pos hx', if_pos (by omega)]
        · rw [if_neg hx', if_neg (by omega)]

/-- The ZeroByte loop (R80, R220): bytes `j` to `j + n - 1` become 0, every other byte and every other field stays. -/
theorem drive_zeroByteOps (n j m : Nat) (hb : s.bank? f = some b) (hwf : Memory.wf b.storage)
    (hj : j + n ≤ s.physicalBytes) :
    ∃ m', drive ((zeroByteOps f j n).length + m) p ⟨req, adm, l, zeroByteOps f j n ++ rest⟩ s =
        drive m p ⟨req, adm, l, rest⟩ (s.modifyBank f (fun _ => { b with storage := m' })) ∧
      Memory.wf m' ∧
      ∀ x, Memory.read m' x = if j ≤ x ∧ x < j + n then 0 else Memory.read b.storage x := by
  induction n generalizing j b s with
  | zero =>
    refine ⟨b.storage, ?_, hwf, ?_⟩
    · simp [zeroByteOps, s.modifyBank_same hb]
    · intro x; rw [if_neg (by omega)]
  | succ n ih =>
    have hb₁ : (s.modifyBank f (fun _ => { b with storage := Memory.write b.storage j 0 })).bank? f
        = some { b with storage := Memory.write b.storage j 0 } := by simp [hb]
    obtain ⟨m', hdrive, hm', hr⟩ := ih (j + 1) hb₁ (Memory.wf_write hwf j 0)
      (by simp only [State.physicalBytes_modifyBank]; omega)
    refine ⟨m', ?_, hm', ?_⟩
    · simp only [zeroByteOps, List.length_cons, List.cons_append]
      rw [show (zeroByteOps f (j + 1) n).length + 1 + m = ((zeroByteOps f (j + 1) n).length + m) + 1 by omega]
      simp only [drive, advance, stepMemWrite, memWrite_ok _ hb (show j < s.physicalBytes by omega)]
      rw [s.modifyBank_eq_const hb (b' := { b with storage := Memory.write b.storage j 0 }) rfl, hdrive,
        State.modifyBank_modifyBank]
      rfl
    · intro x
      rw [hr]
      by_cases hx : x = j
      · subst hx
        rw [if_neg (by omega), if_pos (by omega)]
        exact Memory.read_write_eq hwf.1 x 0
      · simp only [Memory.read_write_ne 0 (Ne.symm hx)]
        by_cases hx' : j + 1 ≤ x ∧ x < j + 1 + n
        · rw [if_pos hx', if_pos (by omega)]
        · rw [if_neg hx', if_neg (by omega)]

/-! ### The guard around a body -/

/-- What bank `f` holds once a command has come to its acquisition. -/
theorem bank?_reachLock {p f : Nat} {conc : Bool} {s : State} {b : Bank} (hb : s.bank? f = some b) :
    (s.reachLock p f conc).bank? f = some (if conc then { b with guard := b.guard.wait p } else b) := by
  cases conc <;> simp [State.reachLock, hb]

/-- An acquisition that follows overwrites the bank that the waiting port had joined. -/
theorem modifyBank_reachLock {p f : Nat} {conc : Bool} (s : State) (b : Bank) :
    (s.reachLock p f conc).modifyBank f (fun _ => b) = s.modifyBank f (fun _ => b) := by
  cases conc
  · rfl
  · simp only [State.reachLock, if_true, State.modifyBank_modifyBank]; rfl

theorem removePort_of_not_mem {p : Nat} {qs : List Nat} (h : p ∉ qs) : removePort p qs = qs := by
  simp only [removePort, List.filter_eq_self, decide_eq_true_eq]
  exact fun q hq e => h (e ▸ hq)

theorem removePort_insertPort {p : Nat} {qs : List Nat} (h : p ∉ qs) : removePort p (insertPort p qs) = qs := by
  induction qs with
  | nil => simp [insertPort, removePort]
  | cons q qs ih =>
    simp only [List.mem_cons, not_or] at h
    simp only [insertPort]
    split
    · have := removePort_of_not_mem (p := p) (qs := q :: qs) (by simp [h.1, h.2])
      simp only [removePort] at this ⊢
      rw [List.filter_cons_of_neg (by simp), this]
    · rw [if_neg h.1]
      simp only [removePort] at ih ⊢
      rw [List.filter_cons_of_pos (by simp [Ne.symm h.1]), ih h.2]

/-- A writing command that meets no other (R86, R88): its body's effect under the guard, then OK. -/
theorem drive_exclusive {body : List Micro} {e : Bank} {v : Word64} (hb : s.bank? f = some b)
    (hopen : b.conc = true → b.guard.openExclusive p) (he : e.guard = b.guard)
    (hbody : ∀ (g : Guard) (l : Latch) (m : Nat) (rest : List Micro), ∃ l',
      drive (body.length + m) p ⟨req, adm, l, body ++ rest⟩ (s.modifyBank f (fun _ => { b with guard := g })) =
        drive m p ⟨req, adm, l', rest⟩ (s.modifyBank f (fun _ => { e with guard := g }))) :
    drive (exclusive b f body (.const v)).length p ⟨req, adm, l, exclusive b f body (.const v)⟩
        (s.reachLock p f b.conc) =
      .done ((s.modifyBank f (fun _ => e)).deliver p (Response.success v)) := by
  unfold exclusive
  by_cases hc : b.conc = true
  · obtain ⟨hw, hr, hwait⟩ := hopen hc
    set g : Guard := { b.guard with writer := some p } with hg
    have hacq : (b.guard.wait p).acquireExcl p = some g := by
      simp [Guard.acquireExcl, Guard.wait, hw, hr, removePort_insertPort hwait, hg]
    have hreach := bank?_reachLock (p := p) (conc := true) hb
    obtain ⟨l', hl'⟩ := hbody g l 2 [.release f, .respond .ok (.const v)]
    have hrel : g.release p = b.guard := by
      have : b.guard.writer = none := hw
      simp only [Guard.release, hg, if_true]
      cases hgd : b.guard
      simp_all
    simp only [hc, if_true, List.length_cons, List.length_append, List.length_nil]
    rw [drive_succ_moved (c' := ⟨req, adm, l, body ++ [.release f, .respond .ok (.const v)]⟩)
      (s' := s.modifyBank f (fun _ => { b with guard := g })), hl']
    rotate_left
    · simp only [advance, stepAcquire, hreach, if_true, hacq]
      rw [State.modifyBank_eq_const _ hreach (b' := { b with guard := g }) rfl, modifyBank_reachLock]
    have hbank : (s.modifyBank f (fun _ => { e with guard := g })).bank? f = some { e with guard := g } := by simp [hb]
    simp only [drive, advance, stepRelease, hbank, answerValue]
    rw [State.modifyBank_eq_const _ hbank (b' := e) (by simp [hrel, ← he]), State.modifyBank_modifyBank]
    rfl
  · obtain ⟨l', hl'⟩ := hbody b.guard l 1 [.respond .ok (.const v)]
    have hsame : s.modifyBank f (fun _ => { b with guard := b.guard }) = s := s.modifyBank_same hb
    rw [hsame] at hl'
    simp only [hc, State.reachLock, Bool.false_eq_true, if_false, List.length_append, List.length_cons, List.length_nil]
    rw [hl']
    simp only [drive, advance, answerValue]
    rw [show ({ e with guard := b.guard } : Bank) = e by rw [← he]]
    rfl

/-- A read-only command that meets no other (R86, R88): it changes no bank, and answers from what its body read. -/
theorem drive_shared {body : List Micro} {a : Answer} {l' : Latch} (hb : s.bank? f = some b)
    (hopen : b.conc = true → b.guard.openShared p)
    (hbody : ∀ (g : Guard) (m : Nat) (rest : List Micro) (t : State), dropTests rest = rest →
      drive m p ⟨req, adm, l', rest⟩ (s.modifyBank f (fun _ => { b with guard := g })) = .done t →
      drive (body.length + m) p ⟨req, adm, l, body ++ rest⟩ (s.modifyBank f (fun _ => { b with guard := g })) =
        .done t) :
    drive (shared b f body a).length p ⟨req, adm, l, shared b f body a⟩ (s.reachLock p f b.conc) =
      .done (s.deliver p (Response.success (answerValue l' a))) := by
  unfold shared
  by_cases hc : b.conc = true
  · obtain ⟨hw, hr, hwait⟩ := hopen hc
    set g : Guard := { b.guard with readers := insertPort p b.guard.readers } with hg
    have hacq : (b.guard.wait p).acquireShared p = some g := by
      simp [Guard.acquireShared, Guard.wait, hw, removePort_insertPort hwait, hg]
    have hreach := bank?_reachLock (p := p) (conc := true) hb
    have hrel : g.release p = b.guard := by
      simp only [Guard.release, hg, hw, removePort_insertPort hr]
      cases hgd : b.guard
      simp_all
    simp only [hc, if_true, List.length_cons, List.length_append, List.length_nil]
    rw [drive_succ_moved (c' := ⟨req, adm, l, body ++ [.release f, .respond .ok a]⟩)
      (s' := s.modifyBank f (fun _ => { b with guard := g }))]
    rotate_left
    · simp only [advance, stepAcquire, hreach, if_true, hacq]
      rw [State.modifyBank_eq_const _ hreach (b' := { b with guard := g }) rfl, modifyBank_reachLock]
    apply hbody g 2 _ _ (by simp [dropTests])
    have hbank : (s.modifyBank f (fun _ => { b with guard := g })).bank? f = some { b with guard := g } := by simp [hb]
    simp only [drive, advance, stepRelease, hbank]
    rw [State.modifyBank_eq_const _ hbank (b' := b) (by simp [hrel]), State.modifyBank_modifyBank]
    have := s.modifyBank_same hb
    simp only [Function.comp_def, this]
    rfl
  · have hsame : s.modifyBank f (fun _ => { b with guard := b.guard }) = s := s.modifyBank_same hb
    simp only [hc, State.reachLock, Bool.false_eq_true, if_false, List.length_append, List.length_cons, List.length_nil]
    have := hbody b.guard 1 [.respond .ok a]
      (s.deliver p (Response.success (answerValue l' a))) (by simp [dropTests])
    rw [hsame] at this
    exact this (by simp only [drive, advance]; rfl)

/-! ### From the command to its micro-steps -/

/-- A command that passes every check on an IDLE port runs the micro-steps R86 gives it. -/
theorem runCommand_admitted {i : Instr} {t : State} (hidle : s.idleTurn) (hpacket : packetCheck s i = none)
    (hpend : (namedBanks i).any s.configPending = false) (hbank : bankCheck s i = none)
    (ht : drive (program s.params (homeBank s i) i).length s.cur
      ⟨encode i, true, Latch.start, program s.params (homeBank s i) i⟩ (s.afterAdmission s.cur i) = .done t) :
    runCommand i s = .next t := by
  obtain ⟨port, hport, hin⟩ := hidle
  simp only [runCommand, hport, hin, hpacket, runAdmitted, admission, hpend, Bool.false_eq_true, if_false, hbank,
    InFlight.accepted]
  rw [ht]
  rfl

/-- An error found by the checks before admission is the command's response, and nothing else changes (R272). -/
theorem runCommand_packetError {i : Instr} {e : Status} (hidle : s.idleTurn) (hpacket : packetCheck s i = some e) :
    runCommand i s = .next (s.raise s.cur e) := by
  obtain ⟨port, hport, hin⟩ := hidle
  simp only [runCommand, hport, hin, hpacket]

/-- An error found in the admission step is the command's response, and nothing else changes (R272). -/
theorem runCommand_bankError {i : Instr} {e : Status} (hidle : s.idleTurn) (hpacket : packetCheck s i = none)
    (hpend : (namedBanks i).any s.configPending = false) (hbank : bankCheck s i = some e) :
    runCommand i s = .next (s.raise s.cur e) := by
  obtain ⟨port, hport, hin⟩ := hidle
  simp only [runCommand, hport, hin, hpacket, runAdmitted, admission, hpend, Bool.false_eq_true, if_false, hbank]
  rfl

/-- A command one of whose banks waits for a CONFIG stays at its admission (R255). -/
theorem runCommand_pending {i : Instr} (hidle : s.idleTurn) (hpacket : packetCheck s i = none)
    (hpend : (namedBanks i).any s.configPending = true) :
    runCommand i s = .next (s.park s.cur (InFlight.accepted (encode i))) := by
  obtain ⟨port, hport, hin⟩ := hidle
  simp only [runCommand, hport, hin, hpacket, runAdmitted, admission, hpend, if_true]
  rfl

end Sys2Proof.Machine
end

