-- ==== Sys2Proof/Laws/Commands.lean ====
section
/-! SUPPORT. The checks of R273 on a command whose banks are there and configured, and the programs of R86 run on a
bank no other command is using. -/

namespace Sys2Proof.Machine

variable {s : State} {i : Instr} {f : Nat} {b : Bank}

theorem namedBanks_of_ne_merge (h : i.opcode ≠ .merge) : namedBanks i = [bankOf i.fid] := by
  cases i <;> simp_all [Instr.opcode, namedBanks, Instr.fid]

theorem bank?_lt (hb : s.bank? f = some b) : f < s.banks.length := by
  simp only [State.bank?] at hb
  exact (List.getElem?_eq_some_iff.1 hb).1

theorem configured_of_bank (hb : s.bank? f = some b) : configured s f = b.cfg := by simp [configured, hb]

theorem configPending_of_bank (hb : s.bank? f = some b) : s.configPending f = b.guard.configPending := by
  simp [State.configPending, hb]

/-- A command other than CONFIG and MERGE whose bank exists passes the checks of R273 steps 5 and 6. -/
theorem packetCheck_none (hm : i.opcode ≠ .merge) (hc : i.opcode ≠ .config) (hlt : bankOf i.fid < s.banks.length) :
    packetCheck s i = none := by
  unfold packetCheck
  rw [if_neg (by omega), if_neg (fun h => hm h.1)]
  cases i <;> simp_all [configCheck, Instr.opcode]

/-- A command other than MERGE whose bank is configured passes the checks of R273 steps 7 to 9. -/
theorem bankCheck_none (hm : i.opcode ≠ .merge) (hcfg : i.opcode ≠ .config → configured s (bankOf i.fid) = true) :
    bankCheck s i = none := by
  unfold bankCheck
  rw [if_neg, if_neg hm]
  rintro ⟨h1, h2⟩
  simp [hcfg h1] at h2

/-- A command other than CONFIG and MERGE on a bank it can use at once runs its program there. -/
theorem exec_of_program {t : State} (hm : i.opcode ≠ .merge) (hc : i.opcode ≠ .config) (hidle : s.idleTurn)
    (hb : s.holdsBank (bankOf i.fid) b)
    (ht : drive (program s.params b i).length s.cur ⟨encode i, true, Latch.start, program s.params b i⟩
      (s.reachLock s.cur (bankOf i.fid) b.conc) = .done t) :
    runCommand i s = .next t := by
  obtain ⟨hbank, hcfg, hpend, -⟩ := hb
  have hhome : homeBank s i = b := by simp [homeBank, hbank]
  apply runCommand_admitted hidle (packetCheck_none hm hc (bank?_lt hbank))
  · simp [namedBanks_of_ne_merge hm, configPending_of_bank hbank, hpend]
  · exact bankCheck_none hm (fun _ => by rw [configured_of_bank hbank, hcfg])
  · rw [State.afterAdmission, hhome, if_neg hc]; exact ht

/-- An ADD of one key that meets no other command (R160). -/
theorem drive_addOneProgram {req : List Byte} {p : Nat} (key : List Byte) (hb : s.holdsBank f b)
    (hopen : b.conc = true → b.guard.openExclusive p) :
    drive (addOneProgram s.params b f key).length p ⟨req, true, Latch.start, addOneProgram s.params b f key⟩
        (s.reachLock p f b.conc) =
      .done ((s.modifyBank f (fun _ => b.addKey s.params key)).deliver p (Response.success 0)) := by
  obtain ⟨hbank, -, -, hl⟩ := hb
  apply drive_exclusive hbank hopen (b.addKey_same _ key).guard
  intro g l m rest
  have hg : (s.modifyBank f (fun _ => { b with guard := g })).bank? f = some { b with guard := g } := by simp [hbank]
  obtain ⟨l', hl'⟩ := drive_addKeyOps (p := p) (req := req) (adm := true) (l := l) (rest := rest) key m hg
    (show Bank.legal s.params.log2MaxBytes { b with guard := g } from hl)
  refine ⟨l', ?_⟩
  have hcomm : ∀ qs : List Word64, ∀ c : Bank, qs.foldl Bank.setBit { c with guard := g } =
      { qs.foldl Bank.setBit c with guard := g } := by
    intro qs
    induction qs with
    | nil => intro c; rfl
    | cons q qs ih => intro c; exact ih (c.setBit q)
  simp only [State.modifyBank_params, State.modifyBank_modifyBank, Function.comp_def] at hl'
  rw [hl']
  simp only [Bank.addKey, hcomm]

/-- One-step effects do not read the guard. -/
theorem Bank.addKeys_guard (params : Params) (keys : List (List Byte)) (b : Bank) (g : Guard) :
    Bank.addKeys params { b with guard := g } keys = { b.addKeys params keys with guard := g } := by
  have hcomm : ∀ (qs : List Word64) (c : Bank), qs.foldl Bank.setBit { c with guard := g } =
      { qs.foldl Bank.setBit c with guard := g } := by
    intro qs
    induction qs with
    | nil => intro c; rfl
    | cons q qs ih => intro c; exact ih (c.setBit q)
  induction keys generalizing b with
  | nil => rfl
  | cons key keys ih =>
    simp only [Bank.addKeys, List.foldl_cons] at ih ⊢
    rw [show Bank.addKey params { b with guard := g } key = { b.addKey params key with guard := g } by
      simp only [Bank.addKey, hcomm]]
    exact ih _

/-- An ADDB that meets no other command (R170). -/
theorem drive_addBatchProgram {req : List Byte} {p : Nat} (keys : List (List Byte)) (hb : s.holdsBank f b)
    (hopen : b.conc = true → b.guard.openExclusive p) :
    drive (addBatchProgram s.params b f keys).length p ⟨req, true, Latch.start, addBatchProgram s.params b f keys⟩
        (s.reachLock p f b.conc) =
      .done ((s.modifyBank f (fun _ => b.addKeys s.params keys)).deliver p (Response.success 0)) := by
  obtain ⟨hbank, -, -, hl⟩ := hb
  apply drive_exclusive hbank hopen (Bank.addKeys_same _ keys b).guard
  intro g l m rest
  have hg : (s.modifyBank f (fun _ => { b with guard := g })).bank? f = some { b with guard := g } := by simp [hbank]
  obtain ⟨l', hl'⟩ := drive_addKeysOps (p := p) (req := req) (adm := true) (l := l) (rest := rest) keys m hg
    (show Bank.legal s.params.log2MaxBytes { b with guard := g } from hl)
  refine ⟨l', ?_⟩
  simp only [State.modifyBank_params, State.modifyBank_modifyBank, Function.comp_def] at hl'
  rw [hl', Bank.addKeys_guard]

/-- A TEST that meets no other command (R180). -/
theorem drive_testOneProgram {req : List Byte} {p : Nat} (key : List Byte) (hb : s.holdsBank f b)
    (hopen : b.conc = true → b.guard.openShared p) :
    drive (testOneProgram s.params b f key).length p ⟨req, true, Latch.start, testOneProgram s.params b f key⟩
        (s.reachLock p f b.conc) =
      .done (s.deliver p (Response.success (testResult s.params b key))) := by
  obtain ⟨hbank, -, -, hl⟩ := hb
  have h := drive_shared (p := p) (req := req) (adm := true) (l := Latch.start) (a := .hit)
    (body := testBitOps f (baseHash s.params key) 0 b.k.toNat)
    (l' := { Latch.start with hit := Latch.start.hit && (probesFrom (baseHash s.params key) 0 b.k.toNat).all b.bit })
    hbank hopen ?_
  · simpa [testOneProgram, answerValue, Latch.start, testResult, Bank.testKey, probes] using h
  · intro g m rest t hrest ht
    have hg : (s.modifyBank f (fun _ => { b with guard := g })).bank? f = some { b with guard := g } := by simp [hbank]
    exact drive_testBitOps b.k.toNat 0 m hg (show Bank.legal s.params.log2MaxBytes { b with guard := g } from hl)
      hrest ht

/-- A read of COUNT that meets no other command (R233, R236). -/
theorem drive_countProgram {req : List Byte} {p : Nat} (a : Answer) (hb : s.bank? f = some b)
    (hopen : b.conc = true → b.guard.openShared p) :
    drive (shared b f [.readCount f] a).length p ⟨req, true, Latch.start, shared b f [.readCount f] a⟩
        (s.reachLock p f b.conc) =
      .done (s.deliver p (Response.success (answerValue { Latch.start with count := b.count } a))) := by
  apply drive_shared hb hopen
  intro g m rest t hrest ht
  have hg : (s.modifyBank f (fun _ => { b with guard := g })).bank? f = some { b with guard := g } := by simp [hb]
  rw [List.length_singleton, Nat.add_comm, drive_succ_moved (h := by
    simp only [List.cons_append, advance, stepReadCount, readCount_ok hg]; rfl)]
  exact ht

end Sys2Proof.Machine
end

