-- ==== Sys2Proof/Laws/Encoding.lean ====
section
/-! SUPPORT. The small laws of the packet's encoding: byte order, lengths of the payloads, the fields of the command
word. -/

namespace Sys2Proof

/-! ### Byte order -/

@[simp] theorem leBytes_length (n v : Nat) : (leBytes n v).length = n := by
  induction n generalizing v with
  | zero => rfl
  | succ n ih => simp [leBytes, ih]

/-- Writing `n` bytes little-endian and reading them gives the value, modulo `2^(8n)` (R17, R110). -/
theorem leValue_leBytes (n v : Nat) : leValue (leBytes n v) = v % 256 ^ n := by
  induction n generalizing v with
  | zero => simp [leBytes, leValue, Nat.mod_one]
  | succ n ih =>
    simp only [leBytes, leValue, ih, BitVec.toNat_ofNat]
    rw [show 256 ^ (n + 1) = 256 * 256 ^ n by rw [Nat.pow_succ, Nat.mul_comm], Nat.mod_mul]

/-- Reading bytes little-endian and writing as many gives the bytes (R17, R110). -/
theorem leBytes_leValue (bs : List Byte) : leBytes bs.length (leValue bs) = bs := by
  induction bs with
  | nil => rfl
  | cons b bs ih =>
    simp only [List.length_cons, leBytes, leValue]
    rw [Nat.add_mul_div_left _ _ (by decide), Nat.div_eq_of_lt b.isLt, Nat.zero_add, ih]
    congr 1
    apply BitVec.eq_of_toNat_eq
    simp only [BitVec.toNat_ofNat, Nat.reducePow]
    rw [Nat.add_mul_mod_self_left]
    exact Nat.mod_eq_of_lt b.isLt

/-- The value of `n` bytes is below `2^(8n)`. -/
theorem leValue_lt (bs : List Byte) : leValue bs < 256 ^ bs.length := by
  induction bs with
  | nil => simp [leValue]
  | cons b bs ih =>
    simp only [leValue, List.length_cons, Nat.pow_succ]
    have := b.isLt
    omega

/-! ### Payload lengths -/

@[simp] theorem commandBytes_length (op : Opcode) (conc : Bool) (fid sfid : FilterId) :
    (commandBytes op conc fid sfid).length = 4 := rfl

@[simp] theorem keyPayload_length (key : List Byte) : (keyPayload key).length = 4 + key.length := by simp [keyPayload]

theorem length_flatMap_keyPayload (keys : List (List Byte)) :
    (keys.flatMap keyPayload).length = (keys.map (fun key => 4 + key.length)).sum := by
  induction keys with
  | nil => rfl
  | cons key keys ih => simp [ih]

theorem length_wordsPayload {w : Nat} (vs : List (BitVec w)) :
    (wordsPayload vs).length = 4 + w / 8 * vs.length := by
  have h : (vs.flatMap (fun v => leBytes (w / 8) v.toNat)).length = w / 8 * vs.length := by
    induction vs with
    | nil => simp
    | cons v vs ih => simp [ih, Nat.mul_succ, Nat.add_comm]
  simp [wordsPayload, h]

/-! ### The command word -/

/-- The fields that an opcode leaves free: CONC for CONFIG, SFID for MERGE (R112). -/
def Opcode.fieldsOk (op : Opcode) (conc : Bool) (sfid : FilterId) : Prop :=
  (op ≠ .config → conc = false) ∧ (op ≠ .merge → sfid = 0)

/-- The opcode number of a command stands for that command (R113). -/
@[simp] theorem Opcode.ofBits_code (op : Opcode) : Opcode.ofBits op.code = some op := by cases op <;> rfl

/-- The bits of a command word (R112). -/
theorem getLsbD_commandWord (op : Opcode) (conc : Bool) (fid sfid : FilterId) (payload : List Byte) (j : Nat) :
    (commandWord (commandBytes op conc fid sfid ++ payload)).getLsbD j =
      if j < 5 then op.code.getLsbD j else if j < 6 then conc else if j < 8 then false
      else if j < 16 then fid.getLsbD (j - 8) else sfid.getLsbD (j - 16) := by
  simp only [commandBytes, List.cons_append, commandWord]
  rw [BitVec.getLsbD_append, BitVec.getLsbD_append, BitVec.getLsbD_append, BitVec.getLsbD_append,
    BitVec.getLsbD_append]
  by_cases h5 : j < 5
  · rw [if_pos (by omega), if_pos h5, if_pos h5]
  · rw [if_neg h5]
    by_cases h6 : j < 6
    · obtain rfl : j = 5 := by omega
      simp
    · by_cases h8 : j < 8
      · rw [if_pos (by omega), if_neg (by omega), if_neg (by omega)]; simp [h6, h8]
      · rw [if_neg (by omega)]
        by_cases h16 : j < 16
        · rw [if_pos (by omega)]; simp [h5, h6, h8, h16]
        · rw [if_neg (by omega)]
          by_cases h24 : j - 8 - 8 < 8
          · rw [if_pos h24]; simp [h5, h6, h8, h16, show j - 8 - 8 = j - 16 by omega]
          · rw [if_neg h24, BitVec.getLsbD_of_ge sfid (j - 16) (by omega)]; simp [h5, h6, h8, h16]

/-- The command word reads back as it was written, and sets no must-be-0 bit (R112). -/
theorem commandWord_fields (op : Opcode) (conc : Bool) (fid sfid : FilterId) (payload : List Byte)
    (h : op.fieldsOk conc sfid) :
    cmdOp (commandWord (commandBytes op conc fid sfid ++ payload)) = op.code ∧
      cmdConc (commandWord (commandBytes op conc fid sfid ++ payload)) = conc ∧
      cmdFid (commandWord (commandBytes op conc fid sfid ++ payload)) = fid ∧
      cmdSfid (commandWord (commandBytes op conc fid sfid ++ payload)) = sfid ∧
      commandWord (commandBytes op conc fid sfid ++ payload) &&& op.reservedMask = 0 := by
  obtain ⟨hconc, hsfid⟩ := h
  refine ⟨?_, ?_, ?_, ?_, ?_⟩
  · apply BitVec.eq_of_getLsbD_eq
    intro j hj
    rw [cmdOp, BitVec.getLsbD_extractLsb', getLsbD_commandWord]
    simp [hj]
  · rw [cmdConc, getLsbD_commandWord]
    simp
  · apply BitVec.eq_of_getLsbD_eq
    intro j hj
    rw [cmdFid, BitVec.getLsbD_extractLsb', getLsbD_commandWord]
    simp [hj, show ¬ 8 + j < 5 by omega, show ¬ 8 + j < 6 by omega, show 8 + j < 16 by omega]
  · apply BitVec.eq_of_getLsbD_eq
    intro j hj
    rw [cmdSfid, BitVec.getLsbD_extractLsb', getLsbD_commandWord]
    simp [hj, show ¬ 16 + j < 5 by omega, show ¬ 16 + j < 6 by omega, show ¬ 16 + j < 8 by omega]
  · apply BitVec.eq_of_getLsbD_eq
    intro j hj
    rw [BitVec.getLsbD_and, getLsbD_commandWord]
    by_cases h1 : op = .config
    · subst h1
      obtain rfl := hsfid (by decide)
      interval_cases j <;> simp [Opcode.reservedMask]
    · by_cases h2 : op = .merge
      · subst h2
        obtain rfl := hconc (by decide)
        interval_cases j <;> simp [Opcode.reservedMask]
      · obtain rfl := hconc h1
        obtain rfl := hsfid h2
        rw [show op.reservedMask = 0xFFFF00E0#32 by cases op <;> simp_all [Opcode.reservedMask]]
        interval_cases j <;> simp

end Sys2Proof
end

