-- ==== Sys2Proof/Laws/Micro.lean ====
section
/-! SUPPORT. What one micro-step can do (20_memory.md R86, R87), once, for every proof about steps to cite. -/

namespace Sys2Proof.Machine

variable {p : Nat} {c c' : InFlight} {s s' : State}

/-- A byte write that succeeds changes that byte of that bank, and nothing else (R76). -/
theorem memWrite_eq {f j : Nat} {v : Byte} (h : memWrite s f j v = .ok s') :
    s' = s.modifyBank f (fun b => { b with storage := Memory.write b.storage j v }) := by
  unfold memWrite at h
  repeat' split at h
  all_goals cases h
  rfl

/-- A COUNT write that succeeds changes that bank's COUNT, and nothing else (R86). -/
theorem writeCount_eq {f : Nat} {v : Word64} (h : writeCount s f v = .ok s') :
    s' = s.modifyBank f (fun b => { b with count := v }) := by
  unfold writeCount at h
  split at h
  all_goals cases h
  rfl

/-- An admission changes at most the guard of one bank beside the port (R90, R255). -/
theorem afterAdmission_eq (s : State) (p : Nat) (i : Instr) :
    s.afterAdmission p i = s ∨ ∃ (f : Nat) (h : Guard → Guard),
      s.afterAdmission p i = s.modifyBank f (fun b => { b with guard := h b.guard }) := by
  simp only [State.afterAdmission, State.reachLock]
  split
  · exact .inr ⟨bankOf i.fid, fun g => { g with configPending := true }, rfl⟩
  · split
    · exact .inr ⟨bankOf i.fid, fun g => g.wait p, rfl⟩
    · exact .inl rfl

/-- A micro-step that is taken changes at most one bank of the state, and keeps the request. -/
theorem advance_moved (h : advance p c s = .moved c' s') :
    (s' = s ∨ ∃ f g, s' = s.modifyBank f g) ∧ c'.request = c.request := by
  obtain ⟨req, adm, l, todo⟩ := c
  cases todo with
  | nil => simp [advance] at h
  | cons m rest =>
    cases m <;> simp only [advance] at h
    case respond => cases h
    case admitStep =>
      simp only [stepAdmit] at h
      split at h
      · simp only [Advance.moved.injEq] at h; obtain ⟨rfl, rfl⟩ := h; exact ⟨.inl rfl, rfl⟩
      · simp only [admission] at h
        split at h
        · cases h
        · split at h <;> simp only [Advance.moved.injEq] at h <;> obtain ⟨rfl, rfl⟩ := h
          · exact ⟨.inl rfl, rfl⟩
          · exact ⟨(afterAdmission_eq s p _).imp id fun ⟨f, _, h⟩ => ⟨f, _, h⟩, rfl⟩
    all_goals
      simp only [stepConfigure, stepAcquire, stepRelease, stepSetRead, stepSetWrite, stepTestRead, stepReadCount,
        stepWriteCount, stepOrReadSource, stepOrReadDest, stepMemWrite] at h
      repeat' split at h
    all_goals
      first
      | (simp only [Advance.moved.injEq] at h
         obtain ⟨rfl, rfl⟩ := h
         first
         | exact ⟨.inl rfl, rfl⟩
         | exact ⟨.inr ⟨_, _, rfl⟩, rfl⟩
         | exact ⟨.inr ⟨_, _, memWrite_eq ‹_›⟩, rfl⟩
         | exact ⟨.inr ⟨_, _, writeCount_eq ‹_›⟩, rfl⟩)
      | cases h

/-- A micro-step that is not enabled changes nothing (R87). -/
theorem advance_blocked (h : advance p c s = .blocked c' s') : c' = c ∧ s' = s := by
  obtain ⟨req, adm, l, todo⟩ := c
  cases todo with
  | nil => simp only [advance, Advance.blocked.injEq] at h; exact ⟨h.1.symm, h.2.symm⟩
  | cons m rest =>
    cases m <;> simp only [advance] at h
    case respond => cases h
    case admitStep =>
      simp only [stepAdmit, admission] at h
      repeat' split at h
      all_goals first
        | (simp only [Advance.blocked.injEq] at h; exact ⟨h.1.symm, h.2.symm⟩)
        | cases h
    all_goals
      simp only [stepConfigure, stepAcquire, stepRelease, stepSetRead, stepSetWrite, stepTestRead, stepReadCount,
        stepWriteCount, stepOrReadSource, stepOrReadDest, stepMemWrite] at h
      repeat' split at h
    all_goals first
      | (simp only [Advance.blocked.injEq] at h; exact ⟨h.1.symm, h.2.symm⟩)
      | cases h

/-- The only micro-step that ends a command delivers its response, and changes nothing else (R120). -/
theorem advance_done (h : advance p c s = .done s') :
    ∃ status answer rest, c.todo = .respond status answer :: rest ∧
      s' = s.deliver p { status := status, result := answerValue c.latch answer } := by
  obtain ⟨req, adm, l, todo⟩ := c
  cases todo with
  | nil => simp [advance] at h
  | cons m rest =>
    cases m <;> simp only [advance] at h
    case respond => exact ⟨_, _, _, rfl, (Advance.done.inj h).symm⟩
    case admitStep =>
      simp only [stepAdmit, admission] at h
      repeat' split at h
      all_goals cases h
    all_goals
      simp only [stepConfigure, stepAcquire, stepRelease, stepSetRead, stepSetWrite, stepTestRead, stepReadCount,
        stepWriteCount, stepOrReadSource, stepOrReadDest, stepMemWrite] at h
      repeat' split at h
    all_goals cases h

end Sys2Proof.Machine
end

