-- ==== Sys2Proof/Laws/PerInstr.lean ====
section
/-! SUPPORT. The statements that are made per command: what its packet looks like, as its row of R112 to R115 has it. -/

namespace Sys2Proof.Laws.EncodedLength

/-- The length of a command's packet is the one its format gives (R115). -/
def Statement (i : Instr) : Prop :=
  (encode i).length =
    match i with
    | .config _ _ _ _ => 16
    | .add _ key => 8 + key.length
    | .addStr _ key => 8 + key.length
    | .addU16 _ _ => 6
    | .addU32 _ _ => 8
    | .addU64 _ _ => 12
    | .addb _ keys => 8 + (keys.map (fun key => 4 + key.length)).sum
    | .addbU16 _ vs => 8 + 2 * vs.length
    | .addbU32 _ vs => 8 + 4 * vs.length
    | .addbU64 _ vs => 8 + 8 * vs.length
    | .test _ key => 8 + key.length
    | .testStr _ key => 8 + key.length
    | .testU16 _ _ => 6
    | .testU32 _ _ => 8
    | .testU64 _ _ => 12
    | .merge _ _ => 4
    | .reset _ => 4
    | .cap _ => 4
    | .size _ => 4
    | .fpr _ => 4

theorem config (fid : FilterId) (conc : Bool) (capacity : Word64) (k : Word32) : Statement (.config fid conc capacity k) := by simp [Statement, encode, Instr.payload]
theorem add (fid : FilterId) (key : List Byte) : Statement (.add fid key) := by simp [Statement, encode, Instr.payload, keyPayload]; omega
theorem addStr (fid : FilterId) (key : List Byte) : Statement (.addStr fid key) := by simp [Statement, encode, Instr.payload, keyPayload]; omega
theorem addU16 (fid : FilterId) (v : Word16) : Statement (.addU16 fid v) := by simp [Statement, encode, Instr.payload]
theorem addU32 (fid : FilterId) (v : Word32) : Statement (.addU32 fid v) := by simp [Statement, encode, Instr.payload]
theorem addU64 (fid : FilterId) (v : Word64) : Statement (.addU64 fid v) := by simp [Statement, encode, Instr.payload]
theorem addb (fid : FilterId) (keys : List (List Byte)) : Statement (.addb fid keys) := by simp [Statement, encode, Instr.payload, keysPayload]; omega
theorem addbU16 (fid : FilterId) (vs : List Word16) : Statement (.addbU16 fid vs) := by simp [Statement, encode, Instr.payload, length_wordsPayload]; omega
theorem addbU32 (fid : FilterId) (vs : List Word32) : Statement (.addbU32 fid vs) := by simp [Statement, encode, Instr.payload, length_wordsPayload]; omega
theorem addbU64 (fid : FilterId) (vs : List Word64) : Statement (.addbU64 fid vs) := by simp [Statement, encode, Instr.payload, length_wordsPayload]; omega
theorem test (fid : FilterId) (key : List Byte) : Statement (.test fid key) := by simp [Statement, encode, Instr.payload, keyPayload]; omega
theorem testStr (fid : FilterId) (key : List Byte) : Statement (.testStr fid key) := by simp [Statement, encode, Instr.payload, keyPayload]; omega
theorem testU16 (fid : FilterId) (v : Word16) : Statement (.testU16 fid v) := by simp [Statement, encode, Instr.payload]
theorem testU32 (fid : FilterId) (v : Word32) : Statement (.testU32 fid v) := by simp [Statement, encode, Instr.payload]
theorem testU64 (fid : FilterId) (v : Word64) : Statement (.testU64 fid v) := by simp [Statement, encode, Instr.payload]
theorem merge (fid sfid : FilterId) : Statement (.merge fid sfid) := by simp [Statement, encode, Instr.payload]
theorem reset (fid : FilterId) : Statement (.reset fid) := by simp [Statement, encode, Instr.payload]
theorem cap (fid : FilterId) : Statement (.cap fid) := by simp [Statement, encode, Instr.payload]
theorem size (fid : FilterId) : Statement (.size fid) := by simp [Statement, encode, Instr.payload]
theorem fpr (fid : FilterId) : Statement (.fpr fid) := by simp [Statement, encode, Instr.payload]

end Sys2Proof.Laws.EncodedLength

namespace Sys2Proof.Laws.EncodedWord

/-- The command word of a command's packet holds its opcode, CONC, FID and SFID, and no must-be-0 bit (R112, R113). -/
def Statement (i : Instr) : Prop :=
  cmdOp (commandWord (encode i)) = i.opcode.code ∧ cmdConc (commandWord (encode i)) = i.concBit ∧
    cmdFid (commandWord (encode i)) = i.fid ∧ cmdSfid (commandWord (encode i)) = i.sfid ∧
    commandWord (encode i) &&& i.opcode.reservedMask = 0

theorem config (fid : FilterId) (conc : Bool) (capacity : Word64) (k : Word32) : Statement (.config fid conc capacity k) := commandWord_fields _ _ _ _ _ (by simp [Opcode.fieldsOk, Instr.opcode, Instr.concBit, Instr.sfid])
theorem add (fid : FilterId) (key : List Byte) : Statement (.add fid key) := commandWord_fields _ _ _ _ _ (by simp [Opcode.fieldsOk, Instr.opcode, Instr.concBit, Instr.sfid])
theorem addStr (fid : FilterId) (key : List Byte) : Statement (.addStr fid key) := commandWord_fields _ _ _ _ _ (by simp [Opcode.fieldsOk, Instr.opcode, Instr.concBit, Instr.sfid])
theorem addU16 (fid : FilterId) (v : Word16) : Statement (.addU16 fid v) := commandWord_fields _ _ _ _ _ (by simp [Opcode.fieldsOk, Instr.opcode, Instr.concBit, Instr.sfid])
theorem addU32 (fid : FilterId) (v : Word32) : Statement (.addU32 fid v) := commandWord_fields _ _ _ _ _ (by simp [Opcode.fieldsOk, Instr.opcode, Instr.concBit, Instr.sfid])
theorem addU64 (fid : FilterId) (v : Word64) : Statement (.addU64 fid v) := commandWord_fields _ _ _ _ _ (by simp [Opcode.fieldsOk, Instr.opcode, Instr.concBit, Instr.sfid])
theorem addb (fid : FilterId) (keys : List (List Byte)) : Statement (.addb fid keys) := commandWord_fields _ _ _ _ _ (by simp [Opcode.fieldsOk, Instr.opcode, Instr.concBit, Instr.sfid])
theorem addbU16 (fid : FilterId) (vs : List Word16) : Statement (.addbU16 fid vs) := commandWord_fields _ _ _ _ _ (by simp [Opcode.fieldsOk, Instr.opcode, Instr.concBit, Instr.sfid])
theorem addbU32 (fid : FilterId) (vs : List Word32) : Statement (.addbU32 fid vs) := commandWord_fields _ _ _ _ _ (by simp [Opcode.fieldsOk, Instr.opcode, Instr.concBit, Instr.sfid])
theorem addbU64 (fid : FilterId) (vs : List Word64) : Statement (.addbU64 fid vs) := commandWord_fields _ _ _ _ _ (by simp [Opcode.fieldsOk, Instr.opcode, Instr.concBit, Instr.sfid])
theorem test (fid : FilterId) (key : List Byte) : Statement (.test fid key) := commandWord_fields _ _ _ _ _ (by simp [Opcode.fieldsOk, Instr.opcode, Instr.concBit, Instr.sfid])
theorem testStr (fid : FilterId) (key : List Byte) : Statement (.testStr fid key) := commandWord_fields _ _ _ _ _ (by simp [Opcode.fieldsOk, Instr.opcode, Instr.concBit, Instr.sfid])
theorem testU16 (fid : FilterId) (v : Word16) : Statement (.testU16 fid v) := commandWord_fields _ _ _ _ _ (by simp [Opcode.fieldsOk, Instr.opcode, Instr.concBit, Instr.sfid])
theorem testU32 (fid : FilterId) (v : Word32) : Statement (.testU32 fid v) := commandWord_fields _ _ _ _ _ (by simp [Opcode.fieldsOk, Instr.opcode, Instr.concBit, Instr.sfid])
theorem testU64 (fid : FilterId) (v : Word64) : Statement (.testU64 fid v) := commandWord_fields _ _ _ _ _ (by simp [Opcode.fieldsOk, Instr.opcode, Instr.concBit, Instr.sfid])
theorem merge (fid sfid : FilterId) : Statement (.merge fid sfid) := commandWord_fields _ _ _ _ _ (by simp [Opcode.fieldsOk, Instr.opcode, Instr.concBit, Instr.sfid])
theorem reset (fid : FilterId) : Statement (.reset fid) := commandWord_fields _ _ _ _ _ (by simp [Opcode.fieldsOk, Instr.opcode, Instr.concBit, Instr.sfid])
theorem cap (fid : FilterId) : Statement (.cap fid) := commandWord_fields _ _ _ _ _ (by simp [Opcode.fieldsOk, Instr.opcode, Instr.concBit, Instr.sfid])
theorem size (fid : FilterId) : Statement (.size fid) := commandWord_fields _ _ _ _ _ (by simp [Opcode.fieldsOk, Instr.opcode, Instr.concBit, Instr.sfid])
theorem fpr (fid : FilterId) : Statement (.fpr fid) := commandWord_fields _ _ _ _ _ (by simp [Opcode.fieldsOk, Instr.opcode, Instr.concBit, Instr.sfid])

end Sys2Proof.Laws.EncodedWord
end

