-- ==== Sys2Proof/Tests/Slice0.lean ====
section
/-! SUPPORT. The model's own tests. Expected results come from the spec: the encodings of 30_encoding.md R128, the
vectors of 95_test_vectors.md (the section is named at each test), and the rules. -/

namespace Sys2Proof.Tests

open Sys2Proof.Machine

/-! ### Helpers -/

/-- The hash values that 95_test_vectors.md section 0 assumes. -/
def hashes : List HashEntry :=
  let bloom : List Byte := [0x62, 0x6C, 0x6F, 0x6F, 0x6D]
  let zzz : List Byte := [0x7A, 0x7A, 0x7A, 0x2D, 0x6E, 0x6F, 0x74, 0x2D, 0x61, 0x64, 0x64, 0x65, 0x64]
  let ones : List Byte := List.replicate 8 0xFF
  let zeros : List Byte := List.replicate 8 0x00
  let dead : List Byte := [0xEF, 0xBE, 0xAD, 0xDE]
  [⟨bloom, 0x0123456789ABCDEF, 0xFEDCBA9876543210⟩, ⟨bloom ++ [1], 0x0F1E2D3C4B5A6978, 0x8877665544332211⟩,
   ⟨zzz, 0x1111111111111111, 0x2222222222222222⟩, ⟨zzz ++ [1], 0x3333333333333333, 0x4444444444444444⟩,
   ⟨ones, 0xFFFFFFFFFFFFFFFF, 0xFFFFFFFFFFFFFFFF⟩, ⟨ones ++ [1], 0xFFFFFFFFFFFFFFFF, 0xFFFFFFFFFFFFFFFF⟩,
   ⟨zeros, 0, 0⟩, ⟨zeros ++ [1], 0, 0⟩,
   ⟨[1, 0], 0x3F8, 7⟩, ⟨[1, 0, 1], 8, 0x10⟩,
   ⟨dead, 0xDEADBEEFCAFEBABE, 0x0BADF00D12345678⟩, ⟨dead ++ [1], 0x9E3779B97F4A7C15, 0xC2B2AE3D27D4EB4F⟩,
   ⟨[], 0x10, 0x20⟩, ⟨[1], 0x30, 0x40⟩]

def bloom : List Byte := [0x62, 0x6C, 0x6F, 0x6F, 0x6D]
def zzz : List Byte := [0x7A, 0x7A, 0x7A, 0x2D, 0x6E, 0x6F, 0x74, 0x2D, 0x61, 0x64, 0x64, 0x65, 0x64]

/-- A configured bank of `2^l` bytes and `k` probes. -/
def bank (l : Nat) (k : Word32) (conc : Bool) (storage : List Host.Cell) (count : Word64) : Bank :=
  { cfg := true, conc := conc, log2len := BitVec.ofNat 6 l, bitlen := BitVec.ofNat 64 (2 ^ l), k := k, count := count,
    storage := storage, guard := Guard.free }

/-- Two banks, two IDLE ports, 2^16 bytes a bank; port 0's turn. -/
def machine (b0 b1 : Bank) : State :=
  { params := { log2MaxBytes := 16, hashTable := hashes }, banks := [b0, b1], ports := [Port.idle, Port.idle]
    cur := 0, agenda := [] }

def fresh1024 : Bank := bank 10 3 false [] 0
def fresh8 : Bank := bank 3 3 false [] 0
/-- f0 of program P2 before its MERGE. -/
def one8 : Bank := bank 3 3 false [(2, 0x80), (3, 0x01), (7, 0x01)] 1
/-- f1 of program P2. -/
def dead8 : Bank := bank 3 3 false [(0, 0x80), (3, 0x10), (7, 0x40)] 1
/-- f1 of program P3 after its first line, and after its second. -/
def fresh16c : Bank := bank 4 2 true [] 0
def batch16c : Bank := bank 4 2 true [(0, 0x01), (15, 0xC0)] 2

/-- The next state, where there is one. -/
def nextState : Host.Outcome State Fault Refusal → Option State
  | .next t => some t
  | .fault _ => none
  | .refused _ => none

/-- Storage and COUNT of bank `f` after it. -/
def stored (f : Nat) (o : Host.Outcome State Fault Refusal) : Option (List Host.Cell × Word64) :=
  (nextState o).bind (fun t => (t.bank? f).map (fun b => (b.storage, b.count)))

/-- The last response delivered to port 0 after it. -/
def reply (o : Host.Outcome State Fault Refusal) : Option Response :=
  (nextState o).bind (fun t => (t.port? 0).bind (fun port => port.delivered.getLast?))

def decoded (bs : List Byte) : Option Instr :=
  match decode bs with
  | .ok i => some i
  | .error _ => none

def rejected (bs : List Byte) : Option Status :=
  match decode bs with
  | .ok _ => none
  | .error e => some e

theorem next_of_nextState {o : Host.Outcome State Fault Refusal} {t : State} (h : nextState o = some t) :
    o = .next t := by
  cases o <;> simp_all [nextState]

/-! ### Well-formedness: an ill-formed term for each check -/

theorem not_fitsU32 {n : Nat} (h : n = 2 ^ 32) : fitsU32 n = false := by simp [fitsU32, h]

theorem test_wf_refuses_long_key : (Instr.add 0 (List.replicate (2 ^ 32) 0)).wf = false :=
  not_fitsU32 List.length_replicate
theorem test_wf_refuses_long_str_key : (Instr.addStr 0 (List.replicate (2 ^ 32) 0)).wf = false :=
  not_fitsU32 List.length_replicate
theorem test_wf_refuses_long_test_key : (Instr.test 0 (List.replicate (2 ^ 32) 0)).wf = false :=
  not_fitsU32 List.length_replicate
theorem test_wf_refuses_long_test_str_key : (Instr.testStr 0 (List.replicate (2 ^ 32) 0)).wf = false :=
  not_fitsU32 List.length_replicate
theorem wf_addb_length {keys : List (List Byte)} (h : keys.length = 2 ^ 32) : (Instr.addb 0 keys).wf = false := by
  simp [Instr.wf, not_fitsU32 h]
theorem test_wf_refuses_long_batch : (Instr.addb 0 (List.replicate (2 ^ 32) [])).wf = false :=
  wf_addb_length List.length_replicate
theorem wf_addb_singleton {key : List Byte} (h : key.length = 2 ^ 32) : (Instr.addb 0 [key]).wf = false := by
  simp [Instr.wf, not_fitsU32 h]
theorem test_wf_refuses_long_batch_key : (Instr.addb 0 [List.replicate (2 ^ 32) 0]).wf = false :=
  wf_addb_singleton List.length_replicate
theorem test_wf_refuses_long_u16_batch : (Instr.addbU16 0 (List.replicate (2 ^ 32) 0)).wf = false :=
  not_fitsU32 List.length_replicate
theorem test_wf_refuses_long_u32_batch : (Instr.addbU32 0 (List.replicate (2 ^ 32) 0)).wf = false :=
  not_fitsU32 List.length_replicate
theorem test_wf_refuses_long_u64_batch : (Instr.addbU64 0 (List.replicate (2 ^ 32) 0)).wf = false :=
  not_fitsU32 List.length_replicate

/-! ### Decoding: every command by bytes the spec writes out -/

/-- R128. -/
theorem test_decode_config : decoded [0x21, 1, 0, 0, 0, 4, 0, 0, 0, 0, 0, 0, 3, 0, 0, 0] =
    some (.config 1 true 1024 3) := by decide
/-- 95 section 2.4. -/
theorem test_decode_add : decoded [2, 0, 0, 0, 5, 0, 0, 0, 0x62, 0x6C, 0x6F, 0x6F, 0x6D] =
    some (.add 0 bloom) := by decide
/-- R128. -/
theorem test_decode_addStr : decoded [3, 0, 0, 0, 5, 0, 0, 0, 0x62, 0x6C, 0x6F, 0x6F, 0x6D] =
    some (.addStr 0 bloom) := by decide
/-- 95 section 2.4. -/
theorem test_decode_addU16 : decoded [4, 0, 0, 0, 1, 0] = some (.addU16 0 1) := by decide
/-- R128. -/
theorem test_decode_addU32 : decoded [5, 1, 0, 0, 0xEF, 0xBE, 0xAD, 0xDE] = some (.addU32 1 0xDEADBEEF) := by decide
/-- R164, R115. -/
theorem test_decode_addU64 : decoded [6, 0, 0, 0, 1, 2, 3, 4, 5, 6, 7, 8] =
    some (.addU64 0 0x0807060504030201) := by decide
/-- R128. -/
theorem test_decode_addb : decoded [7, 0, 0, 0, 2, 0, 0, 0, 1, 0, 0, 0, 0x61, 0, 0, 0, 0] =
    some (.addb 0 [[0x61], []]) := by decide
/-- R128. -/
theorem test_decode_addbU16 : decoded [8, 0, 0, 0, 2, 0, 0, 0, 1, 0, 3, 2] =
    some (.addbU16 0 [1, 0x0203]) := by decide
/-- R172. -/
theorem test_decode_addbU32 : decoded [9, 0, 0, 0, 1, 0, 0, 0, 7, 0, 0, 0] = some (.addbU32 0 [7]) := by decide
/-- 95 section 2.5. -/
theorem test_decode_addbU64 : decoded [0x0A, 1, 0, 0, 2, 0, 0, 0, 0, 0, 0, 0, 0, 0, 0, 0, 0xFF, 0xFF, 0xFF, 0xFF,
    0xFF, 0xFF, 0xFF, 0xFF] = some (.addbU64 1 [0, 0xFFFFFFFFFFFFFFFF]) := by decide
/-- 95 section 2.6. -/
theorem test_decode_test : decoded [0x0B, 0, 0, 0, 5, 0, 0, 0, 0x62, 0x6C, 0x6F, 0x6F, 0x6D] =
    some (.test 0 bloom) := by decide
/-- R128. -/
theorem test_decode_testStr : decoded [0x0C, 0, 0, 0, 5, 0, 0, 0, 0x62, 0x6C, 0x6F, 0x6F, 0x6D] =
    some (.testStr 0 bloom) := by decide
/-- 95 section 2.6. -/
theorem test_decode_testU16 : decoded [0x0D, 1, 0, 0, 1, 0] = some (.testU16 1 1) := by decide
/-- 95 section 2.6. -/
theorem test_decode_testU32 : decoded [0x0E, 0, 0, 0, 0xEF, 0xBE, 0xAD, 0xDE] =
    some (.testU32 0 0xDEADBEEF) := by decide
/-- 95 section 2.6. -/
theorem test_decode_testU64 : decoded [0x0F, 0, 0, 0, 0xFF, 0xFF, 0xFF, 0xFF, 0xFF, 0xFF, 0xFF, 0xFF] =
    some (.testU64 0 0xFFFFFFFFFFFFFFFF) := by decide
/-- R128, 95 section 2.12. -/
theorem test_decode_merge : decoded [0x10, 0, 1, 0] = some (.merge 0 1) := by decide
/-- 95 section 3, P3. -/
theorem test_decode_reset : decoded [0x11, 1, 0, 0] = some (.reset 1) := by decide
/-- R128. -/
theorem test_decode_cap : decoded [0x12, 1, 0, 0] = some (.cap 1) := by decide
/-- 95 section 3, P2. -/
theorem test_decode_size : decoded [0x13, 1, 0, 0] = some (.size 1) := by decide
/-- 95 section 2.9. -/
theorem test_decode_fpr : decoded [0x14, 0, 0, 0] = some (.fpr 0) := by decide

/-- The encoder writes R128's bytes. -/
theorem test_encode_config : encode (.config 1 true 1024 3) = [0x21, 1, 0, 0, 0, 4, 0, 0, 0, 0, 0, 0, 3, 0, 0, 0] := by
  decide
theorem test_encode_addb : encode (.addb 0 [[0x61], []]) =
    [7, 0, 0, 0, 2, 0, 0, 0, 1, 0, 0, 0, 0x61, 0, 0, 0, 0] := by decide

/-- R126, R128: a batch, its braces written by their ASCII codes. -/
theorem test_assemble_addb : assemble ("ADDB f0, ".toList ++ [Char.ofNat 123] ++ "\"a\", \"\"".toList ++ [Char.ofNat 125]) =
    .command 0 (.addb 0 [[0x61], []]) := by decide
/-- R126: a value that its width can't hold, and a line that is a comment. -/
theorem test_assemble_wrong : assemble "ADD.U16 f0, 65536".toList = .wrong ∧ assemble "  ; nothing".toList = .blank := by
  decide

/-- 95 section 2.11, the packet checks that come before the bank checks. -/
theorem test_rejected_opcodes_and_fields :
    [[0x12, 0], [], [0, 0, 0, 0], [0x15, 0, 0, 0], [0xFF, 0, 0, 0], [0x32, 0, 0, 0], [0x52, 0, 0, 0],
      [0x12, 0, 1, 0], [0x12, 0, 0, 0x80], [0x30, 0, 1, 0], [0x10, 0, 5, 1]].map rejected =
    [some .length, some .length, some .illegalOpcode, some .illegalOpcode, some .illegalOpcode, some .reservedField,
      some .reservedField, some .reservedField, some .reservedField, some .reservedField, some .reservedField] := by
  decide
/-- 95 sections 2.5 and 2.11, the lengths. -/
theorem test_rejected_lengths :
    [[0x12, 0, 0, 0, 0], [0x10, 0, 1, 0, 0], [2, 0, 0, 0, 0, 0], [2, 0, 0, 0, 5, 0, 0, 0, 0x61], [4, 0, 0, 0, 1, 0, 0, 0],
      [8, 0, 0, 0, 2, 0, 0, 0, 1, 0], [7, 0, 0, 0, 1, 0, 0, 0, 2, 0]].map rejected = List.replicate 7 (some .length) := by
  decide

/-! ### Hash positions and locations (95 sections 2.2 and 2.3) -/

def hA : HashQuad := ⟨0x0123456789ABCDEF, 0xFEDCBA9876543210, 0x0F1E2D3C4B5A6978, 0x8877665544332211⟩

theorem test_probePosition : [0, 1, 2, 3, 4, 0xFFFFFFFE, 0xFFFFFFFF].map (probePosition hA) =
    [0x0123456789ABCDEF, 0x875420EDBA875421, 0x1212121212121211, 0x2C37424D58636E78, 0x3D9BFA58B71573CF,
      0x34679ACE014589CD, 0x3B18F6D42AF9C898] := by decide
theorem test_locate : [(0x0123456789ABCDEF, 1024), (0xFFFFFFFFFFFFFFFF, 1), (0xFFFFFFFFFFFFFFFF, 65536),
      (0x2000, 1024), (0x3F8, 8)].map (fun x : Word64 × Word64 => (slotOf x.2 x.1, offsetOf x.1)) =
    [(445, 7), (0, 7), (65535, 7), (0, 0), (7, 0)] := by decide
theorem test_baseHash : baseHash { log2MaxBytes := 16, hashTable := hashes } bloom = hA := by decide
/-- 95 section 2.1. -/
theorem test_ceilLog2 : [1, 2, 3, 4, 5, 8, 9, 17, 1000, 1025].map ceilLog2 = [0, 1, 2, 2, 3, 3, 4, 5, 10, 11] := by
  decide
/-- R128's response to CAP f1. -/
theorem test_response_packet : (Response.success 1024).packet = [0, 0, 0, 0, 0, 0, 0, 0, 0, 4, 0, 0, 0, 0, 0, 0] := by
  decide

/-! ### The commands, one step each -/

/-- 95 section 2.10: re-creation of a bank that holds bits. -/
theorem test_config : ((nextState (exec (.config 0 false 16 2) (machine one8 dead8))).bind (·.bank? 0)) =
    some (bank 4 2 false [] 0) := by decide
/-- 95 section 2.10: one above the largest capacity. -/
theorem test_config_too_large : reply (exec (.config 0 false 65537 3) (machine one8 dead8)) =
    some ⟨.configInvalid, 0⟩ := by decide
/-- 95 section 2.4. -/
theorem test_add : stored 0 (exec (.add 0 bloom) (machine fresh1024 dead8)) =
    some ([(445, 0x80), (578, 0x02), (644, 0x02)], 1) := by decide
/-- 95 section 2.4: COUNT wraps. -/
theorem test_add_count_wraps : (stored 0 (exec (.add 0 []) (machine (bank 10 3 false [] 0xFFFFFFFFFFFFFFFF) dead8))).map
    (·.2) = some 0 := by decide
/-- 95 section 2.4: the same key again. -/
theorem test_addStr : stored 0 (exec (.addStr 0 bloom)
    (machine (bank 10 3 false [(445, 0x80), (578, 0x02), (644, 0x02)] 1) dead8)) =
    some ([(445, 0x80), (578, 0x02), (644, 0x02)], 2) := by decide
/-- 95 section 2.4: repeated probes. -/
theorem test_addU16 : stored 0 (exec (.addU16 0 1) (machine (bank 3 8 false [] 0) dead8)) =
    some ([(2, 0x80), (3, 0x81), (7, 0x81)], 1) := by decide
/-- 95 section 2.4: BITLEN 1. -/
theorem test_addU16_one_byte : stored 0 (exec (.addU16 0 1) (machine (bank 0 1 false [] 0) dead8)) =
    some ([(0, 0x01)], 1) := by decide
/-- 95 section 2.4. -/
theorem test_addU32 : stored 0 (exec (.addU32 0 0xDEADBEEF) (machine fresh8 dead8)) =
    some ([(0, 0x80), (3, 0x10), (7, 0x40)], 1) := by decide
/-- 95 section 2.4. -/
theorem test_addU64 : stored 0 (exec (.addU64 0 0) (machine fresh8 dead8)) = some ([(0, 0x01)], 1) := by decide
/-- 95 section 2.5. -/
theorem test_addb : stored 0 (exec (.addb 0 [bloom, bloom, []]) (machine fresh1024 dead8)) =
    some ([(2, 0x01), (12, 0x01), (18, 0x01), (445, 0x80), (578, 0x02), (644, 0x02)], 3) := by decide
/-- 95 section 2.5. -/
theorem test_addb_empty : stored 0 (exec (.addb 0 []) (machine one8 dead8)) = some (one8.storage, 1) := by decide
/-- 95 section 2.5. -/
theorem test_addbU16 : stored 0 (exec (.addbU16 0 [1]) (machine fresh8 dead8)) = some (one8.storage, 1) := by decide
/-- 95 section 2.5. -/
theorem test_addbU32 : stored 0 (exec (.addbU32 0 [0xDEADBEEF, 0xDEADBEEF]) (machine fresh8 dead8)) =
    some (dead8.storage, 2) := by decide
/-- 95 section 2.5: under the guard of a CONC = 1 bank. -/
theorem test_addbU64 : stored 1 (exec (.addbU64 1 [0, 0xFFFFFFFFFFFFFFFF]) (machine fresh8 fresh16c)) =
    some (batch16c.storage, 2) := by decide
/-- 95 section 2.6: the short-circuit at the first probe. -/
theorem test_test : reply (exec (.test 0 zzz) (machine (bank 10 3 false [(445, 0x80), (578, 0x02), (644, 0x02)] 1) dead8)) =
    some ⟨.ok, 0⟩ := by decide
/-- 95 section 2.6. -/
theorem test_testStr : reply (exec (.testStr 0 bloom)
    (machine (bank 10 3 false [(445, 0x80), (578, 0x02), (644, 0x02)] 1) dead8)) = some ⟨.ok, 1⟩ := by decide
/-- 95 section 2.6. -/
theorem test_testU16 : reply (exec (.testU16 0 1) (machine one8 dead8)) = some ⟨.ok, 1⟩ := by decide
/-- 95 section 3, P2: f1 stops at (7,0). -/
theorem test_testU16_absent : reply (exec (.testU16 1 1) (machine one8 dead8)) = some ⟨.ok, 0⟩ := by decide
/-- 95 section 2.6. -/
theorem test_testU32 : reply (exec (.testU32 1 0xDEADBEEF) (machine one8 dead8)) = some ⟨.ok, 1⟩ := by decide
/-- 95 section 2.6: BITLEN 1, bit 7 of byte 0. -/
theorem test_testU64 : reply (exec (.testU64 0 0xFFFFFFFFFFFFFFFF) (machine (bank 0 1 false [(0, 0x01)] 1) dead8)) =
    some ⟨.ok, 0⟩ := by decide
/-- 95 section 2.7. -/
theorem test_merge : stored 0 (exec (.merge 0 1) (machine one8 dead8)) =
    some ([(0, 0x80), (2, 0x80), (3, 0x11), (7, 0x41)], 1) := by decide
/-- 95 section 2.7: MISMATCH before UNSUPPORTED. -/
theorem test_merge_mismatch : reply (exec (.merge 0 1) (machine one8 batch16c)) = some ⟨.mismatch, 0⟩ := by decide
/-- 95 section 2.8. -/
theorem test_reset : stored 0 (exec (.reset 0) (machine one8 dead8)) = some ([], 0) := by decide
/-- 95 section 2.8. -/
theorem test_reset_unconfigured : reply (exec (.reset 0) State.reset) = some ⟨.unconfigured, 0⟩ := by decide
/-- 95 section 3, P3, line 13. -/
theorem test_cap : reply (exec (.cap 1) (machine one8 batch16c)) = some ⟨.ok, 16⟩ := by decide
/-- 95 section 2.11. -/
theorem test_cap_no_bank : reply (exec (.cap 2) (machine one8 batch16c)) = some ⟨.badFilterId, 0⟩ := by decide
/-- 95 section 3, P3, line 3. -/
theorem test_size : reply (exec (.size 1) (machine one8 batch16c)) = some ⟨.ok, 2⟩ := by decide
/-- 95 section 2.9: the estimate is FPR_FN(3, 1, 8). -/
theorem test_fpr : reply (exec (.fpr 0) (machine one8 dead8)) = some ⟨.ok, Config.fprFn.rate 3 1 8⟩ := by rfl
/-- R237 item 3. -/
theorem test_fpr_zero : reply (exec (.fpr 0) (machine fresh8 dead8)) = some ⟨.ok, 0⟩ := by
  rw [show reply (exec (.fpr 0) (machine fresh8 dead8)) = some ⟨.ok, Config.fprFn.rate 3 0 8⟩ by rfl,
    Config.fprFn.atZero 3 8 (by decide) (by decide)]


/-! ### Micro-steps, one each -/

/-- Program P4 with both commands at their first SetBit: f0 is 8 bytes with CONC = 0, port 0 adds `le_16(1)`, port 1
adds `le_32(0xDEADBEEF)`. -/
def addU16InFlight : InFlight :=
  { request := encode (.addU16 0 1), admitted := true, latch := Latch.start
    todo := program { log2MaxBytes := 16, hashTable := hashes } fresh8 (.addU16 0 1) }
def addU32InFlight : InFlight :=
  { request := encode (.addU32 0 0xDEADBEEF), admitted := true, latch := Latch.start
    todo := program { log2MaxBytes := 16, hashTable := hashes } fresh8 (.addU32 0 0xDEADBEEF) }
def racing : State :=
  { machine fresh8 dead8 with ports := [{ Port.idle with inFlight := some addU16InFlight },
      { Port.idle with inFlight := some addU32InFlight }] }

/-- R77, P4 step 2: the first micro-step of SetBit reads and writes nothing. -/
theorem test_setRead : stored 0 (microMove 0 racing) = some ([], 0) := by decide
/-- R90: port 1 waits for the lock port 0 holds. -/
theorem test_wait : ((nextState (exec (.addU16 1 1) { machine fresh8
      { fresh16c with guard := { Guard.free with writer := some 1 } } with cur := 0 })).bind (·.bank? 1)).map (·.guard) =
    some { Guard.free with writer := some 1, waiting := [0] } := by decide
/-- R90: a command that its admission step brings to an acquisition that is not enabled is among the waiting ones. -/
theorem test_admission_waits : ((nextState (microMove 0 { machine { fresh16c with guard :=
      { Guard.free with writer := some 1 } } dead8 with
      ports := [{ Port.idle with inFlight := some (InFlight.accepted (encode (.size 0))) }, Port.idle] })).bind
        (·.bank? 0)).map (·.guard.waiting) = some [0] := by decide
/-- R331: a run has not ended while the host has a request to offer. -/
theorem test_not_at_rest : State.reset.atRest ∧ ¬ ({ State.reset with agenda := [.offer 0 [0x12, 0, 0, 0]] }).atRest :=
  ⟨by unfold State.atRest; decide, fun h => by simpa [Move.isOffer] using h.2⟩
/-- R310: power-on reset abandons what is in flight, and every bank is unconfigured. -/
theorem test_powerOn : ((nextState (step { racing with agenda := [.powerOn] })).map (·.banks)) =
    some [Bank.unconfigured, Bank.unconfigured] := by decide
/-- The first step after a placed word runs it: SIZE f0 of an unconfigured bank (95 section 2.11). -/
theorem test_withFetchWord : reply (step (State.reset.withFetchWord 32 0x13)) = some ⟨.unconfigured, 0⟩ := by decide

/-! ### Witnesses: states and operands that meet the hypotheses of each statement together -/

theorem idle_machine (b0 b1 : Bank) : (machine b0 b1).idleTurn := ⟨_, rfl, rfl⟩

theorem legal_bank8 (storage : List Host.Cell) (count : Word64) (conc : Bool) :
    (bank 3 3 conc storage count).legal 16 :=
  ⟨(by decide : 3 ≤ 16), rfl, (by decide : (3 : Word32) ≠ 0)⟩
theorem legal_bank16 (storage : List Host.Cell) (count : Word64) : (bank 4 2 true storage count).legal 16 :=
  ⟨(by decide : 4 ≤ 16), rfl, (by decide : (2 : Word32) ≠ 0)⟩

theorem fitsU32_longest {n : Nat} (h : n = 2 ^ 32 - 1) : fitsU32 n = true := by simp [fitsU32, h]
/-- DecodeOfEncode and StreamLengthOfPacket, at the longest key and an empty batch. -/
theorem witness_wf : (Instr.add 0 (List.replicate (2 ^ 32 - 1) 0)).wf = true ∧ (Instr.addb 0 []).wf = true :=
  ⟨fitsU32_longest List.length_replicate, by decide⟩
/-- EncodeOfDecode. -/
theorem witness_decodes : decode [0x10, 0, 1, 0] = .ok (.merge 0 1) := by rfl
/-- SelectionPatterns, third and fourth clauses. -/
theorem witness_SelectionPatterns :
    (Opcode.cap ≠ .config ∧ Opcode.cap ≠ .merge) ∧
    (4 ≤ ([0x32, 0, 0, 0] : List Byte).length ∧
      ∀ op : Opcode, commandWord [0x32, 0, 0, 0] &&& op.selectMask ≠ op.code.setWidth 32) ∧
    (4 ≤ ([0x15, 0, 0, 0] : List Byte).length ∧
      ∀ op : Opcode, commandWord [0x15, 0, 0, 0] &&& op.selectMask ≠ op.code.setWidth 32) := by
  refine ⟨by decide, ⟨by decide, ?_⟩, ⟨by decide, ?_⟩⟩ <;> (intro op; cases op <;> decide)
/-- IllegalAndReservedRefused, both clauses, and its boundary opcodes. -/
theorem witness_IllegalAndReservedRefused :
    State.reset.idleTurn ∧ Opcode.ofBits (cmdOp (commandWord [0x15, 0, 0, 0])) = none ∧
    Opcode.ofBits (cmdOp (commandWord [0x34, 0, 0, 0])) = some .fpr ∧
    commandWord [0x34, 0, 0, 0] &&& Opcode.reservedMask .fpr ≠ 0 := by
  refine ⟨⟨_, rfl, rfl⟩, ?_⟩; decide
/-- ProbeIndexPattern, each clause, at the largest probe indices (R253). -/
theorem witness_ProbeIndexPattern :
    0xFFFFFFFC % 4 = 0 ∧ 0xFFFFFFFD % 4 = 1 ∧ 0xFFFFFFFE % 4 = 2 ∧ 0xFFFFFFFB % 4 = 3 := by decide
/-- LocatedBit, BITLEN 1 and two positions that differ in ignored bits only. -/
theorem witness_LocatedBit : (bank 0 1 false [] 0).legal 0 ∧ (bank 0 1 false [] 0).bitlen = 1 ∧
    (0xFFFFFFFFFFFFFFFF : Word64).toNat % 2 ^ (3 + (bank 0 1 false [] 0).log2len.toNat) =
      (0x7 : Word64).toNat % 2 ^ (3 + (bank 0 1 false [] 0).log2len.toNat) :=
  ⟨⟨by decide, rfl, by decide⟩, rfl, by decide⟩
/-- CeilLog2Least. -/
theorem witness_CeilLog2Least : 1 ≤ 65537 ∧ 65537 ≤ 2 ^ 17 := by decide

/-- ConfigResult, CapIsPowerOfTwo and ConfigCapacityBound's first clause, at the largest capacity. -/
theorem witness_ConfigResult :
    State.reset.idleTurn ∧ State.reset.bank? (bankOf 0) = some Bank.unconfigured ∧
    Bank.unconfigured.guard = Guard.free ∧ Bank.unconfigured.guard.configPending = false ∧
    State.reset.othersName State.reset.cur (bankOf 0) = false ∧ State.reset.params.log2MaxBytes ≤ 61 ∧
    (65536 : Word64) ≠ 0 ∧ 1 ≤ (65536 : Word64).toNat ∧ (0xFFFFFFFF : Word32) ≠ 0 ∧
    (65536 : Word64).toNat = 2 ^ State.reset.params.log2MaxBytes := by
  refine ⟨⟨_, rfl, rfl⟩, ?_⟩; decide
/-- ConfigResult at the smallest capacity, on a configured CONC = 1 bank. -/
theorem witness_ConfigResult_again :
    (machine one8 batch16c).idleTurn ∧ (machine one8 batch16c).bank? (bankOf 1) = some batch16c ∧
    batch16c.guard.configPending = false ∧ (machine one8 batch16c).othersName 0 (bankOf 1) = false ∧
    (machine one8 batch16c).params.log2MaxBytes ≤ 61 ∧ (1 : Word64) ≠ 0 ∧ (1 : Word32) ≠ 0 ∧
    (1 : Word64).toNat ≤ 2 ^ (machine one8 batch16c).params.log2MaxBytes := by
  refine ⟨idle_machine _ _, ?_⟩; decide
/-- ConfigValidation, each disjunct, and ConfigCapacityBound's second clause at both its bounds. -/
theorem witness_ConfigValidation :
    State.reset.idleTurn ∧ bankOf 1 < State.reset.banks.length ∧ (0 : Word64) = 0 ∧ (0 : Word32) = 0 ∧
    2 ^ State.reset.params.log2MaxBytes < (65537 : Word64).toNat ∧
    (65537 : Word64).toNat = 2 ^ State.reset.params.log2MaxBytes + 1 ∧
    2 ^ 63 + 1 ≤ (0x8000000000000001 : Word64).toNat := by
  refine ⟨⟨_, rfl, rfl⟩, ?_⟩; decide

/-- The writing commands' statements on a bank with CONC = 0: AddResults, AddBatchResults, ResetResult, CodecBytes,
CountPerKey, BatchEquivalence. -/
theorem witness_readyToWrite : (machine one8 dead8).readyToWrite (bankOf 0) one8 ∧ Memory.wf one8.storage :=
  ⟨⟨idle_machine _ _, ⟨rfl, rfl, rfl, legal_bank8 _ _ _⟩, fun h => by cases h⟩, by decide⟩
/-- The same on a bank with CONC = 1. -/
theorem witness_readyToWrite_conc : (machine one8 batch16c).readyToWrite (bankOf 1) batch16c ∧
    Memory.wf batch16c.storage :=
  ⟨⟨idle_machine _ _, ⟨rfl, rfl, rfl, legal_bank16 _ _⟩, fun _ => ⟨rfl, rfl, by decide⟩⟩, by decide⟩
/-- The read-only commands' statements: TestResults, StatisticsResults, ReadsRepeat. -/
theorem witness_readyToRead : (machine one8 dead8).readyToRead (bankOf 0) one8 ∧ isReading (.fpr 0) = true :=
  ⟨⟨idle_machine _ _, ⟨rfl, rfl, rfl, legal_bank8 _ _ _⟩, fun h => by cases h⟩, rfl⟩
/-- The same on a bank with CONC = 1 that another port reads. -/
theorem witness_readyToRead_conc :
    (machine one8 { batch16c with guard := { Guard.free with readers := [1] } }).readyToRead (bankOf 1)
      { batch16c with guard := { Guard.free with readers := [1] } } :=
  ⟨idle_machine _ _, ⟨rfl, rfl, rfl, ⟨by decide, rfl, by decide⟩⟩, fun _ => ⟨rfl, by decide, by decide⟩⟩
/-- MergeResult and MergeMonotone: P2's merge. -/
theorem witness_MergeResult : (machine one8 dead8).readyToWrite (bankOf 0) one8 ∧
    (machine one8 dead8).holdsBank (bankOf 1) dead8 ∧ Memory.wf one8.storage ∧ one8.bitlen = dead8.bitlen ∧
    one8.k = dead8.k ∧ dead8.conc = false :=
  ⟨witness_readyToWrite.1, ⟨rfl, rfl, rfl, legal_bank8 _ _ _⟩, by decide⟩
/-- MergeResult for a self-merge, and SelfMerge where CONC is 0. -/
theorem witness_self_merge : (machine one8 dead8).readyToWrite (bankOf 0) one8 ∧
    (machine one8 dead8).holdsBank (bankOf 0) one8 ∧ one8.conc = false ∧ Memory.wf one8.storage :=
  ⟨witness_readyToWrite.1, witness_readyToWrite.1.2.1, by decide⟩
/-- SelfMerge where CONC is 1. -/
theorem witness_self_merge_conc : (machine one8 batch16c).idleTurn ∧
    (machine one8 batch16c).holdsBank (bankOf 1) batch16c ∧ batch16c.conc = true ∧ Memory.wf batch16c.storage :=
  ⟨idle_machine _ _, ⟨rfl, rfl, rfl, legal_bank16 _ _⟩, by decide⟩
/-- MergePreconditions: MISMATCH, and UNSUPPORTED. -/
theorem witness_MergePreconditions :
    ((machine one8 batch16c).holdsBank (bankOf 0) one8 ∧ (machine one8 batch16c).holdsBank (bankOf 1) batch16c ∧
      one8.bitlen ≠ batch16c.bitlen) ∧
    ((machine (bank 4 2 true [] 0) batch16c).holdsBank (bankOf 0) (bank 4 2 true [] 0) ∧
      (machine (bank 4 2 true [] 0) batch16c).holdsBank (bankOf 1) batch16c ∧
      (bank 4 2 true [] 0).bitlen = batch16c.bitlen ∧ (bank 4 2 true [] 0).k = batch16c.k ∧ batch16c.conc = true) :=
  ⟨⟨⟨rfl, rfl, rfl, legal_bank8 _ _ _⟩, ⟨rfl, rfl, rfl, legal_bank16 _ _⟩, by decide⟩,
    ⟨⟨rfl, rfl, rfl, legal_bank16 _ _⟩, ⟨rfl, rfl, rfl, legal_bank16 _ _⟩, by decide⟩⟩
/-- ConfigCapacityBound's third clause: a bank made with CONC set, and a destination of its size. -/
theorem witness_ConfigCapacityBound :
    ∃ t bs, exec (.config 1 true 16 2) (machine (bank 4 2 true [] 0) dead8) = .next t ∧
      t.holdsBank (bankOf 0) (bank 4 2 true [] 0) ∧ t.bank? (bankOf 1) = some bs ∧
      (bank 4 2 true [] 0).bitlen = bs.bitlen ∧ (bank 4 2 true [] 0).k = bs.k := by
  refine ⟨{ machine (bank 4 2 true [] 0) (bank 4 2 true [] 0) with
    ports := [{ Port.idle with delivered := [⟨.ok, 0⟩] }, Port.idle] }, bank 4 2 true [] 0,
    next_of_nextState (by decide), ⟨rfl, rfl, rfl, legal_bank16 _ _⟩, rfl, rfl, rfl⟩

/-- ChecksInOrder, each clause: a short packet, an illegal opcode with reserved bits, reserved bits with a wrong length,
a wrong length, a bad SFID, a bad CONFIG, an unconfigured bank, and MERGEs that end MISMATCH and UNSUPPORTED. -/
theorem witness_ChecksInOrder :
    (State.reset.idleTurn ∧ (machine one8 batch16c).idleTurn ∧ (machine fresh16c batch16c).idleTurn) ∧
    ([0x12, 0] : List Byte).length < 4 ∧
    Opcode.ofBits (cmdOp (commandWord [0xFF, 0, 0, 0])) = none ∧
    (Opcode.ofBits (cmdOp (commandWord [0x32, 0, 0, 0, 0])) = some .cap ∧
      commandWord [0x32, 0, 0, 0, 0] &&& Opcode.reservedMask .cap ≠ 0) ∧
    (Opcode.ofBits (cmdOp (commandWord [0x10, 0, 1, 0, 0])) = some .merge ∧
      commandWord [0x10, 0, 1, 0, 0] &&& Opcode.reservedMask .merge = 0 ∧
      expectedLength .merge [0x10, 0, 1, 0, 0] ≠ some ([0x10, 0, 1, 0, 0] : List Byte).length) ∧
    (decoded [0x10, 0, 2, 0] = some (.merge 0 2) ∧ State.reset.banks.length ≤ bankOf (Instr.merge 0 2).sfid) ∧
    decoded [1, 0, 0, 0, 0, 0, 0, 0, 0, 0, 0, 0, 3, 0, 0, 0] = some (.config 0 false 0 3) ∧
    (decoded [0x10, 0, 1, 0] = some (.merge 0 1) ∧
      (∀ f ∈ namedBanks (.merge 0 1), f < State.reset.banks.length ∧ State.reset.configPending f = false) ∧
      (∃ f ∈ namedBanks (.merge 0 1), configured State.reset f = false)) ∧
    ((machine one8 batch16c).bank? (bankOf 0) = some one8 ∧ (machine one8 batch16c).bank? (bankOf 1) = some batch16c ∧
      (machine one8 batch16c).configPending (bankOf 0) = false ∧
      (machine one8 batch16c).configPending (bankOf 1) = false ∧ one8.cfg = true ∧ batch16c.cfg = true ∧
      one8.bitlen ≠ batch16c.bitlen) ∧
    ((machine fresh16c batch16c).bank? (bankOf 0) = some fresh16c ∧
      (machine fresh16c batch16c).bank? (bankOf 1) = some batch16c ∧ fresh16c.bitlen = batch16c.bitlen ∧
      fresh16c.k = batch16c.k ∧ batch16c.conc = true) := by
  refine ⟨⟨⟨_, rfl, rfl⟩, idle_machine _ _, idle_machine _ _⟩, ?_⟩
  decide
/-- ProbeList's second clause. -/
theorem witness_ProbeList : one8.k = dead8.k ∧ one8.bitlen = dead8.bitlen ∧ 2 < one8.k.toNat := by decide
/-- UnconfiguredRefused, and ErrorsWriteNothing through it. -/
theorem witness_UnconfiguredRefused :
    State.reset.idleTurn ∧ (Instr.merge 0 1).opcode ≠ .config ∧
    (∀ f ∈ namedBanks (.merge 0 1), f < State.reset.banks.length) ∧
    (∀ f ∈ namedBanks (.merge 0 1), State.reset.configPending f = false) ∧
    (∃ f ∈ namedBanks (.merge 0 1), configured State.reset f = false) := by
  refine ⟨⟨_, rfl, rfl⟩, ?_⟩; decide
/-- BadFilterIdRefused, through FID and through SFID. -/
theorem witness_BadFilterIdRefused :
    State.reset.idleTurn ∧ (∃ f ∈ namedBanks (.cap 2), State.reset.banks.length ≤ f) ∧
    (∃ f ∈ namedBanks (.merge 0 255), State.reset.banks.length ≤ f) := by
  refine ⟨⟨_, rfl, rfl⟩, ?_⟩; decide
/-- ErrorsWriteNothing. -/
theorem witness_ErrorsWriteNothing :
    State.reset.port? State.reset.cur = some Port.idle ∧ Port.idle.inFlight = none ∧
    exec (.size 0) State.reset = .next (State.reset.raise 0 .unconfigured) ∧
    (State.reset.raise 0 .unconfigured).port? State.reset.cur =
      some { Port.idle with delivered := [⟨.unconfigured, 0⟩] } ∧
    [⟨.unconfigured, 0⟩] = Port.idle.delivered ++ [(⟨.unconfigured, 0⟩ : Response)] ∧
    (⟨.unconfigured, 0⟩ : Response).status ≠ .ok :=
  ⟨by decide, by decide, next_of_nextState (by decide), by decide, by decide, by decide⟩
/-- CommandFrame, BankFrame and SetBitsStaySet. -/
theorem witness_CommandFrame : ∃ t, exec (.merge 0 1) (machine one8 dead8) = .next t ∧
    (machine one8 dead8).StorageInv ∧ (machine one8 dead8).bank? (bankOf 0) = some one8 ∧
    t.bank? (bankOf 0) = some (bank 3 3 false [(0, 0x80), (2, 0x80), (3, 0x11), (7, 0x41)] 1) ∧
    ¬ (isClearing (.merge 0 1) = true ∧ bankOf (Instr.merge 0 1).fid = 0) := by
  refine ⟨{ machine (bank 3 3 false [(0, 0x80), (2, 0x80), (3, 0x11), (7, 0x41)] 1) dead8 with
    ports := [{ Port.idle with delivered := [⟨.ok, 0⟩] }, Port.idle] }, next_of_nextState (by decide), ?_, by decide⟩
  unfold State.StorageInv Bank.storageOk
  decide

/-- BusyPortTakesNothing. -/
theorem witness_BusyPortTakesNothing :
    racing.port? racing.cur = some { Port.idle with inFlight := some addU16InFlight } ∧
    ({ Port.idle with inFlight := some addU16InFlight } : Port).inFlight = some addU16InFlight := ⟨rfl, rfl⟩
/-- InterlockHolds, first clause. -/
theorem witness_InterlockHolds_pending :
    (machine { one8 with guard := { Guard.free with configPending := true } } dead8).idleTurn ∧
    packetCheck (machine { one8 with guard := { Guard.free with configPending := true } } dead8) (.merge 1 0) = none ∧
    (∃ f ∈ namedBanks (.merge 1 0),
      (machine { one8 with guard := { Guard.free with configPending := true } } dead8).configPending f = true) := by
  refine ⟨idle_machine _ _, ?_⟩; decide
/-- InterlockHolds, second clause: port 1's ADD is admitted and names f0. -/
theorem witness_InterlockHolds_config :
    State.idleTurn { racing with ports := [Port.idle, { Port.idle with inFlight := some addU32InFlight }] } ∧
    packetCheck { racing with ports := [Port.idle, { Port.idle with inFlight := some addU32InFlight }] }
      (.config 0 true 8 3) = none ∧
    State.configPending { racing with ports := [Port.idle, { Port.idle with inFlight := some addU32InFlight }] }
      (bankOf 0) = false ∧
    State.othersName { racing with ports := [Port.idle, { Port.idle with inFlight := some addU32InFlight }] } 0
      (bankOf 0) = true := by
  refine ⟨⟨_, rfl, rfl⟩, ?_⟩; decide
/-- GuardMakesWait: a RESET while another port reads, a TEST while another port writes, and a MERGE into a bank that
another port reads. -/
theorem witness_GuardMakesWait :
    ((machine one8 { batch16c with guard := { Guard.free with readers := [1] } }).idleTurn ∧
      (Instr.reset 1).opcode = .reset ∧
      (machine one8 { batch16c with guard := { Guard.free with readers := [1] } }).bank? (bankOf (Instr.reset 1).fid) =
        some { batch16c with guard := { Guard.free with readers := [1] } } ∧ batch16c.cfg = true ∧ batch16c.conc = true) ∧
    ((machine one8 { batch16c with guard := { Guard.free with writer := some 1 } }).idleTurn ∧
      isReading (.testU16 1 1) = true ∧ (Instr.testU16 1 1).opcode ≠ .merge ∧ (some 1 : Option Nat) ≠ none) ∧
    ((machine (bank 4 2 false [] 0) { batch16c with guard := { Guard.free with readers := [1] } }).idleTurn ∧
      (Instr.merge 1 0).opcode = .merge ∧ ∃ bs,
      (machine (bank 4 2 false [] 0) { batch16c with guard := { Guard.free with readers := [1] } }).bank?
        (bankOf (Instr.merge 1 0).sfid) = some bs ∧ bs.cfg = true ∧ bs.guard.configPending = false ∧
      batch16c.bitlen = bs.bitlen ∧ batch16c.k = bs.k ∧ bs.conc = false) :=
  ⟨⟨idle_machine _ _, by decide⟩, ⟨idle_machine _ _, by decide⟩, idle_machine _ _, rfl, _, rfl, by decide⟩
/-- CountPerKey, for a batch. -/
theorem witness_CountPerKey : isInsertion (.addbU32 0 [1, 1]) = true ∧
    (machine one8 dead8).readyToWrite (bankOf (Instr.addbU32 0 [1, 1]).fid) one8 := ⟨rfl, witness_readyToWrite.1⟩
/-- BatchEquivalence: two orders of a batch. -/
theorem witness_BatchEquivalence : (machine one8 dead8).readyToWrite (bankOf 0) one8 ∧ Memory.wf one8.storage ∧
    [bloom, ([] : List Byte)].Perm [[], bloom] := ⟨witness_readyToWrite.1, witness_readyToWrite.2, .swap _ _ _⟩

/-- After P2's ADD of `le_16(1)` from port 0. -/
def afterAdd : State := { machine one8 dead8 with ports := [{ Port.idle with delivered := [⟨.ok, 0⟩] }, Port.idle] }
/-- After that, a MERGE of f1 into f0 from port 1. -/
def afterMerge : State :=
  { machine (bank 3 3 false [(0, 0x80), (2, 0x80), (3, 0x11), (7, 0x41)] 1) dead8 with
    ports := [{ Port.idle with delivered := [⟨.ok, 0⟩] }, { Port.idle with delivered := [⟨.ok, 0⟩] }], cur := 1 }

theorem fresh8_StorageInv : (machine fresh8 dead8).StorageInv := by
  unfold State.StorageInv Bank.storageOk; decide
theorem afterMerge_ready : (afterMerge.turn 1).idleTurn ∧ (afterMerge.turn 1).holdsBank 0
    (bank 3 3 false [(0, 0x80), (2, 0x80), (3, 0x11), (7, 0x41)] 1) :=
  ⟨⟨_, rfl, rfl⟩, ⟨rfl, rfl, rfl, legal_bank8 _ _ _⟩⟩
theorem fresh8_ready : (machine fresh8 dead8).readyToWrite 0 fresh8 :=
  ⟨idle_machine _ _, ⟨rfl, rfl, rfl, legal_bank8 _ _ _⟩, fun h => by cases h⟩
theorem afterMerge_run : RunWithoutClearing 0 afterAdd afterMerge :=
  .tail 1 (.merge 0 1) (.refl _) (by decide) (next_of_nextState (by decide))

/-- NoFalseNegatives: an ADD, a MERGE into the bank from the other port, then a TEST by its bytes. -/
theorem witness_NoFalseNegatives :
    (machine fresh8 dead8).StorageInv ∧ (machine fresh8 dead8).readyToWrite (bankOf (Instr.addU16 0 1).fid) fresh8 ∧
    [1, 0] ∈ insertedKeys (.addU16 0 1) ∧ exec (.addU16 0 1) (machine fresh8 dead8) = .next afterAdd ∧
    RunWithoutClearing (bankOf (Instr.addU16 0 1).fid) afterAdd afterMerge ∧
    (Instr.test 0 [1, 0]).fid = (Instr.addU16 0 1).fid ∧ testedKey (.test 0 [1, 0]) = some [1, 0] ∧
    (afterMerge.turn 1).readyToRead (bankOf (Instr.addU16 0 1).fid)
      (bank 3 3 false [(0, 0x80), (2, 0x80), (3, 0x11), (7, 0x41)] 1) :=
  ⟨fresh8_StorageInv, fresh8_ready, by decide, next_of_nextState (by decide), afterMerge_run, rfl, rfl,
    afterMerge_ready.1, afterMerge_ready.2, fun h => by cases h⟩
/-- AddIdempotent: the same ADD before and after that MERGE. -/
theorem witness_AddIdempotent :
    (machine fresh8 dead8).StorageInv ∧ (machine fresh8 dead8).readyToWrite (bankOf 0) fresh8 ∧
    exec (.add 0 [1, 0]) (machine fresh8 dead8) = .next afterAdd ∧ RunWithoutClearing (bankOf 0) afterAdd afterMerge ∧
    (afterMerge.turn 1).readyToWrite (bankOf 0) (bank 3 3 false [(0, 0x80), (2, 0x80), (3, 0x11), (7, 0x41)] 1) :=
  ⟨fresh8_StorageInv, fresh8_ready, next_of_nextState (by decide), afterMerge_run, afterMerge_ready.1,
    afterMerge_ready.2, fun h => by cases h⟩
/-- ResetClears: a RESET, then a TEST from the other port. -/
theorem witness_ResetClears :
    ∃ t u, (machine one8 dead8).StorageInv ∧ (machine one8 dead8).readyToWrite (bankOf 0) one8 ∧
      exec (.reset 0) (machine one8 dead8) = .next t ∧ RunWithoutWriting (bankOf 0) t u ∧
      (u.turn 1).readyToRead (bankOf 0) fresh8 ∧ testedKey (.testU16 0 1) = some [1, 0] := by
  refine ⟨{ machine fresh8 dead8 with ports := [{ Port.idle with delivered := [⟨.ok, 0⟩] }, Port.idle] },
    { machine fresh8 dead8 with
      ports := [{ Port.idle with delivered := [⟨.ok, 0⟩] }, { Port.idle with delivered := [⟨.ok, 0⟩] }], cur := 1 },
    ?_, witness_readyToWrite.1, next_of_nextState (by decide),
    .tail 1 (.testU16 0 1) (.refl _) (fun _ => rfl) (next_of_nextState (by decide)),
    ⟨⟨_, rfl, rfl⟩, ⟨rfl, rfl, rfl, legal_bank8 _ _ _⟩, fun h => by cases h⟩, rfl⟩
  unfold State.StorageInv Bank.storageOk
  decide

/-- FprEstimate: two states whose COUNTs differ. -/
theorem witness_FprEstimate : (machine fresh8 dead8).readyToRead (bankOf 0) fresh8 ∧
    (machine one8 dead8).readyToRead (bankOf 1) dead8 ∧ dead8.k = fresh8.k ∧ dead8.bitlen = fresh8.bitlen ∧
    fresh8.count ≤ dead8.count ∧ fresh8.count = 0 :=
  ⟨⟨idle_machine _ _, ⟨rfl, rfl, rfl, legal_bank8 _ _ _⟩, fun h => by cases h⟩,
    ⟨idle_machine _ _, ⟨rfl, rfl, rfl, legal_bank8 _ _ _⟩, fun h => by cases h⟩, by decide⟩

def hE : HashQuad := ⟨0x3F8, 7, 8, 0x10⟩
def hF : HashQuad := ⟨0xDEADBEEFCAFEBABE, 0x0BADF00D12345678, 0x9E3779B97F4A7C15, 0xC2B2AE3D27D4EB4F⟩

/-- TestReadsUntilClear: the first clear bit at the first probe, at the last one, and nowhere (95 section 2.3, hE). -/
theorem witness_TestReadsUntilClear :
    (machine fresh8 dead8).bank? 0 = some fresh8 ∧ fresh8.legal 16 ∧ Latch.start.hit = true ∧
    (0 < 3 ∧ fresh8.bit (probePosition hE 0) = false) ∧
    (2 < 3 ∧ (∀ i < 2, (bank 3 3 false [(2, 0x80), (7, 0x01)] 1).bit (probePosition hE i) = true) ∧
      (bank 3 3 false [(2, 0x80), (7, 0x01)] 1).bit (probePosition hE 2) = false) ∧
    (∀ i < 3, one8.bit (probePosition hE i) = true) :=
  ⟨rfl, legal_bank8 _ _ _, rfl, by decide, by decide, by decide⟩
/-- CommandsAreFinite. -/
theorem witness_CommandsAreFinite : Micro.admitStep ∉ addU16InFlight.todo ∧
    addU16InFlight.todo.getLast? = some (.respond .ok (.const 0)) := by decide
/-- RaceLosesABit: P4's two commands at their first SetBits, (7, 0) and (7, 6). -/
theorem witness_RaceLosesABit :
    racing.bank? 0 = some fresh8 ∧ fresh8.legal 16 ∧ fresh8.conc = false ∧ Memory.wf fresh8.storage ∧
    racing.busyWith 0 addU16InFlight ∧ racing.busyWith 1 addU32InFlight ∧
    (∃ rp, addU16InFlight.todo = .setRead 0 hE 0 :: .setWrite 0 hE 0 :: rp) ∧
    (∃ rq, addU32InFlight.todo = .setRead 0 hF 0 :: .setWrite 0 hF 0 :: rq) ∧
    slotOf fresh8.bitlen (probePosition hE 0) = slotOf fresh8.bitlen (probePosition hF 0) ∧
    offsetOf (probePosition hE 0) ≠ offsetOf (probePosition hF 0) ∧ fresh8.bit (probePosition hE 0) = false := by
  refine ⟨rfl, legal_bank8 _ _ _, rfl, by decide, ⟨_, rfl, rfl⟩, ⟨_, rfl, rfl⟩, ⟨addU16InFlight.todo.drop 2, ?_⟩,
    ⟨addU32InFlight.todo.drop 2, ?_⟩, ?_⟩ <;> decide

/-- A request waits at port 0, whose turn is next. -/
def offered (packet : List Byte) (agenda : List Move) : State :=
  { machine one8 dead8 with ports := [{ Port.idle with queue := [packet] }, Port.idle], agenda := agenda }
/-- A request waits at port 1 only, and the agenda is empty. -/
def offeredLast : State :=
  { machine one8 dead8 with ports := [Port.idle, { Port.idle with queue := [[0x12, 0, 0, 0]] }] }

/-- CommandIsItsMicroSteps and StepRunsDecoded's first clause, for a packet that decodes and one that does not. -/
theorem witness_StepRunsDecoded :
    ((offered [0x12, 0, 0, 0] [.command 0]).agenda = [.command 0] ∧
      (offered [0x12, 0, 0, 0] [.command 0]).port? 0 = some { Port.idle with queue := [[0x12, 0, 0, 0]] } ∧
      decode [0x12, 0, 0, 0] = .ok (.cap 0)) ∧
    ((offered [0x12, 0] [.command 0]).port? 0 = some { Port.idle with queue := [[0x12, 0]] } ∧
      decode [0x12, 0] = .error .length) := ⟨⟨rfl, rfl, rfl⟩, ⟨rfl, rfl⟩⟩
/-- StepRunsDecoded's second clause. -/
theorem witness_default_turn : offeredLast.agenda = [] ∧ 1 < offeredLast.ports.length ∧
    canMove offeredLast 1 = true ∧ ∀ q < 1, canMove offeredLast q = false := by decide
/-- FetchedWordRuns. -/
theorem witness_FetchedWordRuns : decodeTableWord 32 0x12 = some (.cap 0) ∧ 0 < State.reset.ports.length := by decide

/-! A contended machine: port 0 ends a RESET of the CONC = 1 bank f0 under its exclusive lock, and port 1's SIZE waits
for it. -/

def guarded8 : Bank :=
  { bank 3 3 true [] 0 with guard := { writer := some 0, readers := [], waiting := [1], configPending := false } }
def resetEnding : InFlight :=
  { request := encode (.reset 0), admitted := true, latch := Latch.start, todo := [.release 0, .respond .ok (.const 0)] }
def sizeWaiting : InFlight :=
  { request := encode (.size 0), admitted := true, latch := Latch.start
    todo := [.acquireShared 0, .readCount 0, .release 0, .respond .ok .count] }
def contended (agenda : List Move) : State :=
  { machine guarded8 dead8 with
    ports := [{ Port.idle with inFlight := some resetEnding }, { Port.idle with inFlight := some sizeWaiting }]
    agenda := agenda }

theorem busy_contended {agenda : List Move} {p : Nat} {c : InFlight} (h : (contended agenda).busyWith p c) :
    (p = 0 ∧ c = resetEnding) ∨ (p = 1 ∧ c = sizeWaiting) := by
  obtain ⟨port, hp, hc⟩ := h
  match p with
  | 0 => cases hp; cases hc; exact .inl ⟨rfl, rfl⟩
  | 1 => cases hp; cases hc; exact .inr ⟨rfl, rfl⟩
  | p + 2 => simp [contended, State.port?] at hp

theorem contended_StorageInv (agenda : List Move) : (contended agenda).StorageInv := by
  unfold State.StorageInv Bank.storageOk
  exact (by decide : ∀ b ∈ [guarded8, dead8], Memory.wf b.storage ∧ ∀ c ∈ b.storage, c.1 < 2 ^ 16)
theorem contended_RegisterInv (agenda : List Move) : (contended agenda).RegisterInv := by
  refine ⟨by simp [contended, machine], ?_, ?_⟩
  · intro b hb _
    simp only [contended, machine, List.mem_cons, List.not_mem_nil, or_false] at hb
    rcases hb with rfl | rfl
    · exact ⟨(by decide : 3 ≤ 16), rfl, by decide⟩
    · exact ⟨(by decide : 3 ≤ 16), rfl, by decide⟩
  · intro port hport c hc
    simp only [contended, List.mem_cons, List.not_mem_nil, or_false] at hport
    rcases hport with rfl | rfl <;> cases hc
    · refine ⟨?_, fun h => absurd h (by decide)⟩
      intro m hm
      simp only [resetEnding, List.mem_cons, List.not_mem_nil, or_false] at hm
      rcases hm with rfl | rfl
      · exact (by decide : 0 < 2)
      · trivial
    · refine ⟨?_, fun h => absurd h (by decide)⟩
      intro m hm
      simp only [sizeWaiting, List.mem_cons, List.not_mem_nil, or_false] at hm
      rcases hm with rfl | rfl | rfl | rfl <;> first | trivial | exact (by decide : 0 < 2)
theorem contended_GuardInv (agenda : List Move) : (contended agenda).GuardInv := by
  exact (by decide : ∀ b ∈ [guarded8, dead8], b.guard.writer ≠ none → b.guard.readers = [])
theorem contended_LockInv (agenda : List Move) : (contended agenda).LockInv := by
  have hb0 : (contended agenda).busyWith 0 resetEnding := ⟨_, rfl, rfl⟩
  refine ⟨?_, ?_⟩
  · intro p c hc
    rcases busy_contended hc with ⟨rfl, rfl⟩ | ⟨rfl, rfl⟩
    · refine .inr (.inr ⟨rfl, by decide, .reset 0, rfl, ?_⟩)
      exact (by decide : resetEnding.todo <:+ program { log2MaxBytes := 16, hashTable := hashes } guarded8 (.reset 0))
    · exact .inr (.inr ⟨rfl, by decide, .size 0, rfl, List.suffix_refl _⟩)
  · intro f b hf
    have hnc : ∀ p c, (contended agenda).busyWith p c → ¬ c.configures f := by
      rintro p c hc ⟨capacity, k, conc, hm⟩
      rcases busy_contended hc with ⟨rfl, rfl⟩ | ⟨rfl, rfl⟩
      · simp [resetEnding] at hm
      · simp [sizeWaiting] at hm
    have hnone : b.guard.configPending = false ∧ (∀ p, (b.guard.writer = some p ∨ p ∈ b.guard.readers) ↔
        f = 0 ∧ p = 0) ∧ ∀ p, p ∈ b.guard.waiting ↔ f = 0 ∧ p = 1 := by
      match f with
      | 0 => cases hf; refine ⟨rfl, fun p => ?_, fun p => ?_⟩ <;> simp [guarded8, bank, eq_comm]
      | 1 => cases hf; refine ⟨rfl, fun p => ?_, fun p => ?_⟩ <;> simp [dead8, bank, Guard.free]
      | f + 2 => simp [contended, machine, State.bank?] at hf
    refine ⟨fun p => ?_, fun p => ?_, ?_, fun p q c d hc _ h _ => absurd h (hnc p c hc)⟩
    · rw [hnone.2.1]
      constructor
      · rintro ⟨rfl, rfl⟩
        exact ⟨_, hb0, by decide, by decide, by decide⟩
      · rintro ⟨c, hc, hh, -, hx⟩
        rcases busy_contended hc with ⟨rfl, rfl⟩ | ⟨rfl, rfl⟩
        · simp only [resetEnding, List.mem_cons, Micro.release.injEq, reduceCtorEq, List.not_mem_nil, or_false] at hh
          exact ⟨hh, rfl⟩
        · exfalso
          have : f = 0 := by simpa [sizeWaiting] using hh
          subst this
          exact hx (by decide)
    · rw [hnone.2.2]
      constructor
      · rintro ⟨rfl, rfl⟩
        exact ⟨sizeWaiting, ⟨_, rfl, rfl⟩, .inr rfl⟩
      · rintro ⟨c, hc, hq⟩
        rcases busy_contended hc with ⟨rfl, rfl⟩ | ⟨rfl, rfl⟩
        · simp [InFlight.acquires, resetEnding] at hq
        · exact ⟨by simpa [InFlight.acquires, sizeWaiting, eq_comm] using hq, rfl⟩
    · rw [hnone.1]
      simp only [Bool.false_eq_true, false_iff, not_exists, not_and]
      exact hnc

/-- StorageStaysCanonical, RegistersStayLegal, NoStepStops, WriterExcludesReaders, LocksMatchCommands, RunsComeToRest and
NoDeadlock:
port 0 releases the lock. -/
theorem witness_invariants : (contended [.micro 0]).StorageInv ∧ (contended [.micro 0]).RegisterInv ∧
    (contended [.micro 0]).GuardInv ∧ (contended [.micro 0]).LockInv ∧
    (∃ p c, (contended [.micro 0]).busyWith p c) ∧ (∃ t, step (contended [.micro 0]) = .next t) :=
  ⟨contended_StorageInv _, contended_RegisterInv _, contended_GuardInv _, contended_LockInv _, ⟨0, _, _, rfl, rfl⟩,
    _, next_of_nextState (Option.some_get (by decide : (nextState (step (contended [.micro 0]))).isSome = true)).symm⟩
/-- LockedBankIsSafe, for each move of the other port. -/
theorem witness_LockedBankIsSafe : ∀ m : Move, m = .micro 1 ∨ m = .command 1 ∨ m = .accept 1 →
    (contended [m]).RegisterInv ∧ (contended [m]).GuardInv ∧ (contended [m]).LockInv ∧
    (contended [m]).bank? 0 = some guarded8 ∧ guarded8.conc = true ∧ guarded8.guard.writer = some 0 ∧
    (nextState (step (contended [m]))).isSome = true := by
  rintro m (rfl | rfl | rfl) <;>
    exact ⟨contended_RegisterInv _, contended_GuardInv _, contended_LockInv _, rfl, rfl, rfl, by decide⟩
/-- Port 0 ends its RESET in two micro-steps, then port 1 runs its SIZE. -/
def resetThenSize : Schedule := fun n => if n < 2 then .micro 0 else .micro 1
/-- Where that schedule comes to rest. -/
def contendedEnd : State :=
  { machine (bank 3 3 true [] 0) dead8 with
    ports := [{ Port.idle with delivered := [⟨.ok, 0⟩] }, { Port.idle with delivered := [⟨.ok, 0⟩] }], cur := 1 }
theorem resetThenSize_ends (k : Nat) : resetThenSize.stateAt (contended []) (6 + k) = contendedEnd := by
  induction k with
  | zero => decide
  | succ k ih =>
    rw [← Nat.add_assoc, Schedule.stateAt, ih, show resetThenSize (6 + k) = .micro 1 from if_neg (by omega)]
    rfl
theorem resetThenSize_ended {m : Nat} (h : 6 ≤ m) : resetThenSize.stateAt (contended []) m = contendedEnd := by
  rw [← resetThenSize_ends (m - 6), Nat.add_sub_cancel' h]
/-- FairSchedulesAnswer: the waiting port 1, from the first move on. -/
theorem witness_FairSchedulesAnswer : (contended []).RegisterInv ∧ (contended []).GuardInv ∧ (contended []).LockInv ∧
    resetThenSize.fair (contended []) ∧ resetThenSize.configsEnd (contended []) ∧
    (resetThenSize.stateAt (contended []) 0).busyWith 1 sizeWaiting ∧
    (resetThenSize.stateAt (contended []) 0).waitsFor 1 0 ∧ ∀ m, 0 ≤ m → resetThenSize m ≠ .powerOn := by
  refine ⟨contended_RegisterInv _, contended_GuardInv _, contended_LockInv _, ⟨?_, ?_, ?_⟩, ⟨0, ?_⟩, ⟨_, rfl, rfl⟩,
    ⟨_, rfl, by decide⟩, ?_⟩
  · intro n p
    unfold resetThenSize
    split <;> simp
  · intro p n h
    obtain ⟨c, ⟨port, hport, hc⟩, -⟩ := h (6 + n) (by omega)
    rw [resetThenSize_ends] at hport
    have : port ∈ contendedEnd.ports := List.mem_of_getElem? hport
    simp [contendedEnd] at this
    simp [this, Port.idle] at hc
  · refine fun p f n _ => .inr ⟨6, fun k q hk hg => ?_⟩
    obtain ⟨b, hb, hq⟩ := hg.2.1
    rw [resetThenSize_ended hk] at hb
    have : b ∈ contendedEnd.banks := List.mem_of_getElem? hb
    simp [contendedEnd, machine] at this
    rcases this with rfl | rfl <;> simp [bank, dead8, Guard.free] at hq
  · intro m p port packet i _ hm
    unfold resetThenSize at hm
    split at hm <;> cases hm
  · intro m _
    unfold resetThenSize
    split <;> simp
/-- ResetSatisfiesInvariants, and PowerOnReset's last clause. -/
theorem witness_reset : Params.reference.log2MaxBytes ≤ 61 ∧ (contended [.powerOn]).agenda = .powerOn :: [] :=
  ⟨by decide, rfl⟩

end Sys2Proof.Tests
end

section
/-! A packet that decodes is the packet of what it decodes to (R115, R116, R119, R122): the bytes a BUSY port holds
are those of the command it runs. -/

namespace Sys2Proof

/-! ### Fields of a packet -/

theorem leBytes_fieldAt {off n : Nat} {bs : List Byte} (h : off + n ≤ bs.length) :
    leBytes n (fieldAt off n bs) = (bs.drop off).take n := by
  have hlen : ((bs.drop off).take n).length = n := by simp; omega
  have := leBytes_leValue ((bs.drop off).take n)
  rwa [hlen] at this

theorem fieldAt_lt (off n : Nat) (bs : List Byte) : fieldAt off n bs < 256 ^ n :=
  lt_of_lt_of_le (leValue_lt _) (Nat.pow_le_pow_right (by decide) (by simp))

/-- An operand of `w` bits writes back as the bytes it was read from (R115). -/
theorem leBytes_ofNat_fieldAt (w : Nat) {off n : Nat} {bs : List Byte} (hw : w = 8 * n) (h : off + n ≤ bs.length) :
    leBytes n (BitVec.ofNat w (fieldAt off n bs)).toNat = (bs.drop off).take n := by
  have hlt := fieldAt_lt off n bs
  rw [BitVec.toNat_ofNat, Nat.mod_eq_of_lt (by rw [hw, Nat.pow_mul]; exact hlt), leBytes_fieldAt h]

/-! ### Payloads -/

theorem keyPayload_drop {bs : List Byte} (h : bs.length = 8 + fieldAt 4 4 bs) :
    keyPayload (bs.drop 8) = bs.drop 4 := by
  rw [keyPayload, List.length_drop, show bs.length - 8 = fieldAt 4 4 bs by omega, leBytes_fieldAt (by omega),
    show bs.drop 8 = (bs.drop 4).drop 4 by simp, List.take_append_drop]

theorem length_takeWords (w n : Nat) (bs : List Byte) : (takeWords w n bs).length = n := by
  induction n generalizing bs with
  | zero => rfl
  | succ n ih => simp [takeWords, ih]

/-- A batch of integers writes back as the bytes it was read from (R115). -/
theorem flatMap_takeWords {m : Nat} (n : Nat) {bs : List Byte} (h : bs.length = m * n) :
    (takeWords (8 * m) n bs).flatMap (fun v => leBytes (8 * m / 8) v.toNat) = bs := by
  have hm : 8 * m / 8 = m := by omega
  induction n generalizing bs with
  | zero => simp only [Nat.mul_zero] at h; simp [takeWords, List.length_eq_zero_iff.1 h]
  | succ n ih =>
    rw [Nat.mul_succ] at h
    have hhead := leBytes_ofNat_fieldAt (8 * m) (off := 0) (n := m) (bs := bs) rfl (by omega)
    simp only [fieldAt, List.drop_zero] at hhead
    simp only [takeWords, hm, List.flatMap_cons, hhead] at ih ⊢
    rw [ih (bs := bs.drop m) (by simp; omega), List.take_append_drop]

theorem wordsPayload_takeWords (m : Nat) {bs : List Byte} (h : bs.length = 8 + m * fieldAt 4 4 bs) :
    wordsPayload (takeWords (8 * m) (fieldAt 4 4 bs) (bs.drop 8)) = bs.drop 4 := by
  rw [wordsPayload, length_takeWords, flatMap_takeWords _ (by simp; omega), leBytes_fieldAt (by omega),
    show bs.drop 8 = (bs.drop 4).drop 4 by simp, List.take_append_drop]

theorem length_takeKeys (n : Nat) (bs : List Byte) : (takeKeys n bs).length = n := by
  induction n generalizing bs with
  | zero => rfl
  | succ n ih => simp [takeKeys, ih]

theorem le_of_walkElements {n off e : Nat} {bs : List Byte} (h : walkElements n off bs = some e) : off ≤ e := by
  induction n generalizing off with
  | zero => cases h; exact le_rfl
  | succ n ih =>
    rw [walkElements] at h
    split at h
    · cases h
    · exact le_trans (by omega) (ih h)

/-- A batch of keys whose length walk (R119) ends with the packet writes back as the bytes it was read from. -/
theorem flatMap_takeKeys {n off : Nat} {bs : List Byte} (h : walkElements n off bs = some bs.length) :
    (takeKeys n (bs.drop off)).flatMap keyPayload = bs.drop off := by
  induction n generalizing off with
  | zero => cases h; simp [takeKeys]
  | succ n ih =>
    rw [walkElements] at h
    split at h
    · cases h
    · next hoff =>
      have hend := le_of_walkElements h
      have hfield : fieldAt 0 4 (bs.drop off) = fieldAt off 4 bs := by simp [fieldAt]
      have hkey : keyPayload ((bs.drop (off + 4)).take (fieldAt off 4 bs)) =
          (bs.drop off).take 4 ++ (bs.drop (off + 4)).take (fieldAt off 4 bs) := by
        rw [keyPayload, List.length_take, List.length_drop, Nat.min_eq_left (by omega), leBytes_fieldAt (by omega)]
      simp only [takeKeys, hfield, List.drop_drop, List.flatMap_cons]
      rw [← Nat.add_assoc, ih h, hkey, List.append_assoc, ← List.drop_drop (i := fieldAt off 4 bs),
        List.take_append_drop, ← List.drop_drop (i := 4), List.take_append_drop]

theorem keysPayload_takeKeys {bs : List Byte} (hlen : 8 ≤ bs.length)
    (h : walkElements (fieldAt 4 4 bs) 8 bs = some bs.length) :
    keysPayload (takeKeys (fieldAt 4 4 bs) (bs.drop 8)) = bs.drop 4 := by
  rw [keysPayload, length_takeKeys, flatMap_takeKeys h, leBytes_fieldAt (by omega),
    show bs.drop 8 = (bs.drop 4).drop 4 by simp, List.take_append_drop]

/-- The operands of a packet of the right length write back as what follows its command word (R115, R119). -/
theorem payload_operands {op : Opcode} {bs : List Byte} (h : expectedLength op bs = some bs.length) :
    (operands op bs).payload = bs.drop 4 := by
  have hfixed : ∀ n, bs.length = 4 + n → (bs.drop 4).take n = bs.drop 4 := fun n hn =>
    List.take_of_length_le (by simp; omega)
  have hnone : bs.length = 4 → [] = bs.drop 4 := fun h4 => (List.drop_of_length_le (by omega)).symm
  cases op <;> simp only [expectedLength, Option.some.injEq, Option.ite_none_left_eq_some] at h <;>
    simp only [operands, Instr.payload]
  case config =>
    have hsplit := hfixed (8 + 4) (by omega)
    rw [List.take_add, List.drop_drop] at hsplit
    rw [leBytes_ofNat_fieldAt 64 (by rfl) (by omega), leBytes_ofNat_fieldAt 32 (by rfl) (by omega), hsplit]
  case add | addStr | test | testStr => exact keyPayload_drop h.2.symm
  case addU16 | testU16 => rw [leBytes_ofNat_fieldAt 16 (by rfl) (by omega), hfixed 2 (by omega)]
  case addU32 | testU32 => rw [leBytes_ofNat_fieldAt 32 (by rfl) (by omega), hfixed 4 (by omega)]
  case addU64 | testU64 => rw [leBytes_ofNat_fieldAt 64 (by rfl) (by omega), hfixed 8 (by omega)]
  case addb => exact keysPayload_takeKeys (by omega) h.2
  case addbU16 => exact wordsPayload_takeWords 2 h.2.symm
  case addbU32 => exact wordsPayload_takeWords 4 h.2.symm
  case addbU64 => exact wordsPayload_takeWords 8 h.2.symm
  all_goals exact hnone h.symm

/-! ### The command word -/

theorem Opcode.code_of_ofBits {b : BitVec 5} {op : Opcode} (h : Opcode.ofBits b = some op) : op.code = b := by
  apply BitVec.eq_of_toNat_eq
  unfold Opcode.ofBits at h
  split at h <;> cases h <;> simp_all [Opcode.code]

theorem opcode_operands (op : Opcode) (bs : List Byte) : (operands op bs).opcode = op := by cases op <;> rfl

theorem fid_operands (op : Opcode) (bs : List Byte) : (operands op bs).fid = cmdFid (commandWord bs) := by
  cases op <;> rfl

theorem concBit_operands (op : Opcode) (bs : List Byte) :
    (operands op bs).concBit = if op = .config then cmdConc (commandWord bs) else false := by cases op <;> rfl

theorem sfid_operands (op : Opcode) (bs : List Byte) :
    (operands op bs).sfid = if op = .merge then cmdSfid (commandWord bs) else 0 := by cases op <;> rfl

/-- A must-be-0 bit that is 0 (R112). -/
theorem getLsbD_of_reserved {op : Opcode} {c : Word32} (h : c &&& op.reservedMask = 0) {j : Nat}
    (hj : op.reservedMask.getLsbD j = true) : c.getLsbD j = false := by
  have := congrArg (fun x : Word32 => x.getLsbD j) h
  simpa [hj] using this

/-- Byte `k` of the command word, as bits. -/
theorem getLsbD_commandWord_cons (b0 b1 b2 b3 : Byte) (tail : List Byte) (j : Nat) :
    (commandWord (b0 :: b1 :: b2 :: b3 :: tail)).getLsbD j =
      if j < 8 then b0.getLsbD j else if j < 16 then b1.getLsbD (j - 8)
      else if j < 24 then b2.getLsbD (j - 16) else b3.getLsbD (j - 24) := by
  simp only [commandWord, BitVec.getLsbD_append, Nat.sub_sub]
  by_cases h8 : j < 8
  · simp [h8]
  · by_cases h16 : j < 16
    · simp [h8, h16, show j - 8 < 8 by omega]
    · by_cases h24 : j < 24
      · simp [h8, h16, h24, show ¬ j - 8 < 8 by omega, show j - 16 < 8 by omega]
      · simp [h8, h16, h24, show ¬ j - 8 < 8 by omega, show ¬ j - 16 < 8 by omega]

/-- The bits of the command word that every opcode, every one but CONFIG and every one but MERGE must leave 0. -/
theorem Opcode.getLsbD_reservedMask (op : Opcode) (j : Nat) (hj : j < 32) :
    (j = 6 ∨ j = 7 ∨ 24 ≤ j → op.reservedMask.getLsbD j = true) ∧
    (op ≠ .config → j = 5 → op.reservedMask.getLsbD j = true) ∧
    (op ≠ .merge → 16 ≤ j → op.reservedMask.getLsbD j = true) := by
  by_cases h1 : op = .config
  · subst h1; simp only [Opcode.reservedMask]; decide +revert
  · by_cases h2 : op = .merge
    · subst h2; simp only [Opcode.reservedMask]; decide +revert
    · have hbits : ∀ j < 32, j = 5 ∨ j = 6 ∨ j = 7 ∨ 16 ≤ j → (0xFFFF00E0#32).getLsbD j = true := by decide
      rw [show op.reservedMask = 0xFFFF00E0#32 by cases op <;> simp_all [Opcode.reservedMask]]
      exact ⟨fun h => hbits j hj (by omega), fun _ h => hbits j hj (by omega), fun _ h => hbits j hj (by omega)⟩

theorem commandBytes_operands {op : Opcode} {bs : List Byte} (h4 : 4 ≤ bs.length)
    (hop : Opcode.ofBits (cmdOp (commandWord bs)) = some op) (hres : commandWord bs &&& op.reservedMask = 0) :
    commandBytes op (operands op bs).concBit (operands op bs).fid (operands op bs).sfid = bs.take 4 := by
  obtain ⟨b0, b1, b2, b3, tail, rfl⟩ : ∃ b0 b1 b2 b3 tail, bs = b0 :: b1 :: b2 :: b3 :: tail := by
    match bs, h4 with
    | b0 :: b1 :: b2 :: b3 :: tail, _ => exact ⟨b0, b1, b2, b3, tail, rfl⟩
  have hbit := getLsbD_commandWord_cons b0 b1 b2 b3 tail
  generalize hc : commandWord (b0 :: b1 :: b2 :: b3 :: tail) = c at *
  have hmask : ∀ j, op.reservedMask.getLsbD j = true → c.getLsbD j = false := fun j => getLsbD_of_reserved hres
  rw [fid_operands, concBit_operands, sfid_operands, hc]
  simp only [commandBytes, List.take_succ_cons, List.take_zero, List.cons.injEq, and_true]
  refine ⟨?_, ?_, ?_, ?_⟩
  · apply BitVec.eq_of_getLsbD_eq
    intro j hj
    have hcode := Opcode.code_of_ofBits hop
    have hop : j < 5 → op.code.getLsbD j = b0.getLsbD j := fun h5 => by
      rw [hcode, cmdOp, BitVec.getLsbD_extractLsb', Nat.zero_add, hbit, if_pos hj]
      simp [h5]
    have hconc : (if op = .config then cmdConc c else false) = b0.getLsbD 5 := by
      have h5 := hbit 5
      split
      · exact h5
      · next hne => rw [← (hmask 5 ((op.getLsbD_reservedMask 5 (by decide)).2.1 hne rfl)), h5]; rfl
    have hhigh : 6 ≤ j → b0.getLsbD j = false := fun h6 => by
      rw [← hmask j ((op.getLsbD_reservedMask j (by omega)).1 (by omega)), hbit, if_pos hj]
    rw [BitVec.getLsbD_append, BitVec.getLsbD_append]
    by_cases h5 : j < 5
    · rw [if_pos (by omega)]; exact hop h5
    · by_cases h6 : j = 5
      · subst h6; simpa using hconc
      · rw [if_neg (by omega), hhigh (by omega)]; simp [show j - 5 ≠ 0 by omega]
  · apply BitVec.eq_of_getLsbD_eq
    intro j hj
    rw [cmdFid, BitVec.getLsbD_extractLsb', hbit]
    simp [hj, show 8 + j < 16 by omega]
  · apply BitVec.eq_of_getLsbD_eq
    intro j hj
    have hword : c.getLsbD (16 + j) = b2.getLsbD j := by
      rw [hbit, if_neg (by omega), if_neg (by omega), if_pos (by omega), Nat.add_sub_cancel_left]
    split
    · rw [cmdSfid, BitVec.getLsbD_extractLsb', hword]; simp [hj]
    · next hne =>
      rw [← hword, hmask _ ((op.getLsbD_reservedMask _ (by omega)).2.2 hne (by omega))]; simp
  · apply BitVec.eq_of_getLsbD_eq
    intro j hj
    have hword : c.getLsbD (24 + j) = b3.getLsbD j := by
      rw [hbit, if_neg (by omega), if_neg (by omega), if_neg (by omega), Nat.add_sub_cancel_left]
    rw [← hword, hmask _ ((op.getLsbD_reservedMask _ (by omega)).1 (by omega))]; simp

/-- A packet that decodes is the packet of the command it decodes to (R122). -/
theorem encode_of_decode {bs : List Byte} {i : Instr} (h : decode bs = .ok i) : encode i = bs := by
  unfold decode at h
  split at h
  · cases h
  · next h4 =>
    split at h
    · cases h
    · next op hop =>
      split at h
      · cases h
      · next hres =>
        split at h
        · next hlen =>
          cases h
          rw [encode, opcode_operands, commandBytes_operands (by omega) hop (by simpa using hres),
            payload_operands (by simpa [lengthOk] using hlen), List.take_append_drop]
        · cases h

end Sys2Proof
end

section
/-! What one indivisible micro-step does to the bank it works on (R86, R90). -/

namespace Sys2Proof.Machine

/-- The bank a micro-step works on. Admission and the response, which `Takes` leaves out, work on none (0 here). -/
def Micro.bank : Micro → Nat
  | .admitStep | .respond _ _ => 0
  | .configure f _ _ _ | .acquireExcl f | .acquireShared f | .release f | .setRead f _ _ | .setWrite f _ _
  | .testRead f _ _ | .readCount f | .writeCountSucc f | .writeCountZero f | .orReadSource f _ | .orReadDest f _
  | .orWrite f _ | .zeroByte f _ => f

/-- What a micro-step of port `p`, whose command holds the latch `l`, makes of that bank. -/
def Micro.effect (p : Nat) (l : Latch) : Micro → Bank → Bank
  | .configure _ capacity k conc, b => b.configure capacity k conc
  | .acquireExcl _, b =>
    { b with guard := { b.guard with writer := some p, waiting := removePort p b.guard.waiting } }
  | .acquireShared _, b =>
    { b with
      guard := { b.guard with
        readers := insertPort p b.guard.readers, waiting := removePort p b.guard.waiting } }
  | .release _, b => { b with guard := b.guard.release p }
  | .setWrite _ h i, b =>
    { b with
      storage := Memory.write b.storage (slotOf b.bitlen (probePosition h i))
        (l.byte ||| bitMask (offsetOf (probePosition h i))) }
  | .writeCountSucc _, b => { b with count := l.count + 1 }
  | .writeCountZero _, b => { b with count := 0 }
  | .orWrite _ j, b => { b with storage := Memory.write b.storage j (l.byte ||| l.source) }
  | .zeroByte _ j, b => { b with storage := Memory.write b.storage j 0 }
  | .admitStep, b | .respond _ _, b | .setRead _ _ _, b | .testRead _ _ _, b | .readCount _, b
  | .orReadSource _ _, b | .orReadDest _ _, b => b

/-- What holds of the bank `b` where a micro-step other than admission and the response is taken: an acquisition is
enabled (R90), CONFIG's atomic step meets no other command (R255), a byte that is written exists (R41). -/
def Micro.enabledOn (p : Nat) (s : State) (b : Bank) : Micro → Prop
  | .admitStep | .respond _ _ => False
  | .configure f _ _ _ => s.othersName p f = false
  | .acquireExcl _ => b.guard.writer = none ∧ b.guard.readers = []
  | .acquireShared _ => b.guard.writer = none
  | .setWrite _ h i => slotOf b.bitlen (probePosition h i) < s.physicalBytes
  | .orWrite _ j | .zeroByte _ j => j < s.physicalBytes
  | .release _ | .setRead _ _ _ | .testRead _ _ _ | .readCount _ | .writeCountSucc _ | .writeCountZero _
  | .orReadSource _ _ | .orReadDest _ _ => True

/-- The byte a command holds after it read the bank `b` in this micro-step (R77, R79). -/
def Micro.loads (b : Bank) (held : Byte) : Micro → Byte
  | .setRead _ h i => Memory.read b.storage (slotOf b.bitlen (probePosition h i))
  | .orReadDest _ j => Memory.read b.storage j
  | .admitStep | .respond _ _ | .configure _ _ _ _ | .acquireExcl _ | .acquireShared _ | .release _ | .setWrite _ _ _
  | .testRead _ _ _ | .readCount _ | .writeCountSucc _ | .writeCountZero _ | .orReadSource _ _ | .orWrite _ _
  | .zeroByte _ _ => held

/-- What a command holds after a micro-step other than admission: only TestBit drops what follows (R185). -/
structure InFlight.After (c : InFlight) (m : Micro) (rest : List Micro) (c' : InFlight) : Prop where
  request : c'.request = c.request
  admitted : c'.admitted = c.admitted
  todo : c'.todo = rest ∨ (∃ f h i, m = .testRead f h i) ∧ c'.todo = dropTests rest

/-- The micro-step `m` of port `p`, other than admission and the response, is taken. -/
structure Takes (p : Nat) (c : InFlight) (s : State) (m : Micro) (rest : List Micro) (c' : InFlight) (s' : State) :
    Prop where
  todo : c.todo = m :: rest
  command : c.After m rest c'
  bank : ∃ b, s.bank? m.bank = some b ∧ m.enabledOn p s b ∧ c'.latch.byte = m.loads b c.latch.byte
  state : s' = s.modifyBank m.bank (m.effect p c.latch)

/-- The admission step of port `p` is taken (R255). -/
inductive Admits (p : Nat) (c : InFlight) (s : State) : InFlight → State → Prop
  /-- the request does not decode (log entry 11) -/
  | undecodable (e : Status) (h : decode c.request = .error e) :
      Admits p c s { c with todo := [.respond e (.const 0)] } s
  /-- a check of R273 steps 7 to 9 fails -/
  | rejected (i : Instr) (e : Status) (h : decode c.request = .ok i)
      (hpend : (namedBanks i).any s.configPending = false) (hcheck : bankCheck s i = some e) :
      Admits p c s { c with admitted := true, todo := [.respond e (.const 0)] } s
  | admitted (i : Instr) (h : decode c.request = .ok i) (hpend : (namedBanks i).any s.configPending = false)
      (hcheck : bankCheck s i = none) :
      Admits p c s { c with admitted := true, todo := program s.params (homeBank s i) i } (s.afterAdmission p i)

variable {p : Nat} {c c' : InFlight} {s s' : State}

theorem State.modifyBank_id (s : State) (f : Nat) : s.modifyBank f (fun b => b) = s := by
  cases s
  simp only [State.modifyBank, State.mk.injEq, true_and, and_true]
  exact List.modify_id _ _

theorem memRead_ok_iff {f j : Nat} {v : Byte} : memRead s f j = .ok v ↔
    ∃ b, s.bank? f = some b ∧ j < s.physicalBytes ∧ v = Memory.read b.storage j := by
  unfold memRead
  cases s.bank? f with
  | none => simp
  | some b => by_cases h : j < s.physicalBytes <;> simp [h, eq_comm]

theorem memWrite_ok_iff {f j : Nat} {v : Byte} : memWrite s f j v = .ok s' ↔
    ∃ b, s.bank? f = some b ∧ j < s.physicalBytes ∧
      s' = s.modifyBank f (fun b => { b with storage := Memory.write b.storage j v }) := by
  unfold memWrite
  cases s.bank? f with
  | none => simp
  | some b => by_cases h : j < s.physicalBytes <;> simp [h, eq_comm]

theorem stepAdmit_moved (h : stepAdmit p c s = .moved c' s') : Admits p c s c' s' := by
  unfold stepAdmit admission at h
  split at h
  · next e he => cases h; exact .undecodable e he
  · next i hi =>
    split at h
    · cases h
    · next hpend =>
      split at h
      · next e hcheck => cases h; exact .rejected i e hi (by simpa using hpend) hcheck
      · next hcheck => cases h; exact .admitted i hi (by simpa using hpend) hcheck

theorem readProbe_ok_iff {f i : Nat} {q : HashQuad} {v : Byte} : readProbe s f q i = .ok v ↔
    ∃ b, s.bank? f = some b ∧ slotOf b.bitlen (probePosition q i) < s.physicalBytes ∧
      v = Memory.read b.storage (slotOf b.bitlen (probePosition q i)) := by
  unfold readProbe
  cases hb : s.bank? f with
  | none => simp
  | some b => simp [memRead_ok_iff, hb]

theorem readCount_ok_iff {f : Nat} {v : Word64} :
    readCount s f = .ok v ↔ ∃ b, s.bank? f = some b ∧ v = b.count := by
  unfold readCount
  cases s.bank? f <;> simp [eq_comm]

theorem writeCount_ok_iff {f : Nat} {v : Word64} :
    writeCount s f v = .ok s' ↔
      ∃ b, s.bank? f = some b ∧ s' = s.modifyBank f (fun b => { b with count := v }) := by
  unfold writeCount
  cases s.bank? f <;> simp [eq_comm]

theorem State.modifyBank_congr {f : Nat} {b : Bank} {g h : Bank → Bank} (hb : s.bank? f = some b) (hg : g b = h b) :
    s.modifyBank f g = s.modifyBank f h :=
  (s.modifyBank_eq_const hb hg).trans (s.modifyBank_eq_const hb rfl).symm

/-- A micro-step that only reads. -/
theorem Takes.of_read {m : Micro} {rest : List Micro} {b : Bank} (htodo : c.todo = m :: rest)
    (hc : c.After m rest c') (hb : s.bank? m.bank = some b) (hm : m.enabledOn p s b)
    (hbyte : c'.latch.byte = m.loads b c.latch.byte) (heffect : m.effect p c.latch = id) : Takes p c s m rest c' s :=
  ⟨htodo, hc, ⟨b, hb, hm, hbyte⟩, by rw [heffect]; exact (s.modifyBank_id _).symm⟩

theorem acquireExcl_eq_some_iff {g g' : Guard} : g.acquireExcl p = some g' ↔
    (g.writer = none ∧ g.readers = []) ∧ g' = { g with writer := some p, waiting := removePort p g.waiting } := by
  unfold Guard.acquireExcl
  by_cases h : g.writer = none ∧ g.readers = [] <;> simp [h, eq_comm]

theorem acquireShared_eq_some_iff {g g' : Guard} : g.acquireShared p = some g' ↔
    g.writer = none ∧
      g' = { g with readers := insertPort p g.readers, waiting := removePort p g.waiting } := by
  unfold Guard.acquireShared
  by_cases h : g.writer = none <;> simp [h, eq_comm]

/-- An acquisition that is taken was enabled on the guard of a bank that exists (R90). -/
theorem stepAcquire_moved {f : Nat} {acquire : Guard → Nat → Option Guard} {rest : List Micro}
    (h : stepAcquire p f acquire rest c s = .moved c' s') :
    ∃ b g, s.bank? f = some b ∧ acquire b.guard p = some g ∧ c' = { c with todo := rest } ∧
      s' = s.modifyBank f (fun b => { b with guard := g }) := by
  unfold stepAcquire at h
  split at h
  · cases h
  · next b hb =>
    split at h
    · next g hg => cases h; exact ⟨b, g, hb, hg, rfl, rfl⟩
    · cases h

/-- A micro-step that is taken is an admission or does its effect on its bank (R86, R87). -/
theorem advance_moved_cases (h : advance p c s = .moved c' s') :
    ((∃ rest, c.todo = .admitStep :: rest) ∧ Admits p c s c' s') ∨ ∃ m rest, Takes p c s m rest c' s' := by
  obtain ⟨req, adm, l, todo⟩ := c
  cases todo with
  | nil => cases h
  | cons m rest =>
    cases m with
    | admitStep => exact .inl ⟨⟨rest, rfl⟩, stepAdmit_moved h⟩
    | respond => cases h
    | configure f capacity k conc =>
      simp only [advance, stepConfigure] at h
      split at h
      · cases h
      · next b hb =>
        split at h
        · cases h
        · next hfree =>
          cases h
          exact .inr ⟨_, _, rfl, ⟨rfl, rfl, .inl rfl⟩, ⟨b, hb, eq_false_of_ne_true hfree, rfl⟩, rfl⟩
    | acquireExcl f =>
      obtain ⟨b, g, hb, hg, rfl, rfl⟩ := stepAcquire_moved h
      obtain ⟨hfree, rfl⟩ := acquireExcl_eq_some_iff.1 hg
      exact .inr ⟨_, _, rfl, ⟨rfl, rfl, .inl rfl⟩, ⟨b, hb, hfree, rfl⟩, State.modifyBank_congr hb rfl⟩
    | acquireShared f =>
      obtain ⟨b, g, hb, hg, rfl, rfl⟩ := stepAcquire_moved h
      obtain ⟨hfree, rfl⟩ := acquireShared_eq_some_iff.1 hg
      exact .inr ⟨_, _, rfl, ⟨rfl, rfl, .inl rfl⟩, ⟨b, hb, hfree, rfl⟩, State.modifyBank_congr hb rfl⟩
    | release f =>
      simp only [advance, stepRelease] at h
      split at h
      · cases h
      · next b hb => cases h; exact .inr ⟨_, _, rfl, ⟨rfl, rfl, .inl rfl⟩, ⟨b, hb, trivial, rfl⟩, rfl⟩
    | setRead f q i =>
      simp only [advance, stepSetRead] at h
      split at h
      · cases h
      · next v hv =>
        obtain ⟨b, hb, -, rfl⟩ := readProbe_ok_iff.1 hv
        cases h
        exact .inr ⟨_, _, .of_read rfl ⟨rfl, rfl, .inl rfl⟩ hb trivial rfl rfl⟩
    | setWrite f q i =>
      simp only [advance, stepSetWrite] at h
      split at h
      · cases h
      · next b hb =>
        split at h
        · cases h
        · next t ht =>
          obtain ⟨-, -, hj, rfl⟩ := memWrite_ok_iff.1 ht
          cases h
          exact .inr ⟨_, _, rfl, ⟨rfl, rfl, .inl rfl⟩, ⟨b, hb, hj, rfl⟩, State.modifyBank_congr hb rfl⟩
    | testRead f q i =>
      simp only [advance, stepTestRead] at h
      split at h
      · cases h
      · next v hv =>
        obtain ⟨b, hb, -⟩ := readProbe_ok_iff.1 hv
        split at h
        · cases h; exact .inr ⟨_, _, .of_read rfl ⟨rfl, rfl, .inl rfl⟩ hb trivial rfl rfl⟩
        · cases h; exact .inr ⟨_, _, .of_read rfl ⟨rfl, rfl, .inr ⟨⟨f, q, i, rfl⟩, rfl⟩⟩ hb trivial rfl rfl⟩
    | readCount f =>
      simp only [advance, stepReadCount] at h
      split at h
      · cases h
      · next v hv =>
        obtain ⟨b, hb, -⟩ := readCount_ok_iff.1 hv
        cases h
        exact .inr ⟨_, _, .of_read rfl ⟨rfl, rfl, .inl rfl⟩ hb trivial rfl rfl⟩
    | writeCountSucc f | writeCountZero f =>
      simp only [advance, stepWriteCount] at h
      split at h
      · cases h
      · next t ht =>
        obtain ⟨b, hb, rfl⟩ := writeCount_ok_iff.1 ht
        cases h
        exact .inr ⟨_, _, rfl, ⟨rfl, rfl, .inl rfl⟩, ⟨b, hb, trivial, rfl⟩, rfl⟩
    | orReadSource f j | orReadDest f j =>
      simp only [advance, stepOrReadSource, stepOrReadDest] at h
      split at h
      · cases h
      · next v hv =>
        obtain ⟨b, hb, -, rfl⟩ := memRead_ok_iff.1 hv
        cases h
        exact .inr ⟨_, _, .of_read rfl ⟨rfl, rfl, .inl rfl⟩ hb trivial rfl rfl⟩
    | orWrite f j | zeroByte f j =>
      simp only [advance, stepMemWrite] at h
      split at h
      · cases h
      · next t ht =>
        obtain ⟨b, hb, hj, rfl⟩ := memWrite_ok_iff.1 ht
        cases h
        exact .inr ⟨_, _, rfl, ⟨rfl, rfl, .inl rfl⟩, ⟨b, hb, hj, rfl⟩, rfl⟩

end Sys2Proof.Machine
end

section
/-! A command that a port runs with no other port moving goes through indivisible moves (R86, R87). -/

namespace Sys2Proof.Machine

variable {p : Nat} {c c' d : InFlight} {s s' t : State}

/-! ### A command's own port

No micro-step reads what its own port holds, so a command in hand runs as it does in flight in its port. -/

/-- The same outcome in a state whose port `p` holds `d`; a response empties the port. -/
def Advance.inPort (p : Nat) (d : InFlight) : Advance → Advance
  | .moved c s => .moved c (s.park p d)
  | .blocked c s => .blocked c (s.park p d)
  | .done s => .done s
  | .fault r => .fault r

theorem State.modifyPort_modifyPort (s : State) (p : Nat) (g h : Port → Port) :
    (s.modifyPort p g).modifyPort p h = s.modifyPort p (h ∘ g) := by
  simp only [State.modifyPort, State.mk.injEq, true_and, and_true]
  apply List.ext_getElem?
  intro j
  simp only [List.getElem?_modify]
  by_cases hj : p = j <;> cases s.ports[j]? <;> simp [hj]

theorem State.park_park (s : State) (p : Nat) (c d : InFlight) : (s.park p d).park p c = s.park p c :=
  s.modifyPort_modifyPort p _ _

theorem State.deliver_park (s : State) (p : Nat) (d : InFlight) (r : Response) :
    (s.park p d).deliver p r = s.deliver p r :=
  s.modifyPort_modifyPort p _ _

@[simp] theorem State.physicalBytes_park (s : State) (p : Nat) (c : InFlight) :
    (s.park p c).physicalBytes = s.physicalBytes := rfl

theorem State.portNames_park_ne (s : State) {p q : Nat} (d : InFlight) (f : Nat) (h : q ≠ p) :
    (s.park p d).portNames q f = s.portNames q f := by
  simp [State.portNames, State.park_eq, State.port?_modifyPort, Ne.symm h]

theorem State.othersName_park (s : State) (p f : Nat) (d : InFlight) :
    (s.park p d).othersName p f = s.othersName p f := by
  have hq : ∀ q, (decide (q ≠ p) && (s.park p d).portNames q f) = (decide (q ≠ p) && s.portNames q f) := by
    intro q
    by_cases h : q = p
    · simp [h]
    · rw [s.portNames_park_ne d f h]
  have hlen : (s.park p d).ports.length = s.ports.length := List.length_modify ..
  simp only [State.othersName, hq, hlen]

theorem memRead_park (s : State) (p f j : Nat) (d : InFlight) : memRead (s.park p d) f j = memRead s f j := rfl

theorem readProbe_park (s : State) (p f i : Nat) (q : HashQuad) (d : InFlight) :
    readProbe (s.park p d) f q i = readProbe s f q i := rfl

theorem readCount_park (s : State) (p f : Nat) (d : InFlight) : readCount (s.park p d) f = readCount s f := rfl

theorem memWrite_park (s : State) (p f j : Nat) (v : Byte) (d : InFlight) :
    memWrite (s.park p d) f j v = (memWrite s f j v).map (·.park p d) := by
  simp only [memWrite, State.bank?_park, State.physicalBytes_park]
  cases s.bank? f with
  | none => rfl
  | some b => by_cases h : j < s.physicalBytes <;> simp only [h, if_true, if_false] <;> rfl

theorem writeCount_park (s : State) (p f : Nat) (v : Word64) (d : InFlight) :
    writeCount (s.park p d) f v = (writeCount s f v).map (·.park p d) := by
  simp only [writeCount, State.bank?_park]
  cases s.bank? f <;> rfl

theorem afterAdmission_park (s : State) (p : Nat) (d : InFlight) (i : Instr) :
    (s.park p d).afterAdmission p i = (s.afterAdmission p i).park p d := by
  have hhome : homeBank (s.park p d) i = homeBank s i := rfl
  simp only [State.afterAdmission, State.reachLock, hhome]
  split
  · rfl
  · split <;> rfl

theorem admission_park (s : State) (p : Nat) (c d : InFlight) (i : Instr) :
    admission p i c (s.park p d) = (admission p i c s).inPort p d := by
  have hpend : (s.park p d).configPending = s.configPending := rfl
  have hcheck : bankCheck (s.park p d) i = bankCheck s i := rfl
  have hhome : homeBank (s.park p d) i = homeBank s i := rfl
  simp only [admission, hpend, hcheck, hhome, afterAdmission_park, State.park_params]
  split
  · rfl
  · cases bankCheck s i <;> rfl

theorem advance_park (s : State) (p : Nat) (c d : InFlight) :
    advance p c (s.park p d) = (advance p c s).inPort p d := by
  obtain ⟨req, adm, l, todo⟩ := c
  cases todo with
  | nil => rfl
  | cons m rest =>
    cases m with
    | admitStep =>
      simp only [advance, stepAdmit]
      cases decode req with
      | error e => rfl
      | ok i => exact admission_park s p _ d i
    | respond status answer => simp only [advance, State.deliver_park]; rfl
    | configure f capacity k conc =>
      simp only [advance, stepConfigure, State.bank?_park, State.othersName_park]
      cases s.bank? f with
      | none => rfl
      | some b => cases s.othersName p f <;> rfl
    | acquireExcl f | acquireShared f =>
      simp only [advance, stepAcquire, State.bank?_park]
      cases s.bank? f with
      | none => rfl
      | some b => dsimp only; split <;> rfl
    | release f =>
      simp only [advance, stepRelease, State.bank?_park]
      cases s.bank? f <;> rfl
    | setRead f q i =>
      simp only [advance, stepSetRead, readProbe_park]
      cases readProbe s f q i <;> rfl
    | setWrite f q i =>
      simp only [advance, stepSetWrite, State.bank?_park, memWrite_park]
      cases s.bank? f with
      | none => rfl
      | some b => dsimp only; cases memWrite s f _ _ <;> rfl
    | testRead f q i =>
      simp only [advance, stepTestRead, readProbe_park]
      cases readProbe s f q i with
      | error r => rfl
      | ok v => dsimp only; split <;> rfl
    | readCount f =>
      simp only [advance, stepReadCount, readCount_park]
      cases readCount s f <;> rfl
    | writeCountSucc f | writeCountZero f =>
      simp only [advance, stepWriteCount, writeCount_park]
      cases writeCount s f _ <;> rfl
    | orReadSource f j | orReadDest f j =>
      simp only [advance, stepOrReadSource, stepOrReadDest, memRead_park]
      cases memRead s f j <;> rfl
    | orWrite f j | zeroByte f j =>
      simp only [advance, stepMemWrite, memWrite_park]
      cases memWrite s f j _ <;> rfl

/-! ### What one port does alone, as moves that are each indivisible -/

/-- One indivisible move (R45, R86, R87, R310, R332): a step of the machine is a row of these. -/
inductive Moves : State → State → Prop
  /-- the schedule goes on -/
  | schedule (s : State) (cur : Nat) (agenda : List Move) : Moves s { s with cur := cur, agenda := agenda }
  | offer (s : State) (p : Nat) (packet : List Byte) : Moves s (s.offer p packet)
  | powerOn (s : State) : Moves s s.powerOn
  | accept {s : State} {p : Nat} {port : Port} {packet : List Byte} {queue : List (List Byte)}
      (hport : s.port? p = some port) (hidle : port.inFlight = none) (hqueue : port.queue = packet :: queue) :
      Moves s ((s.takeRequest p).park p (acceptedCommand s packet))
  | micro {s s' : State} {p : Nat} {c c' : InFlight} (hbusy : s.busyWith p c) (h : advance p c s = .moved c' s') :
      Moves s (s'.park p c')
  | respond {s s' : State} {p : Nat} {c : InFlight} (hbusy : s.busyWith p c) (h : advance p c s = .done s') :
      Moves s s'

open Relation (ReflTransGen)

theorem State.port?_park (s : State) (p q : Nat) (c : InFlight) :
    (s.park p c).port? q = if p = q then (s.port? q).map (fun port => { port with inFlight := some c })
      else s.port? q := s.port?_modifyPort ..

theorem State.busyWith_park {port : Port} (hport : s.port? p = some port) (c : InFlight) :
    (s.park p c).busyWith p c := ⟨_, by rw [State.port?_park, if_pos rfl, hport]; rfl, rfl⟩

theorem State.park_busyWith (h : s.busyWith p c) : s.park p c = s := by
  obtain ⟨port, hport, hc⟩ := h
  cases s with
  | mk params banks ports cur agenda =>
    simp only [State.park, State.modifyPort, State.mk.injEq, true_and, and_true]
    apply List.ext_getElem?
    intro q
    simp only [State.port?] at hport
    by_cases hq : p = q
    · subst hq
      obtain ⟨f, queue, delivered⟩ := port
      subst hc
      simp [hport]
    · simp [hq]

/-- A micro-step that is taken leaves the ports as they are. -/
theorem port?_of_moved (h : advance p c s = .moved c' s') (q : Nat) : s'.port? q = s.port? q := by
  obtain ⟨rfl | ⟨f, g, rfl⟩, -⟩ := advance_moved h <;> rfl

/-- A command run with no other port moving is a row of moves of its port. -/
theorem drive_moves {n : Nat} {port : Port} (hport : s.port? p = some port)
    (h : conclude p (drive n p c s) = .next t) : ReflTransGen Moves (s.park p c) t := by
  induction n generalizing c s with
  | zero => cases h; exact .refl
  | succ n ih =>
    have hin := advance_park s p c c
    have hbusy := State.busyWith_park hport c
    simp only [drive] at h
    cases ha : advance p c s <;> rw [ha] at h hin
    case moved c' s' =>
      have hmove := Moves.micro hbusy hin
      rw [State.park_park] at hmove
      exact .head hmove (ih ((port?_of_moved ha p).trans hport) h)
    case blocked c' s' =>
      obtain ⟨rfl, rfl⟩ := advance_blocked ha
      cases h
      exact .refl
    case done s' => cases h; exact .single (.respond hbusy hin)
    case fault r => cases h

theorem runFrom_eq_drive (p : Nat) (c : InFlight) (s : State) : ∃ n, runFrom p c s = drive n p c s := by
  cases ha : advance p c s with
  | moved c' s' => exact ⟨c'.todo.length + 1, by simp [runFrom, drive, ha]⟩
  | blocked | done | fault => exact ⟨1, by simp [runFrom, drive, ha]⟩

theorem exec_eq_runCommand (i : Instr) (s : State) : exec i s = runCommand i s := by cases i <;> rfl

/-- What a command whose packet decodes does from its admission on is what it does in flight. -/
theorem runAdmitted_eq_runFrom {i : Instr} (hi : decode c.request = .ok i) (hc : c.todo = [.admitStep]) :
    runAdmitted p i c s = runFrom p c s := by
  have : advance p c s = admission p i c s := by simp [advance, hc, stepAdmit, hi]
  simp only [runAdmitted, runFrom, this]

end Sys2Proof.Machine
end

section
/-! A step of the machine is a row of indivisible moves, so what each of them keeps every step keeps. -/

namespace Sys2Proof.Machine

open Relation (ReflTransGen)
variable {p : Nat} {c c' d : InFlight} {s s' t : State}

theorem State.port?_takeRequest (s : State) (p q : Nat) : (s.takeRequest p).port? q =
    if p = q then (s.port? q).map (fun port => { port with queue := port.queue.tail }) else s.port? q :=
  s.port?_modifyPort ..

/-- The response to a packet check that failed follows its acceptance (R272, R273). -/
theorem raise_moves {port : Port} {packet : List Byte} {queue : List (List Byte)} {e : Status}
    (hport : s.port? p = some port) (hidle : port.inFlight = none) (hqueue : port.queue = packet :: queue)
    (he : acceptedCommand s packet = InFlight.failing packet e) :
    ReflTransGen Moves s ((s.takeRequest p).raise p e) := by
  have haccept := Moves.accept hport hidle hqueue
  rw [he] at haccept
  have hbusy : ((s.takeRequest p).park p (InFlight.failing packet e)).busyWith p (InFlight.failing packet e) :=
    State.busyWith_park (by rw [State.port?_takeRequest, if_pos rfl, hport]; rfl) _
  have hend := Moves.respond hbusy (p := p) rfl
  rw [State.deliver_park] at hend
  exact .tail (.single haccept) hend

/-- A request run whole is a row of moves of its port. -/
theorem runPacket_moves {port : Port} {packet : List Byte} {queue : List (List Byte)}
    (hport : s.port? s.cur = some port) (hidle : port.inFlight = none) (hqueue : port.queue = packet :: queue)
    (h : runPacket packet (s.takeRequest s.cur) = .next t) : ReflTransGen Moves s t := by
  have hport' : (s.takeRequest s.cur).port? s.cur = some { port with queue := port.queue.tail } := by
    rw [State.port?_takeRequest, if_pos rfl, hport]; rfl
  unfold runPacket at h
  cases hi : decode packet with
  | error e =>
    rw [hi] at h
    cases h
    exact raise_moves hport hidle hqueue (by simp [acceptedCommand, hi])
  | ok i =>
    have hcheck : packetCheck (s.takeRequest s.cur) i = packetCheck s i := rfl
    simp only [hi, exec_eq_runCommand, runCommand, State.takeRequest_cur, hport', hidle, hcheck,
      encode_of_decode hi] at h
    cases he : packetCheck s i with
    | some e =>
      rw [he] at h
      cases h
      exact raise_moves hport hidle hqueue (by simp [acceptedCommand, hi, he])
    | none =>
      have haccept := Moves.accept hport hidle hqueue
      rw [show acceptedCommand s packet = InFlight.accepted packet by simp [acceptedCommand, hi, he]] at haccept
      rw [he] at h
      obtain ⟨n, hn⟩ := runFrom_eq_drive s.cur (InFlight.accepted packet) (s.takeRequest s.cur)
      simp only [runAdmitted_eq_runFrom (c := InFlight.accepted packet) hi rfl, hn] at h
      exact .head haccept (drive_moves hport' h)

theorem commandMove_moves (h : commandMove s.cur s = .next t) : ReflTransGen Moves s t := by
  unfold commandMove at h
  split at h
  · cases h; exact .refl
  · next port hport =>
    split at h
    · next c hc =>
      obtain ⟨n, hn⟩ := runFrom_eq_drive s.cur c s
      rw [hn] at h
      have := drive_moves hport h
      rwa [State.park_busyWith ⟨port, hport, hc⟩] at this
    · next packet queue hidle hqueue => exact runPacket_moves hport hidle hqueue h
    · cases h; exact .refl

theorem microMove_moves (h : microMove p s = .next t) : ReflTransGen Moves s t := by
  unfold microMove at h
  split at h
  · cases h; exact .refl
  · next port hport =>
    split at h
    · cases h; exact .refl
    · next c hc =>
      have hbusy : s.busyWith p c := ⟨port, hport, hc⟩
      cases ha : advance p c s <;> rw [ha] at h <;> cases h
      · exact .single (.micro hbusy ha)
      · obtain ⟨rfl, rfl⟩ := advance_blocked ha
        rw [State.park_busyWith hbusy]
      · exact .single (.respond hbusy ha)

theorem acceptMove_moves (p : Nat) (s : State) : ReflTransGen Moves s (acceptMove p s) := by
  unfold acceptMove
  split
  · exact .refl
  · next port hport =>
    split
    · next packet queue hidle hqueue => exact .single (.accept hport hidle hqueue)
    · exact .refl

theorem performMove_moves {m : Move} (h : performMove m s = .next t) : ReflTransGen Moves s t := by
  have hturn : ∀ p, Moves s (s.turn p) := fun p => .schedule s p s.agenda
  cases m with
  | accept p => cases h; exact .head (hturn p) (acceptMove_moves p _)
  | micro p => exact .head (hturn p) (microMove_moves h)
  | command p => exact .head (hturn p) (commandMove_moves (s := s.turn p) h)
  | offer p packet => cases h; exact .single (.offer s p packet)
  | powerOn => cases h; exact .single (.powerOn s)

/-- A step of the machine is a row of indivisible moves. -/
theorem step_moves (h : step s = .next t) : ReflTransGen Moves s t := by
  unfold step at h
  split at h
  · unfold defaultMove at h
    split at h
    · exact performMove_moves h
    · cases h; exact .refl
  · exact .head (.schedule s s.cur _) (performMove_moves h)

/-- What every indivisible move keeps every step keeps. -/
theorem step_keeps {I : State → Prop} (hmoves : ∀ s t, I s → Moves s t → I t) (hs : I s) (h : step s = .next t) :
    I t := by
  have hrow := step_moves h
  clear h
  induction hrow with
  | refl => exact hs
  | tail _ hmove ih => exact hmoves _ _ ih hmove

end Sys2Proof.Machine
end

section
/-! What one move makes of the banks: the storage stays canonical (R41), and a writer excludes readers (R46). -/

namespace Sys2Proof.Machine

variable {p f : Nat} {c c' d : InFlight} {s s' t : State} {b b' : Bank}

/-! ### What one move does to a bank -/

theorem State.mem_banks_iff : b ∈ s.banks ↔ ∃ f, s.bank? f = some b := List.mem_iff_getElem?

/-- What a move from `s`, power-on reset aside, can make of its bank `f`, which is `b`. -/
inductive BankChange (s : State) (f : Nat) (b : Bank) : Bank → Prop
  | same : BankChange s f b b
  /-- a CONFIG is admitted (R255) -/
  | pending : BankChange s f b { b with guard := { b.guard with configPending := true } }
  /-- a command comes to its acquisition (R90) -/
  | wait (p : Nat) : BankChange s f b { b with guard := b.guard.wait p }
  | micro {p : Nat} {c : InFlight} {m : Micro} {rest : List Micro} (hbusy : s.busyWith p c) (htodo : c.todo = m :: rest)
      (hbank : m.bank = f) (hm : m.enabledOn p s b) : BankChange s f b (m.effect p c.latch b)

/-- A move other than power-on reset keeps the parameters and the number of banks. -/
structure Advances (s t : State) : Prop where
  params : t.params = s.params
  banks : t.banks.length = s.banks.length
  bank : ∀ f b', t.bank? f = some b' → ∃ b, s.bank? f = some b ∧ BankChange s f b b'

theorem Advances.of_same (hparams : t.params = s.params) (hbanks : t.banks = s.banks) : Advances s t :=
  ⟨hparams, by rw [hbanks], fun f b' hb => ⟨b', by rw [State.bank?, ← hbanks]; exact hb, .same⟩⟩

/-- Where a bank was changed, what each bank is. -/
theorem State.bank?_modifyBank_eq_some {f' : Nat} {g : Bank → Bank} (h : (s.modifyBank f g).bank? f' = some b') :
    ∃ b, s.bank? f' = some b ∧ (f = f' ∧ b' = g b ∨ f ≠ f' ∧ b' = b) := by
  rw [State.bank?_modifyBank] at h
  split at h
  · next hf =>
    obtain ⟨b, hb, rfl⟩ := Option.map_eq_some_iff.1 h
    exact ⟨b, hb, .inl ⟨hf, rfl⟩⟩
  · next hf => exact ⟨b', h, .inr ⟨hf, rfl⟩⟩

/-- One bank was changed. -/
theorem Advances.of_modifyBank {g : Bank → Bank} (h : ∀ b, s.bank? f = some b → BankChange s f b (g b)) :
    Advances s (s.modifyBank f g) := by
  refine ⟨rfl, List.length_modify .., fun f' b' hb => ?_⟩
  obtain ⟨b, hold, ⟨rfl, rfl⟩ | ⟨-, rfl⟩⟩ := State.bank?_modifyBank_eq_some hb
  · exact ⟨b, hold, h b hold⟩
  · exact ⟨b', hold, .same⟩

theorem Advances.afterAdmission (s : State) (p : Nat) (i : Instr) : Advances s (s.afterAdmission p i) := by
  unfold State.afterAdmission
  split
  · exact .of_modifyBank fun b _ => .pending
  · unfold State.reachLock
    split
    · exact .of_modifyBank fun b _ => .wait p
    · exact .of_same rfl rfl

theorem Admits.advances (h : Admits p c s c' s') : Advances s s' := by
  cases h with
  | undecodable | rejected => exact .of_same rfl rfl
  | admitted i => exact .afterAdmission s p i

theorem Takes.advances {m : Micro} {rest : List Micro} (hbusy : s.busyWith p c) (h : Takes p c s m rest c' s') :
    Advances s s' := by
  obtain ⟨b, hb, hm, -⟩ := h.bank
  rw [h.state]
  refine .of_modifyBank fun b' hb' => ?_
  rw [hb] at hb'
  cases hb'
  exact .micro hbusy h.todo rfl hm

theorem advance_moved_advances (hbusy : s.busyWith p c) (h : advance p c s = .moved c' s') : Advances s s' := by
  obtain ⟨-, h⟩ | ⟨m, rest, h⟩ := advance_moved_cases h
  · exact h.advances
  · exact h.advances hbusy

/-- A move is power-on reset, or it keeps the parameters and changes each bank in one of the ways above. -/
theorem Moves.advances (h : Moves s t) : t = s.powerOn ∨ Advances s t := by
  cases h with
  | schedule | offer | accept => exact .inr (.of_same rfl rfl)
  | powerOn => exact .inl rfl
  | respond hbusy h =>
    obtain ⟨_, _, _, -, rfl⟩ := advance_done h
    exact .inr (.of_same rfl rfl)
  | micro hbusy h =>
    obtain ⟨hparams, hbanks, hbank⟩ := advance_moved_advances hbusy h
    exact .inr ⟨hparams, hbanks, hbank⟩

/-- A predicate that a bank after power-on reset has, and that every change of a bank keeps, is kept by every move. -/
theorem Moves.keeps_banks {P : Params → Bank → Prop} (hreset : ∀ params, P params Bank.unconfigured)
    (hkeep : ∀ (f : Nat) (b b' : Bank), P s.params b → BankChange s f b b' → P s.params b')
    (hs : ∀ b ∈ s.banks, P s.params b) (h : Moves s t) : ∀ b ∈ t.banks, P t.params b := by
  intro b' hb'
  obtain rfl | ⟨hparams, -, hbank⟩ := h.advances
  · obtain ⟨b, -, rfl⟩ := List.mem_map.1 hb'
    exact hreset _
  · obtain ⟨f, hf⟩ := State.mem_banks_iff.1 hb'
    obtain ⟨b, hb, hchange⟩ := hbank f b' hf
    rw [hparams]
    exact hkeep f b b' (hs b (State.mem_banks_iff.2 ⟨f, hb⟩)) hchange

/-! ### The storage -/

theorem Bank.storageOk_write {L j : Nat} {v : Byte} (hb : b.storageOk L) (hj : j < 2 ^ L) :
    Memory.wf (Memory.write b.storage j v) ∧ ∀ x ∈ Memory.write b.storage j v, x.1 < 2 ^ L := by
  refine ⟨Memory.wf_write hb.1 j v, fun x hx => ?_⟩
  obtain hx | ⟨rfl, -⟩ := Memory.mem_write hx
  · exact hb.2 x hx
  · exact hj

/-- A micro-step that is taken stores inside the bank and keeps its storage canonical. -/
theorem Micro.effect_storageOk {m : Micro} {l : Latch} (hb : b.storageOk s.params.log2MaxBytes)
    (hm : m.enabledOn p s b) : (m.effect p l b).storageOk s.params.log2MaxBytes := by
  cases m with
  | configure f capacity k conc =>
    exact ⟨Memory.wf_zeroBelow hb.1 _, fun x hx => hb.2 x (List.mem_of_mem_filter hx)⟩
  | setWrite | orWrite | zeroByte => exact b.storageOk_write hb hm
  | _ => exact hb

theorem BankChange.storageOk (h : BankChange s f b b') (hb : b.storageOk s.params.log2MaxBytes) :
    b'.storageOk s.params.log2MaxBytes := by
  cases h with
  | same | pending | wait => exact hb
  | micro _ _ _ hm => exact Micro.effect_storageOk hb hm

theorem Bank.unconfigured_storageOk (L : Nat) : Bank.unconfigured.storageOk L :=
  ⟨⟨.nil, by simp [Bank.unconfigured]⟩, by simp [Bank.unconfigured]⟩

/-- Settles O50: every move changes a bank's storage only by writes of bytes that exist, by zeroing, or by reset. -/
theorem storageStaysCanonical : Obligations.StorageStaysCanonical := by
  intro s t hs h
  exact step_keeps (fun _ _ => Moves.keeps_banks (P := fun params b => b.storageOk params.log2MaxBytes)
    (fun _ => Bank.unconfigured_storageOk _) (fun _ _ _ hb hchange => hchange.storageOk hb)) hs h

/-! ### The guard -/

/-- A micro-step that is taken lets no reader in beside a writer (R90). -/
theorem Micro.effect_guard {m : Micro} {l : Latch} (hb : b.guard.writer ≠ none → b.guard.readers = [])
    (hm : m.enabledOn p s b) :
    (m.effect p l b).guard.writer ≠ none → (m.effect p l b).guard.readers = [] := by
  cases m with
  | acquireExcl => exact fun _ => hm.2
  | acquireShared => exact fun h => absurd hm h
  | release =>
    simp only [Micro.effect, Guard.release]
    split
    · exact fun h => absurd rfl h
    · exact fun h => by simp [hb h, removePort]
  | _ => exact hb

theorem BankChange.guard (h : BankChange s f b b') (hb : b.guard.writer ≠ none → b.guard.readers = []) :
    b'.guard.writer ≠ none → b'.guard.readers = [] := by
  cases h with
  | same | pending | wait => exact hb
  | micro _ _ _ hm => exact Micro.effect_guard hb hm

theorem Moves.guardInv (hs : s.GuardInv) (h : Moves s t) : t.GuardInv :=
  h.keeps_banks (P := fun _ b => b.guard.writer ≠ none → b.guard.readers = []) (fun _ h => absurd rfl h)
    (fun _ _ _ hb hchange => hchange.guard hb) hs

/-- Settles O53: a writer enters only where no reader is, and readers only where no writer is. -/
theorem writerExcludesReaders : Obligations.WriterExcludesReaders := by
  intro s t hs h
  exact step_keeps (I := State.GuardInv) (fun _ _ => Moves.guardInv) hs h

end Sys2Proof.Machine
end

section
/-! The programs of R86, once for all: what their micro-steps are, and where the guard's micro-steps stand. -/

namespace Sys2Proof.Machine

variable {params : Params} {b : Bank} {i : Instr} {m : Micro} {f : Nat}

/-- The micro-steps of a command other than CONFIG on the bank `b` that its FID names, without the guard's and the
response (R86). -/
inductive BodyMicro (params : Params) (b : Bank) (i : Instr) : Micro → Prop
  | setRead {key : List Byte} {j : Nat} (hkey : key ∈ insertedKeys i) (hj : j < b.k.toNat) :
      BodyMicro params b i (.setRead (bankOf i.fid) (baseHash params key) j)
  | setWrite {key : List Byte} {j : Nat} (hkey : key ∈ insertedKeys i) (hj : j < b.k.toNat) :
      BodyMicro params b i (.setWrite (bankOf i.fid) (baseHash params key) j)
  | testRead (h : HashQuad) (j : Nat) : BodyMicro params b i (.testRead (bankOf i.fid) h j)
  | readCount : BodyMicro params b i (.readCount (bankOf i.fid))
  | writeCountSucc (hi : isInsertion i = true) : BodyMicro params b i (.writeCountSucc (bankOf i.fid))
  | writeCountZero (hi : i = .reset i.fid) : BodyMicro params b i (.writeCountZero (bankOf i.fid))
  | orReadSource {j : Nat} (hi : i = .merge i.fid i.sfid) (hj : j < b.bitlen.toNat) :
      BodyMicro params b i (.orReadSource (bankOf i.sfid) j)
  | orReadDest {j : Nat} (hi : i = .merge i.fid i.sfid) (hj : j < b.bitlen.toNat) :
      BodyMicro params b i (.orReadDest (bankOf i.fid) j)
  | orWrite {j : Nat} (hi : i = .merge i.fid i.sfid) (hj : j < b.bitlen.toNat) :
      BodyMicro params b i (.orWrite (bankOf i.fid) j)
  | zeroByte {j : Nat} (hi : i = .reset i.fid) (hj : j < b.bitlen.toNat) :
      BodyMicro params b i (.zeroByte (bankOf i.fid) j)

/-! ### The loops -/

theorem mem_setBitOps {h : HashQuad} {n j : Nat} (hm : m ∈ setBitOps f h j n) :
    ∃ x, j ≤ x ∧ x < j + n ∧ (m = .setRead f h x ∨ m = .setWrite f h x) := by
  induction n generalizing j with
  | zero => cases hm
  | succ n ih =>
    simp only [setBitOps, List.mem_cons] at hm
    obtain rfl | rfl | hm := hm
    · exact ⟨j, le_rfl, by omega, .inl rfl⟩
    · exact ⟨j, le_rfl, by omega, .inr rfl⟩
    · obtain ⟨x, h1, h2, hx⟩ := ih hm
      exact ⟨x, by omega, by omega, hx⟩

theorem mem_testBitOps {h : HashQuad} {n j : Nat} (hm : m ∈ testBitOps f h j n) : ∃ x, m = .testRead f h x := by
  induction n generalizing j with
  | zero => cases hm
  | succ n ih =>
    simp only [testBitOps, List.mem_cons] at hm
    obtain rfl | hm := hm
    · exact ⟨j, rfl⟩
    · exact ih hm

theorem mem_orByteOps {fd fs n j : Nat} (hm : m ∈ orByteOps fd fs j n) :
    ∃ x, x < j + n ∧ (m = .orReadSource fs x ∨ m = .orReadDest fd x ∨ m = .orWrite fd x) := by
  induction n generalizing j with
  | zero => cases hm
  | succ n ih =>
    simp only [orByteOps, List.mem_cons] at hm
    obtain rfl | rfl | rfl | hm := hm
    · exact ⟨j, by omega, .inl rfl⟩
    · exact ⟨j, by omega, .inr (.inl rfl)⟩
    · exact ⟨j, by omega, .inr (.inr rfl)⟩
    · obtain ⟨x, h1, hx⟩ := ih hm
      exact ⟨x, by omega, hx⟩

theorem mem_zeroByteOps {n j : Nat} (hm : m ∈ zeroByteOps f j n) : ∃ x, x < j + n ∧ m = .zeroByte f x := by
  induction n generalizing j with
  | zero => cases hm
  | succ n ih =>
    simp only [zeroByteOps, List.mem_cons] at hm
    obtain rfl | hm := hm
    · exact ⟨j, by omega, rfl⟩
    · obtain ⟨x, h1, hx⟩ := ih hm
      exact ⟨x, by omega, hx⟩

theorem mem_addKeysOps {k : Word32} {keys : List (List Byte)} (hm : m ∈ addKeysOps params f k keys) :
    (∃ key ∈ keys, ∃ x < k.toNat, m = .setRead f (baseHash params key) x ∨ m = .setWrite f (baseHash params key) x) ∨
      m = .readCount f ∨ m = .writeCountSucc f := by
  induction keys with
  | nil => cases hm
  | cons key keys ih =>
    simp only [addKeysOps, addKeyOps, List.mem_append, List.mem_cons, List.not_mem_nil, or_false] at hm
    obtain (hm | hm) | hm := hm
    · obtain ⟨x, -, hx, hm⟩ := mem_setBitOps hm
      exact .inl ⟨key, by simp, x, by omega, hm⟩
    · exact .inr hm
    · obtain ⟨key', hkey', h⟩ | h := ih hm
      · exact .inl ⟨key', by simp [hkey'], h⟩
      · exact .inr h

/-! ### The bodies -/

/-- What a command other than CONFIG does on its bank between the guard's micro-steps: a row of R86's table. -/
inductive Body (params : Params) (b : Bank) (i : Instr) : List Micro → Prop
  | insertion (hi : isInsertion i = true) : Body params b i (addKeysOps params (bankOf i.fid) b.k (insertedKeys i))
  | test {key : List Byte} (hi : testedKey i = some key) :
      Body params b i (testBitOps (bankOf i.fid) (baseHash params key) 0 b.k.toNat)
  | merge (hi : i = .merge i.fid i.sfid) :
      Body params b i (orByteOps (bankOf i.fid) (bankOf i.sfid) 0 b.bitlen.toNat)
  | reset (hi : i = .reset i.fid) :
      Body params b i (zeroByteOps (bankOf i.fid) 0 b.bitlen.toNat ++ [.writeCountZero (bankOf i.fid)])
  | registers (hi : isReading i = true) : Body params b i []
  | count (hi : isReading i = true) : Body params b i [.readCount (bankOf i.fid)]

theorem Body.mem {body : List Micro} (h : Body params b i body) (hm : m ∈ body) : BodyMicro params b i m := by
  cases h with
  | insertion hi =>
    obtain ⟨key, hkey, x, hx, rfl | rfl⟩ | rfl | rfl := mem_addKeysOps hm
    · exact .setRead hkey hx
    · exact .setWrite hkey hx
    · exact .readCount
    · exact .writeCountSucc hi
  | test hi =>
    obtain ⟨x, rfl⟩ := mem_testBitOps hm
    exact .testRead _ x
  | merge hi =>
    obtain ⟨x, hx, rfl | rfl | rfl⟩ := mem_orByteOps hm <;> rw [Nat.zero_add] at hx
    · exact .orReadSource hi hx
    · exact .orReadDest hi hx
    · exact .orWrite hi hx
  | reset hi =>
    obtain hm | hm := List.mem_append.1 hm
    · obtain ⟨x, hx, rfl⟩ := mem_zeroByteOps hm
      exact .zeroByte hi (by omega)
    · cases List.mem_singleton.1 hm
      exact .writeCountZero hi
  | registers => cases hm
  | count =>
    cases List.mem_singleton.1 hm
    exact .readCount

/-- The acquisition of a command: shared for a read-only one, exclusive for the others (R86, R88). -/
def lockMicro (i : Instr) : Micro :=
  if isReading i then .acquireShared (bankOf i.fid) else .acquireExcl (bankOf i.fid)

/-- A body under a guard, where the bank's CONC is 1 (R38, R90). -/
def guarded (b : Bank) (i : Instr) (body : List Micro) (answer : Answer) : List Micro :=
  if b.conc then lockMicro i :: (body ++ [.release (bankOf i.fid), .respond .ok answer])
  else body ++ [.respond .ok answer]

/-- The program of every command but CONFIG is a body under the guard of its FID's bank (R86). -/
theorem program_eq_guarded (params : Params) (b : Bank) (h : i.opcode ≠ .config) :
    ∃ body answer, Body params b i body ∧ program params b i = guarded b i body answer := by
  cases i with
  | config => exact absurd rfl h
  | add | addStr | addU16 | addU32 | addU64 =>
    exact ⟨_, .const 0, .insertion rfl, by simp only [insertedKeys, addKeysOps, List.append_nil]; rfl⟩
  | addb | addbU16 | addbU32 | addbU64 => exact ⟨_, .const 0, .insertion rfl, rfl⟩
  | test | testStr | testU16 | testU32 | testU64 => exact ⟨_, .hit, .test rfl, rfl⟩
  | merge => exact ⟨_, .const 0, .merge rfl, rfl⟩
  | reset => exact ⟨_, .const 0, .reset rfl, rfl⟩
  | cap => exact ⟨_, .const b.bitlen, .registers rfl, rfl⟩
  | size => exact ⟨_, .count, .count rfl, rfl⟩
  | fpr => exact ⟨_, .estimate b.k b.bitlen, .count rfl, rfl⟩

/-- The program of CONFIG (R250). -/
theorem program_config (params : Params) (b : Bank) (fid : FilterId) (conc : Bool) (capacity : Word64) (k : Word32) :
    program params b (.config fid conc capacity k) =
      [.configure (bankOf fid) capacity k conc, .respond .ok (.const 0)] := rfl

/-- The micro-steps of a command's program. -/
inductive ProgramMicro (params : Params) (b : Bank) (i : Instr) : Micro → Prop
  | body {m : Micro} (hi : i.opcode ≠ .config) (hm : BodyMicro params b i m) : ProgramMicro params b i m
  | configure {fid : FilterId} {conc : Bool} {capacity : Word64} {k : Word32} (hi : i = .config fid conc capacity k) :
      ProgramMicro params b i (.configure (bankOf fid) capacity k conc)
  | lock (hi : i.opcode ≠ .config) (hconc : b.conc = true) : ProgramMicro params b i (lockMicro i)
  | release (hi : i.opcode ≠ .config) (hconc : b.conc = true) : ProgramMicro params b i (.release (bankOf i.fid))
  | respond (answer : Answer) : ProgramMicro params b i (.respond .ok answer)

theorem mem_guarded {body : List Micro} {answer : Answer} (hm : m ∈ guarded b i body answer) :
    m ∈ body ∨ m = .respond .ok answer ∨ b.conc = true ∧ (m = lockMicro i ∨ m = .release (bankOf i.fid)) := by
  unfold guarded at hm
  split at hm
  · next hconc => simp only [List.mem_cons, List.mem_append, List.not_mem_nil, or_false] at hm; tauto
  · simp only [List.mem_cons, List.mem_append, List.not_mem_nil, or_false] at hm; tauto

theorem mem_program (hm : m ∈ program params b i) : ProgramMicro params b i m := by
  by_cases hi : i.opcode = .config
  · cases i <;> cases hi
    rw [program_config] at hm
    obtain rfl | hm := List.mem_cons.1 hm
    · exact .configure rfl
    · cases List.mem_singleton.1 hm
      exact .respond _
  · obtain ⟨body, answer, hbody, heq⟩ := program_eq_guarded params b hi
    rw [heq] at hm
    obtain hm | rfl | ⟨hconc, rfl | rfl⟩ := mem_guarded hm
    · exact .body hi (hbody.mem hm)
    · exact .respond _
    · exact .lock hi hconc
    · exact .release hi hconc

end Sys2Proof.Machine
end

section
/-! The registers of configured banks stay legal (R36, R40), and so does what remains of the commands in flight. -/

namespace Sys2Proof.Machine

variable {p q f : Nat} {c c' d : InFlight} {s s' t : State} {b b' : Bank}

/-! ### The commands in flight after a move -/

theorem State.busyWith_park_iff : (s.park p c).busyWith q d ↔
    if p = q then d = c ∧ ∃ port, s.port? p = some port else s.busyWith q d := by
  unfold State.busyWith
  rw [State.port?_park]
  split
  · next h => subst h; cases s.port? p <;> simp [eq_comm]
  · rfl

theorem State.busyWith_deliver_iff {r : Response} : (s.deliver p r).busyWith q d ↔ p ≠ q ∧ s.busyWith q d := by
  unfold State.busyWith
  rw [State.deliver_eq, State.port?_modifyPort]
  split
  · next h => subst h; cases s.port? p <;> simp
  · next h => simp [h]

theorem State.not_busyWith_powerOn : ¬ s.powerOn.busyWith p c := by
  rintro ⟨port, hport, hc⟩
  simp only [State.port?, State.powerOn, List.getElem?_map, Option.map_eq_some_iff] at hport
  obtain ⟨port, -, rfl⟩ := hport
  cases hc

theorem State.busyWith_of_ports (h : t.ports = s.ports) : t.busyWith q d ↔ s.busyWith q d := by
  simp only [State.busyWith, State.port?, h]

theorem State.busyWith_takeRequest_iff : (s.takeRequest p).busyWith q d ↔ s.busyWith q d := by
  unfold State.busyWith
  rw [State.port?_takeRequest]
  split
  · cases s.port? q <;> simp
  · rfl

theorem State.busyWith_offer_iff {packet : List Byte} : (s.offer p packet).busyWith q d ↔ s.busyWith q d := by
  unfold State.busyWith State.offer
  rw [State.port?_modifyPort]
  split
  · cases s.port? q <;> simp
  · rfl

theorem ports_of_moved (h : advance p c s = .moved c' s') : s'.ports = s.ports := by
  obtain ⟨rfl | ⟨f, g, rfl⟩, -⟩ := advance_moved h <;> rfl

/-- The command that port `q` holds after a move: the one it held, or the one that the move gave it. -/
theorem Moves.busyWith (h : Moves s t) (hq : t.busyWith q d) :
    s.busyWith q d ∨ (∃ packet, d = acceptedCommand s packet) ∨
      ∃ c s', s.busyWith q c ∧ advance q c s = .moved d s' ∧ t = s'.park q d := by
  cases h with
  | schedule => exact .inl hq
  | offer => exact .inl (State.busyWith_offer_iff.1 hq)
  | powerOn => exact absurd hq State.not_busyWith_powerOn
  | accept =>
    rw [State.busyWith_park_iff] at hq
    split at hq
    · exact .inr (.inl ⟨_, hq.1⟩)
    · exact .inl (State.busyWith_takeRequest_iff.1 hq)
  | micro hbusy h =>
    rw [State.busyWith_park_iff] at hq
    split at hq
    · next hpq =>
      subst hpq
      obtain ⟨rfl, -⟩ := hq
      exact .inr (.inr ⟨_, _, hbusy, h, rfl⟩)
    · exact .inl ((State.busyWith_of_ports (ports_of_moved h)).1 hq)
  | respond hbusy h =>
    obtain ⟨_, _, _, -, rfl⟩ := advance_done h
    exact .inl (State.busyWith_deliver_iff.1 hq).2

/-! ### Registers -/

theorem ceilLog2From_le {c L : Nat} (hc : c ≤ 2 ^ L) (fuel l : Nat) (hl : l ≤ L) : ceilLog2From c fuel l ≤ L := by
  induction fuel generalizing l with
  | zero => exact hl
  | succ fuel ih =>
    rw [ceilLog2From]
    split
    · exact hl
    · next h =>
      refine ih (l + 1) (Nat.lt_of_le_of_ne hl ?_)
      rintro rfl
      exact h hc

/-- CONFIG's atomic step brings legal registers (R250, R252). -/
theorem Bank.configure_legal {L : Nat} {capacity : Word64} {k : Word32} {conc : Bool} (hL : L ≤ 61) (hk : k ≠ 0)
    (hcap : capacity.toNat ≤ 2 ^ L) : (b.configure capacity k conc).legal L := by
  have hle : ceilLog2 capacity.toNat ≤ L := ceilLog2From_le hcap _ 0 (Nat.zero_le L)
  have hlog : (BitVec.ofNat 6 (ceilLog2 capacity.toNat)).toNat = ceilLog2 capacity.toNat :=
    (BitVec.toNat_ofNat ..).trans (Nat.mod_eq_of_lt (by omega))
  refine ⟨?_, ?_, hk⟩
  · simp only [Bank.configure, hlog, hle]
  · simp only [Bank.configure, hlog]

/-- What a command in flight leans on, and every move but power-on reset keeps. -/
structure Extends (s t : State) : Prop where
  params : t.params = s.params
  banks : t.banks.length = s.banks.length
  configured : ∀ f, configured s f = true → configured t f = true

theorem configured_iff : configured s f = true ↔ ∃ b, s.bank? f = some b ∧ b.cfg = true := by
  unfold configured
  cases s.bank? f <;> simp

theorem BankChange.cfg (h : BankChange s f b b') (hb : b.cfg = true) : b'.cfg = true := by
  cases h with
  | same | pending | wait => exact hb
  | @micro _ _ m =>
    cases m with
    | configure => rfl
    | _ => exact hb

theorem Advances.extends (h : Advances s t) : Extends s t := by
  refine ⟨h.params, h.banks, fun f hf => ?_⟩
  obtain ⟨b, hb, hcfg⟩ := configured_iff.1 hf
  have hlt : f < t.banks.length := h.banks ▸ bank?_lt hb
  obtain ⟨b₀, hb₀, hchange⟩ := h.bank f _ (List.getElem?_eq_getElem hlt)
  rw [hb] at hb₀
  cases hb₀
  exact configured_iff.2 ⟨_, List.getElem?_eq_getElem hlt, hchange.cfg hcfg⟩

theorem Micro.legal.mono {m : Micro} (h : Extends s t) (hm : m.legal s) : m.legal t := by
  have hphys : t.physicalBytes = s.physicalBytes := by simp only [State.physicalBytes, h.params]
  cases m with
  | admitStep | respond => trivial
  | setRead | setWrite | testRead => exact h.configured _ hm
  | _ => simpa only [Micro.legal, h.banks, hphys] using hm

theorem packetCheck_congr (hparams : t.params = s.params) (hbanks : t.banks.length = s.banks.length) (i : Instr) :
    packetCheck t i = packetCheck s i := by
  have hphys : t.physicalBytes = s.physicalBytes := by simp only [State.physicalBytes, hparams]
  unfold packetCheck configCheck
  rw [hbanks, hphys]

theorem InFlight.legal.mono (h : Extends s t) (hc : c.legal s) : c.legal t :=
  ⟨fun m hm => (hc.1 m hm).mono h, fun hm i hi => by
    rw [packetCheck_congr h.params h.banks]; exact hc.2 hm i hi⟩

/-! ### The checks of R273, read backwards -/

theorem packetCheck_none_iff {i : Instr} : packetCheck s i = none ↔
    bankOf i.fid < s.banks.length ∧ (i.opcode = .merge → bankOf i.sfid < s.banks.length) ∧ configCheck s i = none := by
  unfold packetCheck
  by_cases h1 : s.banks.length ≤ bankOf i.fid
  · simp [h1]
  · by_cases h2 : i.opcode = .merge ∧ s.banks.length ≤ bankOf i.sfid
    · simp [h1, h2]
    · simp only [h1, h2, if_false]
      exact ⟨fun h => ⟨by omega, fun hm => by by_contra hlt; exact h2 ⟨hm, by omega⟩, h⟩, fun h => h.2.2⟩

theorem configured_of_bankCheck {i : Instr} (h : bankCheck s i = none) (hi : i.opcode ≠ .config) :
    configured s (bankOf i.fid) = true := by
  unfold bankCheck at h
  split at h
  · cases h
  · next hn => simpa [hi] using hn

theorem configCheck_none_iff {fid : FilterId} {conc : Bool} {capacity : Word64} {k : Word32} :
    configCheck s (.config fid conc capacity k) = none ↔
      capacity ≠ 0 ∧ k ≠ 0 ∧ capacity.toNat ≤ s.physicalBytes := by
  simp only [configCheck]
  split
  · next h => exact iff_of_false nofun fun hall => hall.1 h
  · next hcap =>
    split
    · next h => exact iff_of_false nofun fun hall => hall.2.1 h
    · next hk =>
      split
      · next h => exact iff_of_false nofun fun hall => absurd hall.2.2 (Nat.not_le.2 h)
      · next h => exact iff_of_true rfl ⟨hcap, hk, Nat.not_lt.1 h⟩

/-! ### The registers stay legal -/

/-- The program of a command that passed its checks touches only banks and bytes that exist. -/
theorem program_legal {i : Instr} {m : Micro} (hs : s.RegisterInv) (hpacket : packetCheck s i = none)
    (hbank : bankCheck s i = none) (hm : m ∈ program s.params (homeBank s i) i) : m.legal s := by
  obtain ⟨hfid, hsfid, hconfig⟩ := packetCheck_none_iff.1 hpacket
  cases mem_program hm with
  | respond => trivial
  | configure hi =>
    subst hi
    exact ⟨hfid, configCheck_none_iff.1 hconfig⟩
  | lock hi hconc => unfold lockMicro; split <;> exact hfid
  | release => exact hfid
  | body hi hm =>
    have hcfg := configured_of_bankCheck hbank hi
    obtain ⟨b, hb, hbcfg⟩ := configured_iff.1 hcfg
    have hhome : homeBank s i = b := by simp [homeBank, hb]
    have hlegal := hs.2.1 b (State.mem_banks_iff.2 ⟨_, hb⟩) hbcfg
    have hbyte : ∀ j, j < (homeBank s i).bitlen.toNat → j < s.physicalBytes := fun j hj => by
      rw [hhome, bitlen_toNat hlegal] at hj
      exact lt_of_lt_of_le hj (Nat.pow_le_pow_right (by decide) hlegal.1)
    cases hm with
    | setRead | setWrite | testRead => exact hcfg
    | readCount | writeCountSucc | writeCountZero => exact hfid
    | orReadSource hi hj => exact ⟨hsfid (by rw [hi]; rfl), hbyte _ hj⟩
    | orReadDest _ hj | orWrite _ hj | zeroByte _ hj => exact ⟨hfid, hbyte _ hj⟩

theorem dropTests_subset (todo : List Micro) : dropTests todo ⊆ todo := by
  induction todo with
  | nil => exact List.Subset.refl _
  | cons m rest ih =>
    cases m with
    | testRead => exact fun x hx => List.mem_cons_of_mem _ (ih hx)
    | _ => exact List.Subset.refl _

theorem Takes.todo_subset {m : Micro} {rest : List Micro} (h : Takes p c s m rest c' s') : c'.todo ⊆ c.todo := by
  rw [h.todo]
  obtain hrest | ⟨-, hrest⟩ := h.command.todo <;> rw [hrest]
  · exact List.subset_cons_self _ _
  · exact List.Subset.trans (dropTests_subset _) (List.subset_cons_self _ _)

theorem InFlight.legal_of_respond {e : Status} {a : Answer} (h : c.todo = [.respond e a]) : c.legal s := by
  unfold InFlight.legal
  rw [h]
  refine ⟨fun m hm => ?_, fun hm => ?_⟩
  · cases List.mem_singleton.1 hm; trivial
  · cases List.mem_singleton.1 hm

/-- A micro-step keeps what remains of its command legal. -/
theorem InFlight.legal_of_moved (hs : s.RegisterInv) (hbusy : s.busyWith p c) (hc : c.legal s)
    (h : advance p c s = .moved c' s') : c'.legal s' := by
  obtain ⟨htodo, hcheck⟩ := hc
  have hext := (advance_moved_advances hbusy h).extends
  obtain ⟨⟨rest, hrest⟩, hadmit⟩ | ⟨m, rest, htakes⟩ := advance_moved_cases h
  · cases hadmit with
    | undecodable | rejected => exact InFlight.legal_of_respond rfl
    | admitted i hi _ hbank =>
      have hpacket : packetCheck s i = none := hcheck (by simp [hrest]) i hi
      refine ⟨fun m hm => (program_legal hs hpacket hbank hm).mono hext, fun _ i' hi' => ?_⟩
      cases hi.symm.trans hi'
      rw [packetCheck_congr hext.params hext.banks]
      exact hpacket
  · refine InFlight.legal.mono hext ⟨fun m hm => htodo m (htakes.todo_subset hm), fun hm i hi => ?_⟩
    exact hcheck (htakes.todo_subset hm) i (htakes.command.request ▸ hi)

theorem acceptedCommand_legal (s : State) (packet : List Byte) : (acceptedCommand s packet).legal s := by
  unfold acceptedCommand
  split
  · exact InFlight.legal_of_respond rfl
  · next i hi =>
    split
    · exact InFlight.legal_of_respond rfl
    · next hcheck =>
      refine ⟨fun m hm => ?_, fun _ i' hi' => ?_⟩
      · cases List.mem_singleton.1 hm; trivial
      · cases hi.symm.trans hi'; exact hcheck

theorem BankChange.legal (hs : s.RegisterInv) (h : BankChange s f b b')
    (hb : b.cfg = true → b.legal s.params.log2MaxBytes) : b'.cfg = true → b'.legal s.params.log2MaxBytes := by
  cases h with
  | same | pending | wait => exact hb
  | @micro p c m rest hbusy htodo _ hm =>
    obtain ⟨port, hport, hc⟩ := hbusy
    have hlegal := (hs.2.2 port (List.mem_of_getElem? hport) c hc).1 m (by simp [htodo])
    cases m with
    | configure f capacity k conc => exact fun _ => Bank.configure_legal hs.1 hlegal.2.2.1 hlegal.2.2.2
    | _ => exact hb

theorem State.inFlight_legal_iff :
    (∀ port ∈ t.ports, ∀ c, port.inFlight = some c → c.legal t) ↔ ∀ p c, t.busyWith p c → c.legal t := by
  constructor
  · rintro h p c ⟨port, hport, hc⟩
    exact h port (List.mem_of_getElem? hport) c hc
  · intro h port hport c hc
    obtain ⟨p, hp⟩ := List.mem_iff_getElem?.1 hport
    exact h p c ⟨port, hp, hc⟩

theorem Moves.registerInv (hs : s.RegisterInv) (h : Moves s t) : t.RegisterInv := by
  have hparams : t.params = s.params := by
    obtain rfl | h := h.advances
    · rfl
    · exact h.params
  refine ⟨hparams ▸ hs.1, ?_, State.inFlight_legal_iff.2 fun q d hq => ?_⟩
  · exact h.keeps_banks (P := fun params b => b.cfg = true → b.legal params.log2MaxBytes)
      (fun _ h => absurd h (by decide)) (fun _ _ _ hb hchange => hchange.legal hs hb) hs.2.1
  · obtain rfl | hadv := h.advances
    · exact absurd hq State.not_busyWith_powerOn
    have hlegal := State.inFlight_legal_iff.1 hs.2.2
    obtain hold | ⟨packet, rfl⟩ | ⟨c, s', hbusy, hmoved, rfl⟩ := h.busyWith hq
    · exact (hlegal q d hold).mono hadv.extends
    · exact (acceptedCommand_legal s packet).mono hadv.extends
    · exact (InFlight.legal_of_moved hs hbusy (hlegal q c hbusy) hmoved).mono ⟨rfl, rfl, fun _ h => h⟩

/-- Settles O51: only CONFIG's atomic step changes registers, and what it brings passed the checks of R252. -/
theorem registersStayLegal : Obligations.RegistersStayLegal := by
  intro s t hs h
  exact step_keeps (I := State.RegisterInv) (fun _ _ => Moves.registerInv) hs h

end Sys2Proof.Machine
end

section
/-! What the guards and the interlock bits say of the commands in flight (R46, R90, R255): where a command stands in its
program gives its port a role at the bank's guard, and each micro-step moves the guard as it moves the role. -/

namespace Sys2Proof.Machine

variable {p q f : Nat} {c c' d : InFlight} {s s' t : State} {b b' : Bank} {i : Instr} {m : Micro}
  {todo rest : List Micro}

/-! ### Where a command stands towards its bank's guard -/

/-- A micro-step of a body: neither the guard's, nor CONFIG's, nor the first or the last. -/
def Micro.plain : Micro → Bool
  | .admitStep | .configure _ _ _ _ | .acquireExcl _ | .acquireShared _ | .release _ | .respond _ _ => false
  | .setRead _ _ _ | .setWrite _ _ _ | .testRead _ _ _ | .readCount _ | .writeCountSucc _ | .writeCountZero _
  | .orReadSource _ _ | .orReadDest _ _ | .orWrite _ _ | .zeroByte _ _ => true

/-- What remains is some micro-steps of a body, then `tail`. -/
inductive LeadsTo (tail : List Micro) : List Micro → Prop
  | here : LeadsTo tail tail
  | plain {m : Micro} {todo : List Micro} (hm : m.plain = true) (h : LeadsTo tail todo) : LeadsTo tail (m :: todo)

/-- What remains of an admitted command `i` at each point of its program (R86). -/
inductive Stage (i : Instr) : List Micro → Prop
  /-- before its acquisition -/
  | waits {todo : List Micro} (answer : Answer)
      (h : LeadsTo [.release (bankOf i.fid), .respond .ok answer] todo) : Stage i (lockMicro i :: todo)
  /-- between acquisition and release -/
  | locked {todo : List Micro} (answer : Answer)
      (h : LeadsTo [.release (bankOf i.fid), .respond .ok answer] todo) : Stage i todo
  /-- after its release, or anywhere on a bank whose guard it bypasses -/
  | unguarded {todo : List Micro} (status : Status) (answer : Answer)
      (h : LeadsTo [.respond status answer] todo) : Stage i todo
  /-- before CONFIG's atomic step -/
  | configures (capacity : Word64) (k : Word32) (conc : Bool) (answer : Answer) (hi : i.opcode = .config) :
      Stage i [.configure (bankOf i.fid) capacity k conc, .respond .ok answer]

theorem LeadsTo.append {tail body : List Micro} (hbody : ∀ m ∈ body, m.plain = true) : LeadsTo tail (body ++ tail) := by
  induction body with
  | nil => exact .here
  | cons m body ih => exact .plain (hbody m (by simp)) (ih fun x hx => hbody x (by simp [hx]))

theorem LeadsTo.mem {tail : List Micro} (h : LeadsTo tail todo) (hm : m ∈ todo) : m.plain = true ∨ m ∈ tail := by
  induction h with
  | here => exact .inr hm
  | plain hp _ ih =>
    obtain rfl | hm := List.mem_cons.1 hm
    · exact .inl hp
    · exact ih hm

theorem LeadsTo.subset {tail : List Micro} (h : LeadsTo tail todo) : tail ⊆ todo := by
  induction h with
  | here => exact List.Subset.refl _
  | plain _ _ ih => exact List.subset_cons_of_subset _ ih

/-- The TestBits that a TestBit finding a 0 drops are micro-steps of a body (R185). -/
theorem LeadsTo.dropTests {tail : List Micro} (htail : dropTests tail = tail) (h : LeadsTo tail todo) :
    LeadsTo tail (dropTests todo) := by
  induction h with
  | here => rw [htail]; exact .here
  | @plain m todo hm h ih =>
    cases m with
    | testRead => exact ih
    | _ => exact .plain hm h

theorem LeadsTo.ne_nil {tail : List Micro} (h : LeadsTo (m :: tail) todo) : todo ≠ [] :=
  List.ne_nil_of_mem (h.subset List.mem_cons_self)

theorem BodyMicro.plain {params : Params} (h : BodyMicro params b i m) : m.plain = true := by cases h <;> rfl

theorem stage_program (params : Params) (b : Bank) (i : Instr) : Stage i (program params b i) := by
  by_cases hi : i.opcode = .config
  · cases i <;> cases hi
    exact .configures _ _ _ _ rfl
  · obtain ⟨body, answer, hbody, heq⟩ := program_eq_guarded params b hi
    have hplain : ∀ m ∈ body, m.plain = true := fun m hm => (hbody.mem hm).plain
    rw [heq, guarded]
    split
    · exact .waits answer (.append hplain)
    · exact .unguarded .ok answer (.append hplain)

theorem Stage.ne_nil (h : Stage i todo) : todo ≠ [] := by
  cases h with
  | waits | configures => exact List.cons_ne_nil _ _
  | locked _ h | unguarded _ _ h => exact h.ne_nil

/-- What a micro-step makes of where its command stands. -/
inductive StageStep (i : Instr) : Micro → List Micro → Prop
  | acquire {m : Micro} {rest : List Micro} (hm : m = lockMicro i) (answer : Answer)
      (h : LeadsTo [.release (bankOf i.fid), .respond .ok answer] rest) : StageStep i m rest
  | release (answer : Answer) : StageStep i (.release (bankOf i.fid)) [.respond .ok answer]
  | configure (capacity : Word64) (k : Word32) (conc : Bool) (answer : Answer) (hi : i.opcode = .config) :
      StageStep i (.configure (bankOf i.fid) capacity k conc) [.respond .ok answer]
  | locked {m : Micro} {rest : List Micro} (hm : m.plain = true) (answer : Answer)
      (h : LeadsTo [.release (bankOf i.fid), .respond .ok answer] rest) : StageStep i m rest
  | unguarded {m : Micro} {rest : List Micro} (hm : m.plain = true) (status : Status) (answer : Answer)
      (h : LeadsTo [.respond status answer] rest) : StageStep i m rest
  | respond (status : Status) (answer : Answer) : StageStep i (.respond status answer) []

theorem Stage.cons (h : Stage i (m :: rest)) : StageStep i m rest := by
  cases h with
  | waits answer h => exact .acquire rfl answer h
  | locked answer h =>
    cases h with
    | here => exact .release answer
    | plain hm h => exact .locked hm answer h
  | unguarded status answer h =>
    cases h with
    | here => exact .respond status answer
    | plain hm h => exact .unguarded hm status answer h
  | configures capacity k conc answer hi => exact .configure capacity k conc answer hi

theorem Stage.eq_nil_of_respond {status : Status} {answer : Answer} (h : Stage i (.respond status answer :: rest)) :
    rest = [] := by
  cases h.cons with
  | acquire hm => unfold lockMicro at hm; split at hm <;> cases hm
  | locked hm | unguarded hm => cases hm
  | respond => rfl

theorem StageStep.stage (h : StageStep i m rest) (hne : rest ≠ []) : Stage i rest := by
  cases h with
  | acquire _ answer h | locked _ answer h => exact .locked answer h
  | release answer | configure _ _ _ answer => exact .unguarded .ok answer .here
  | unguarded _ status answer h => exact .unguarded status answer h
  | respond => exact absurd rfl hne

theorem Stage.of_suffix {todo' : List Micro} (h : Stage i todo) (hsuffix : todo' <:+ todo) (hne : todo' ≠ []) :
    Stage i todo' := by
  obtain ⟨pre, rfl⟩ := hsuffix
  induction pre with
  | nil => exact h
  | cons m pre ih => exact ih (h.cons.stage (by simp [hne]))

/-! ### The role of a port at a bank's guard -/

/-- What a port is to a bank's guard and interlock (R46, R90, R255). -/
inductive Role where
  | none | holds | acquires | configures

/-- The role that port `p`'s command in flight, or its lack of one, gives it at bank `f`. -/
structure State.HasRole (s : State) (p f : Nat) (r : Role) : Prop where
  holds : (∃ c, s.busyWith p c ∧ c.holds f) ↔ r = .holds
  acquires : (∃ c, s.busyWith p c ∧ c.acquires f) ↔ r = .acquires
  configures : (∃ c, s.busyWith p c ∧ c.configures f) ↔ r = .configures

/-- The role a command has at bank `f`. -/
structure InFlight.HasRole (c : InFlight) (f : Nat) (r : Role) : Prop where
  holds : c.holds f ↔ r = .holds
  acquires : c.acquires f ↔ r = .acquires
  configures : c.configures f ↔ r = .configures

/-- Port `p` has this role at bank `f0`, and none at the others. -/
def Role.at (r : Role) (f0 f : Nat) : Role := if f = f0 then r else .none

theorem State.busyWith_unique (h : s.busyWith p c) (h' : s.busyWith p d) : c = d := by
  obtain ⟨port, hport, hc⟩ := h
  obtain ⟨port', hport', hd⟩ := h'
  cases hport.symm.trans hport'
  exact Option.some.inj (hc.symm.trans hd)

theorem State.HasRole.of_busy {r : Role} (hbusy : s.busyWith p c) (h : c.HasRole f r) : s.HasRole p f r := by
  have honly : ∀ R : InFlight → Prop, (∃ d, s.busyWith p d ∧ R d) ↔ R c := fun R =>
    ⟨fun ⟨d, hd, hR⟩ => State.busyWith_unique hd hbusy ▸ hR, fun hR => ⟨c, hbusy, hR⟩⟩
  exact ⟨(honly _).trans h.holds, (honly _).trans h.acquires, (honly _).trans h.configures⟩

theorem State.HasRole.of_idle (h : ∀ c, ¬ s.busyWith p c) : s.HasRole p f .none := by
  constructor <;> simp [h]

/-- Nothing of the guard's remains. -/
theorem InFlight.HasRole.of_no_guard (h : ∀ m ∈ c.todo, m.plain = true ∨ m = .admitStep ∨ ∃ e a, m = .respond e a) :
    c.HasRole f .none := by
  have hrel : .release f ∉ c.todo := fun hm => by simpa [Micro.plain] using h _ hm
  have hexcl : .acquireExcl f ∉ c.todo := fun hm => by simpa [Micro.plain] using h _ hm
  have hshared : .acquireShared f ∉ c.todo := fun hm => by simpa [Micro.plain] using h _ hm
  refine ⟨?_, ?_, ?_⟩ <;> simp only [reduceCtorEq, iff_false]
  · exact fun h => hrel h.1
  · exact fun h => h.elim (fun h => hexcl (List.mem_of_mem_head? h)) (fun h => hshared (List.mem_of_mem_head? h))
  · exact fun ⟨_, _, _, hm⟩ => by simpa [Micro.plain] using h _ hm

theorem InFlight.HasRole.of_unguarded {e : Status} {a : Answer} (htodo : c.todo = todo)
    (h : LeadsTo [.respond e a] todo) : c.HasRole f .none := by
  subst htodo
  exact .of_no_guard fun _ hm => (h.mem hm).imp_right fun hm => .inr ⟨_, _, List.mem_singleton.1 hm⟩

theorem InFlight.HasRole.of_locked {f0 : Nat} {a : Answer} (htodo : c.todo = todo)
    (h : LeadsTo [.release f0, .respond .ok a] todo) : c.HasRole f (Role.holds.at f0 f) := by
  subst htodo
  have hmem : ∀ m ∈ c.todo, m.plain = true ∨ m = .release f0 ∨ m = .respond .ok a := fun m hm =>
    (h.mem hm).imp_right fun hm => by simpa using hm
  have hexcl : Micro.acquireExcl f ∉ c.todo := fun hm => by simpa [Micro.plain] using hmem _ hm
  have hshared : Micro.acquireShared f ∉ c.todo := fun hm => by simpa [Micro.plain] using hmem _ hm
  have hrel : Micro.release f ∈ c.todo ↔ f = f0 :=
    ⟨fun hm => by simpa [Micro.plain] using hmem _ hm, fun hf => hf ▸ h.subset (by simp)⟩
  unfold Role.at
  refine ⟨?_, ?_, ?_⟩
  · simp only [InFlight.holds, hexcl, hshared, hrel, not_false_eq_true, and_true]
    split <;> simp [*]
  · refine iff_of_false ?_ (by split <;> simp)
    exact fun h => h.elim (fun h => hexcl (List.mem_of_mem_head? h)) (fun h => hshared (List.mem_of_mem_head? h))
  · refine iff_of_false (fun ⟨_, _, _, hm⟩ => ?_) (by split <;> simp)
    simpa [Micro.plain] using hmem _ hm

theorem InFlight.HasRole.of_waits {a : Answer} (htodo : c.todo = lockMicro i :: rest)
    (h : LeadsTo [.release (bankOf i.fid), .respond .ok a] rest) :
    c.HasRole f (Role.acquires.at (bankOf i.fid) f) := by
  have hmem : ∀ m ∈ rest, m.plain = true ∨ m = .release (bankOf i.fid) ∨ m = .respond .ok a := fun m hm =>
    (h.mem hm).imp_right fun hm => by simpa using hm
  have hrel : Micro.release f ∈ c.todo → f = bankOf i.fid := fun hm => by
    rw [htodo, List.mem_cons] at hm
    obtain hm | hm := hm
    · unfold lockMicro at hm; split at hm <;> cases hm
    · simpa [Micro.plain] using hmem _ hm
  have hacq : c.acquires f ↔ f = bankOf i.fid := by
    unfold InFlight.acquires lockMicro at *
    rw [htodo]
    split <;> simp [eq_comm]
  unfold Role.at
  refine ⟨?_, ?_, ?_⟩
  · refine iff_of_false ?_ (by split <;> simp)
    rintro ⟨hm, hexcl, hshared⟩
    obtain rfl := hrel hm
    rw [htodo] at hexcl hshared
    unfold lockMicro at hexcl hshared
    split at hexcl
    · exact hshared (by simp [*])
    · exact hexcl (by simp)
  · rw [hacq]; split <;> simp [*]
  · refine iff_of_false (fun ⟨_, _, _, hm⟩ => ?_) (by split <;> simp)
    rw [htodo, List.mem_cons] at hm
    obtain hm | hm := hm
    · unfold lockMicro at hm; split at hm <;> cases hm
    · simpa [Micro.plain] using hmem _ hm

theorem InFlight.HasRole.of_configures {f0 : Nat} {capacity : Word64} {k : Word32} {conc : Bool} {a : Answer}
    (htodo : c.todo = [.configure f0 capacity k conc, .respond .ok a]) :
    c.HasRole f (Role.configures.at f0 f) := by
  unfold Role.at
  refine ⟨?_, ?_, ?_⟩
  · exact iff_of_false (by simp [InFlight.holds, htodo]) (by split <;> simp)
  · exact iff_of_false (by simp [InFlight.acquires, htodo]) (by split <;> simp)
  · simp only [InFlight.configures, htodo]
    split <;> simp [*]

/-! ### What a move makes of a guard -/

/-- Port `p` holds the lock (R46). -/
def Guard.lockedBy (g : Guard) (p : Nat) : Prop := g.writer = some p ∨ p ∈ g.readers

/-- What port `p` makes of a guard as its role there changes (R90, R255). -/
inductive GuardMove (p : Nat) (g : Guard) : Guard → Role → Role → Prop
  | same (r : Role) : GuardMove p g g r r
  | wait : GuardMove p g (g.wait p) .none .acquires
  | pending (h : g.configPending = false) : GuardMove p g { g with configPending := true } .none .configures
  | acquireExcl (hw : g.writer = none) (hr : g.readers = []) :
      GuardMove p g { g with writer := some p, waiting := removePort p g.waiting } .acquires .holds
  | acquireShared (hw : g.writer = none) :
      GuardMove p g { g with readers := insertPort p g.readers, waiting := removePort p g.waiting } .acquires .holds
  | release : GuardMove p g (g.release p) .holds .none
  | configure : GuardMove p g { g with configPending := false } .configures .none

theorem mem_insertPort {qs : List Nat} : q ∈ insertPort p qs ↔ q = p ∨ q ∈ qs := by
  induction qs with
  | nil => simp [insertPort]
  | cons x xs ih =>
    rw [insertPort]
    split
    · simp
    · split
      · next h => simp [h]
      · simp only [List.mem_cons, ih]; tauto

theorem mem_removePort {qs : List Nat} : q ∈ removePort p qs ↔ q ≠ p ∧ q ∈ qs := by
  simp [removePort, and_comm]

/-- The guard holds the port in the sets that its role says. -/
structure Guard.Fits (g : Guard) (p : Nat) (r : Role) : Prop where
  locked : g.lockedBy p ↔ r = .holds
  waiting : p ∈ g.waiting ↔ r = .acquires

variable {g g' : Guard} {r r' : Role}

theorem GuardMove.fits (h : GuardMove p g g' r r') (hinv : g.writer ≠ none → g.readers = []) (hg : g.Fits p r) :
    g'.Fits p r' := by
  obtain ⟨hlock, hwait⟩ := hg
  cases h with
  | same => exact ⟨hlock, hwait⟩
  | wait => exact ⟨hlock.trans (by simp), by simp [Guard.wait, mem_insertPort]⟩
  | pending | configure => exact ⟨hlock.trans (by simp), hwait.trans (by simp)⟩
  | acquireExcl => exact ⟨by simp [Guard.lockedBy], by simp [mem_removePort]⟩
  | acquireShared => exact ⟨by simp [Guard.lockedBy, mem_insertPort], by simp [mem_removePort]⟩
  | release =>
    unfold Guard.release
    split
    · next hw => exact ⟨by simp [Guard.lockedBy, hinv (by simp [hw])], by simpa using hwait⟩
    · next hw => exact ⟨by simp [Guard.lockedBy, hw, mem_removePort], by simpa using hwait⟩

theorem GuardMove.others (h : GuardMove p g g' r r') (hq : q ≠ p) :
    (g'.lockedBy q ↔ g.lockedBy q) ∧ (q ∈ g'.waiting ↔ q ∈ g.waiting) := by
  unfold Guard.lockedBy
  cases h with
  | same | pending | configure => exact ⟨Iff.rfl, Iff.rfl⟩
  | wait => exact ⟨Iff.rfl, by simp [Guard.wait, mem_insertPort, hq]⟩
  | acquireExcl hw hr => exact ⟨by simp [hw, hr, Ne.symm hq], by simp [mem_removePort, hq]⟩
  | acquireShared hw => exact ⟨by simp [mem_insertPort, hq], by simp [mem_removePort, hq]⟩
  | release =>
    unfold Guard.release
    split
    · next hw => exact ⟨by simp [hw, Ne.symm hq], Iff.rfl⟩
    · exact ⟨by simp [mem_removePort, hq], Iff.rfl⟩

theorem GuardMove.configPending (h : GuardMove p g g' r r') (hg : r = .configures → g.configPending = true) :
    (g'.configPending = true ↔ r' = .configures ∨ g.configPending = true ∧ r ≠ .configures) ∧
      (r' = .configures → r = .configures ∨ g.configPending = false) := by
  cases h with
  | same => by_cases hr : r = .configures <;> simp [hr, hg]
  | wait => simp [Guard.wait]
  | pending h => simp [h]
  | acquireExcl | acquireShared | configure => simp
  | release => unfold Guard.release; split <;> simp

/-! ### The invariant from one port's moves -/

/-- The second half of `State.LockInv`: what each guard says is what the commands in flight are. -/
def State.GuardsMatch (s : State) : Prop :=
  ∀ f b, s.bank? f = some b →
    (∀ p, (b.guard.writer = some p ∨ p ∈ b.guard.readers) ↔ ∃ c, s.busyWith p c ∧ c.holds f) ∧
    (∀ p, p ∈ b.guard.waiting ↔ ∃ c, s.busyWith p c ∧ c.acquires f) ∧
    (b.guard.configPending = true ↔ ∃ p c, s.busyWith p c ∧ c.configures f) ∧
    (∀ p q c d, s.busyWith p c → s.busyWith q d → c.configures f → d.configures f → p = q)

/-- Port `p` alone moves, and what it makes of each guard follows its own role there. -/
structure PortMove (p : Nat) (s t : State) : Prop where
  others : ∀ q, q ≠ p → ∀ d, t.busyWith q d ↔ s.busyWith q d
  bank : ∀ f b', t.bank? f = some b' → ∃ b r r', s.bank? f = some b ∧ s.HasRole p f r ∧ t.HasRole p f r' ∧
    GuardMove p b.guard b'.guard r r'

/-- The interlock of one bank (R255), where `P` and `P'` say which ports are at CONFIG's atomic step before and after
a move of port `p`: the bit stays 1 exactly while one is, and only one is. -/
theorem interlock_of_move {P P' : Nat → Prop} {pending pending' : Prop} (hothers : ∀ q, q ≠ p → (P' q ↔ P q))
    (hpend : pending ↔ ∃ q, P q) (honly : ∀ q q', P q → P q' → q = q') (hmove : pending' ↔ P' p ∨ pending ∧ ¬ P p)
    (hfresh : P' p → P p ∨ ¬ pending) : (pending' ↔ ∃ q, P' q) ∧ ∀ q q', P' q → P' q' → q = q' := by
  have hother : ∀ q, q ≠ p → P' q → pending ∧ ¬ P p := fun q hq h =>
    have h := (hothers q hq).1 h
    ⟨hpend.2 ⟨q, h⟩, fun hp => hq (honly q p h hp)⟩
  have hself : P' p → ∀ q, q ≠ p → ¬ P' q := fun hp q hq h =>
    (hfresh hp).elim (hother q hq h).2 fun hn => hn (hother q hq h).1
  refine ⟨hmove.trans ⟨?_, ?_⟩, fun q q' h h' => ?_⟩
  · rintro (hp | ⟨hpending, hne⟩)
    · exact ⟨p, hp⟩
    · obtain ⟨q, hq⟩ := hpend.1 hpending
      exact ⟨q, (hothers q fun hqp => hne (hqp ▸ hq)).2 hq⟩
  · rintro ⟨q, h⟩
    by_cases hq : q = p
    · exact .inl (hq ▸ h)
    · exact .inr (hother q hq h)
  · by_cases hq : q = p
    · subst hq
      by_contra hne
      exact hself h q' (Ne.symm hne) h'
    · by_cases hq' : q' = p
      · subst hq'
        exact absurd h (hself h' q hq)
      · exact honly q q' ((hothers q hq).1 h) ((hothers q' hq').1 h')

theorem PortMove.guardsMatch (h : PortMove p s t) (hguard : s.GuardInv) (hs : s.GuardsMatch) : t.GuardsMatch := by
  intro f b' hb'
  obtain ⟨b, r, r', hb, hr, hr', hmove⟩ := h.bank f b' hb'
  obtain ⟨hlock, hwait, hpend, honly⟩ := hs f b hb
  have hothers : ∀ (R : InFlight → Prop) q, q ≠ p → ((∃ c, t.busyWith q c ∧ R c) ↔ ∃ c, s.busyWith q c ∧ R c) :=
    fun R q hq => by simp only [h.others q hq]
  have hfits := hmove.fits (hguard b (State.mem_banks_iff.2 ⟨f, hb⟩))
    ⟨(hlock p).trans hr.holds, (hwait p).trans hr.acquires⟩
  obtain ⟨hpend', hfresh⟩ := hmove.configPending fun hrc => hpend.2 ⟨p, hr.configures.2 hrc⟩
  obtain ⟨hbit, hone⟩ := interlock_of_move (p := p) (hothers fun c => c.configures f) hpend
    (fun q q' ⟨c, hc, hconf⟩ ⟨d, hd, hdconf⟩ => honly q q' c d hc hd hconf hdconf)
    (hpend'.trans (or_congr hr'.configures.symm (and_congr_right' (not_congr hr.configures.symm))))
    (fun hp => (hfresh (hr'.configures.1 hp)).imp hr.configures.2 fun hfree => by simp [hfree])
  refine ⟨fun q => ?_, fun q => ?_, hbit, fun q q' c d hc hd hconf hdconf => hone q q' ⟨c, hc, hconf⟩ ⟨d, hd, hdconf⟩⟩
  · by_cases hq : q = p
    · subst hq; exact hfits.locked.trans hr'.holds.symm
    · exact ((hmove.others hq).1.trans (hlock q)).trans (hothers _ q hq).symm
  · by_cases hq : q = p
    · subst hq; exact hfits.waiting.trans hr'.acquires.symm
    · exact ((hmove.others hq).2.trans (hwait q)).trans (hothers _ q hq).symm

/-! ### The micro-steps of one port as port moves -/

@[simp] theorem Role.none_at (f0 f : Nat) : Role.none.at f0 f = .none := by simp [Role.at]

theorem InFlight.HasRole.none_at {f0 : Nat} (h : c.HasRole f .none) : c.HasRole f (Role.none.at f0 f) := by
  rwa [Role.none_at]

theorem State.busyWith_park_ne (hports : s'.ports = s.ports) (hq : q ≠ p) :
    (s'.park p c).busyWith q d ↔ s.busyWith q d := by
  rw [State.busyWith_park_iff, if_neg (Ne.symm hq), State.busyWith_of_ports hports]

theorem State.busyWith_park_self (hports : s'.ports = s.ports) (hbusy : s.busyWith p c) :
    (s'.park p c').busyWith p c' := by
  obtain ⟨port, hport, -⟩ := hbusy
  exact State.busyWith_park (port := port) (by rw [State.port?, hports]; exact hport) c'

/-- Port `p`'s micro-step from `c` to `c'` makes of each guard what its role there asks. -/
structure RoleMove (p : Nat) (c : InFlight) (s : State) (c' : InFlight) (s' : State) : Prop where
  ports : s'.ports = s.ports
  bank : ∀ f b', s'.bank? f = some b' → ∃ b r r', s.bank? f = some b ∧ c.HasRole f r ∧ c'.HasRole f r' ∧
    GuardMove p b.guard b'.guard r r'

theorem RoleMove.portMove (h : RoleMove p c s c' s') (hbusy : s.busyWith p c) : PortMove p s (s'.park p c') := by
  refine ⟨fun q hq d => State.busyWith_park_ne h.ports hq, fun f b' hb' => ?_⟩
  obtain ⟨b, r, r', hb, hr, hr', hmove⟩ := h.bank f b' hb'
  exact ⟨b, r, r', hb, .of_busy hbusy hr, .of_busy (State.busyWith_park_self h.ports hbusy) hr', hmove⟩

/-- A micro-step that leaves the guards alone, by a command whose role stays. -/
theorem RoleMove.of_same_guards {r : Nat → Role} (hports : s'.ports = s.ports)
    (hr : ∀ f, c.HasRole f (r f)) (hr' : ∀ f, c'.HasRole f (r f))
    (hbank : ∀ f b', s'.bank? f = some b' → ∃ b, s.bank? f = some b ∧ b'.guard = b.guard) :
    RoleMove p c s c' s' := by
  refine ⟨hports, fun f b' hb' => ?_⟩
  obtain ⟨b, hb, hguard⟩ := hbank f b' hb'
  exact ⟨b, r f, r f, hb, hr f, hr' f, hguard ▸ .same _⟩

/-- A micro-step on the bank of its command, whose role there follows the guard. -/
theorem RoleMove.of_modifyBank {f0 : Nat} {g : Bank → Bank} (hr : ∀ f, c.HasRole f (r.at f0 f))
    (hr' : ∀ f, c'.HasRole f (r'.at f0 f))
    (hg : ∀ b, s.bank? f0 = some b → GuardMove p b.guard (g b).guard r r') :
    RoleMove p c s c' (s.modifyBank f0 g) := by
  refine ⟨rfl, fun f b' hb' => ?_⟩
  obtain ⟨b, hb, h⟩ := State.bank?_modifyBank_eq_some hb'
  refine ⟨b, r.at f0 f, r'.at f0 f, hb, hr f, hr' f, ?_⟩
  obtain ⟨rfl, rfl⟩ | ⟨hne, rfl⟩ := h
  · simpa [Role.at] using hg b hb
  · simpa [Role.at, Ne.symm hne] using GuardMove.same Role.none

theorem Micro.effect_guard_of_plain (hm : m.plain = true) (l : Latch) (b : Bank) :
    (m.effect p l b).guard = b.guard := by
  cases m with
  | admitStep | configure | acquireExcl | acquireShared | release | respond => cases hm
  | _ => rfl

theorem Takes.todo_of_not_test (h : Takes p c s m rest c' s') (hm : ∀ f h j, m ≠ .testRead f h j) : c'.todo = rest := by
  obtain h | ⟨⟨f, q, j, hf⟩, -⟩ := h.command.todo
  · exact h
  · exact absurd hf (hm f q j)

theorem Takes.todo_of_not_plain (h : Takes p c s m rest c' s') (hm : m.plain = false) : c'.todo = rest :=
  h.todo_of_not_test fun f q j hf => by simp [hf, Micro.plain] at hm

theorem Takes.leadsTo {tail : List Micro} (h : Takes p c s m rest c' s') (htail : dropTests tail = tail)
    (hrest : LeadsTo tail rest) : LeadsTo tail c'.todo := by
  obtain h | ⟨-, h⟩ := h.command.todo <;> rw [h]
  · exact hrest
  · exact hrest.dropTests htail

theorem Takes.roleMove_of_plain {r : Nat → Role} (h : Takes p c s m rest c' s') (hm : m.plain = true)
    (hr : ∀ f, c.HasRole f (r f)) (hr' : ∀ f, c'.HasRole f (r f)) : RoleMove p c s c' s' := by
  refine .of_same_guards (by rw [h.state]; rfl) hr hr' fun f b' hb' => ?_
  rw [h.state] at hb'
  obtain ⟨b, hb, ⟨-, rfl⟩ | ⟨-, rfl⟩⟩ := State.bank?_modifyBank_eq_some hb'
  · exact ⟨b, hb, Micro.effect_guard_of_plain hm _ b⟩
  · exact ⟨b', hb, rfl⟩

theorem Takes.roleMove (h : Takes p c s m rest c' s') (hstage : Stage i c.todo) : RoleMove p c s c' s' := by
  obtain ⟨b₀, hb₀, hm, -⟩ := h.bank
  have hstep : StageStep i m rest := (h.todo ▸ hstage).cons
  have hstate := h.state
  cases hstep with
  | acquire heq answer hrest =>
    subst heq
    have hlock : (lockMicro i).plain = false ∧ (lockMicro i).bank = bankOf i.fid := by
      unfold lockMicro; split <;> exact ⟨rfl, rfl⟩
    have htodo := h.todo_of_not_plain hlock.1
    rw [hstate, hlock.2]
    rw [hlock.2] at hb₀
    refine .of_modifyBank (r := .acquires) (r' := .holds) (fun f => .of_waits h.todo hrest)
      (fun f => .of_locked htodo hrest) fun b hb => ?_
    cases hb₀.symm.trans hb
    unfold lockMicro at hm ⊢
    split at hm <;> rename_i hread
    · rw [if_pos hread]; exact .acquireShared hm
    · rw [if_neg hread]; exact .acquireExcl hm.1 hm.2
  | release answer =>
    have htodo := h.todo_of_not_plain rfl
    rw [hstate]
    exact .of_modifyBank (r := .holds) (r' := .none) (fun f => .of_locked h.todo .here)
      (fun f => (InFlight.HasRole.of_unguarded htodo .here).none_at) fun b hb => .release
  | configure capacity k conc answer hi =>
    have htodo := h.todo_of_not_plain rfl
    rw [hstate]
    exact .of_modifyBank (r := .configures) (r' := .none) (fun f => .of_configures h.todo)
      (fun f => (InFlight.HasRole.of_unguarded htodo .here).none_at) fun b hb => .configure
  | locked hplain answer hrest =>
    exact h.roleMove_of_plain hplain (fun f => .of_locked h.todo (.plain hplain hrest))
      (fun f => .of_locked rfl (h.leadsTo rfl hrest))
  | unguarded hplain status answer hrest =>
    exact h.roleMove_of_plain hplain (fun f => .of_unguarded h.todo (.plain hplain hrest))
      (fun f => .of_unguarded rfl (h.leadsTo rfl hrest))
  | respond => exact hm.elim

theorem mem_namedBanks (i : Instr) : bankOf i.fid ∈ namedBanks i := by cases i <;> simp [namedBanks, Instr.fid]

theorem InFlight.HasRole.of_unadmitted (htodo : c.todo = [.admitStep]) : c.HasRole f .none :=
  .of_no_guard fun m hm => by rw [htodo] at hm; exact .inr (.inl (List.mem_singleton.1 hm))

/-- An admission that passes its checks brings its port to CONFIG's atomic step, to its acquisition, or past the guard
of a bank that has none to acquire (R90, R255). -/
theorem afterAdmission_roleMove (htodo : c.todo = [.admitStep]) (hpend : (namedBanks i).any s.configPending = false)
    (htodo' : c'.todo = program s.params (homeBank s i) i) : RoleMove p c s c' (s.afterAdmission p i) := by
  have hbefore : ∀ f, c.HasRole f .none := fun f => .of_unadmitted htodo
  have hfree : s.configPending (bankOf i.fid) = false := by
    simpa using List.any_eq_false.1 hpend _ (mem_namedBanks i)
  unfold State.afterAdmission
  split
  · next hop =>
    refine .of_modifyBank (r := .none) (r' := .configures) (fun f => (hbefore f).none_at) ?_ ?_
    · cases i <;> cases hop
      exact fun f => .of_configures htodo'
    · exact fun b hb => .pending ((configPending_of_bank hb).symm.trans hfree)
  · next hop =>
    obtain ⟨body, answer, hbody, heq⟩ := program_eq_guarded s.params (homeBank s i) hop
    have hplain : ∀ m ∈ body, m.plain = true := fun m hm => (hbody.mem hm).plain
    rw [heq] at htodo'
    unfold State.reachLock
    unfold guarded at htodo'
    split at htodo' <;> rename_i hconc
    · rw [if_pos hconc]
      exact .of_modifyBank (r := .none) (r' := .acquires) (fun f => (hbefore f).none_at)
        (fun f => .of_waits htodo' (.append hplain)) fun b hb => .wait
    · rw [if_neg hconc]
      exact .of_same_guards rfl hbefore (fun f => .of_unguarded htodo' (.append hplain)) fun f b hb => ⟨b, hb, rfl⟩

theorem Admits.roleMove (h : Admits p c s c' s') (htodo : c.todo = [.admitStep]) : RoleMove p c s c' s' := by
  cases h with
  | undecodable | rejected =>
    exact .of_same_guards rfl (fun f => .of_unadmitted htodo) (fun f => .of_unguarded rfl .here)
      fun f b hb => ⟨b, hb, rfl⟩
  | admitted i _ hpend => exact afterAdmission_roleMove htodo hpend rfl

/-! ### Commands in flight stay on their way -/

/-- The registers that a program is made from (R86). -/
structure Bank.SameProgram (b b' : Bank) : Prop where
  conc : b'.conc = b.conc
  k : b'.k = b.k
  bitlen : b'.bitlen = b.bitlen

theorem Bank.SameProgram.program_eq (h : b.SameProgram b') (params : Params) (i : Instr) :
    program params b' i = program params b i := by
  obtain ⟨hconc, hk, hbitlen⟩ := h
  cases i <;> simp only [program, programConfig, programAdd, programAddStr, programAddU16, programAddU32, programAddU64,
    programAddb, programAddbU16, programAddbU32, programAddbU64, programTest, programTestStr, programTestU16,
    programTestU32, programTestU64, programMerge, programReset, programCap, programSize, programFpr, addOneProgram,
    addBatchProgram, testOneProgram, exclusive, shared, hconc, hk, hbitlen]

theorem program_config_eq (hi : i.opcode = .config) (params params' : Params) (b b' : Bank) :
    program params b i = program params' b' i := by
  cases i with
  | config => rfl
  | _ => cases hi

/-- A program's micro-step is of its body, the guard's, CONFIG's or the response. -/
theorem ProgramMicro.kind {params : Params} (h : ProgramMicro params b i m) : m.plain = true ∨
    m = .acquireExcl (bankOf i.fid) ∨ m = .acquireShared (bankOf i.fid) ∨ m = .release (bankOf i.fid) ∨
    (∃ answer, m = .respond .ok answer) ∨
    i.opcode = .config ∧ ∃ f capacity k conc, m = .configure f capacity k conc := by
  cases h with
  | body _ hm => exact .inl hm.plain
  | configure hi => subst hi; simp [Instr.opcode]
  | lock => unfold lockMicro; split <;> simp
  | release => simp
  | respond => simp

theorem config_of_mem_program {params : Params} {capacity : Word64} {k : Word32} {conc : Bool}
    (hm : Micro.configure f capacity k conc ∈ program params b i) : i.opcode = .config := by
  simpa [Micro.plain] using (mem_program hm).kind

theorem admitStep_not_mem_program (params : Params) (b : Bank) (i : Instr) : .admitStep ∉ program params b i :=
  fun hm => by simpa [Micro.plain] using (mem_program hm).kind

/-- Only CONFIG's atomic step, which no other command in flight on the bank sees (R255), changes those registers. -/
theorem BankChange.sameProgram (h : BankChange s f b b') : b.SameProgram b' ∨
    ∃ p c capacity k conc rest, s.busyWith p c ∧ c.todo = .configure f capacity k conc :: rest ∧
      s.othersName p f = false := by
  cases h with
  | same | pending | wait => exact .inl ⟨rfl, rfl, rfl⟩
  | @micro p c m rest hbusy htodo hbank hm =>
    cases m with
    | configure f0 capacity k conc =>
      cases hbank
      exact .inr ⟨p, c, capacity, k, conc, rest, hbusy, htodo, hm⟩
    | _ => exact .inl ⟨rfl, rfl, rfl⟩

theorem Advances.homeBank_change (h : Advances s t) (i : Instr) :
    BankChange s (bankOf i.fid) (homeBank s i) (homeBank t i) := by
  unfold homeBank
  cases ht : t.bank? (bankOf i.fid) with
  | some b' =>
    obtain ⟨b, hb, hchange⟩ := h.bank _ _ ht
    rw [hb]
    exact hchange
  | none =>
    have hnone : s.bank? (bankOf i.fid) = none := by
      simp only [State.bank?, List.getElem?_eq_none_iff] at ht ⊢
      exact h.banks ▸ ht
    rw [hnone]
    exact .same

theorem othersName_of_busy (hbusy : s.busyWith q d) (hq : q ≠ p) (hadm : d.admitted = true)
    (hi : decode d.request = .ok i) : s.othersName p (bankOf i.fid) = true := by
  obtain ⟨port, hport, hd⟩ := hbusy
  have hlt : q < s.ports.length := (List.getElem?_eq_some_iff.1 hport).1
  refine List.any_eq_true.2 ⟨q, List.mem_range.2 hlt, ?_⟩
  simp [hq, State.portNames, hport, hd, hadm, InFlight.names, hi, mem_namedBanks]

/-- The program of a command in flight is the same after a move. -/
theorem Advances.program_eq (h : Advances s t) (hbusy : s.busyWith q d) (hadm : d.admitted = true)
    (hi : decode d.request = .ok i) (hsuffix : d.todo <:+ program s.params (homeBank s i) i) :
    program t.params (homeBank t i) i = program s.params (homeBank s i) i := by
  rw [h.params]
  obtain hsame | ⟨p, c, capacity, k, conc, rest, hc, htodo, hothers⟩ := (h.homeBank_change i).sameProgram
  · exact hsame.program_eq _ i
  · by_cases hq : q = p
    · subst hq
      cases State.busyWith_unique hbusy hc
      exact program_config_eq (config_of_mem_program (hsuffix.subset (htodo ▸ List.mem_cons_self))) ..
    · simp [othersName_of_busy hbusy hq hadm hi] at hothers

theorem InFlight.onTrack.mono (h : Advances s t) (hbusy : s.busyWith q d) (hd : d.onTrack s) : d.onTrack t := by
  obtain h1 | h2 | ⟨hadm, hne, i, hi, hsuffix⟩ := hd
  · exact .inl h1
  · exact .inr (.inl h2)
  · exact .inr (.inr ⟨hadm, hne, i, hi, by rw [h.program_eq hbusy hadm hi hsuffix]; exact hsuffix⟩)

theorem dropTests_suffix (todo : List Micro) : dropTests todo <:+ todo := by
  induction todo with
  | nil => exact List.suffix_refl _
  | cons m rest ih =>
    cases m with
    | testRead => exact ih.trans (List.suffix_cons _ _)
    | _ => exact List.suffix_refl _

theorem Takes.todo_suffix (h : Takes p c s m rest c' s') : c'.todo <:+ rest := by
  obtain h | ⟨-, h⟩ := h.command.todo
  · exact h ▸ List.suffix_refl _
  · exact h ▸ dropTests_suffix rest

/-- A command that takes a micro-step has its response still before it. -/
theorem Takes.todo_ne_nil (h : Takes p c s m rest c' s') (hstage : Stage i c.todo) : c'.todo ≠ [] := by
  obtain ⟨b, hb, hm, -⟩ := h.bank
  have hstep : StageStep i m rest := (h.todo ▸ hstage).cons
  cases hstep with
  | acquire _ _ hrest | locked _ _ hrest => exact (h.leadsTo rfl hrest).ne_nil
  | unguarded _ _ _ hrest => exact (h.leadsTo rfl hrest).ne_nil
  | release | configure => exact (h.leadsTo rfl .here).ne_nil
  | respond => exact hm.elim

/-- A command in flight that takes a micro-step other than its admission was admitted. -/
theorem Takes.stage (h : Takes p c s m rest c' s') (hc : c.onTrack s) : c.admitted = true ∧
    ∃ i, decode c.request = .ok i ∧ c.todo <:+ program s.params (homeBank s i) i ∧ Stage i c.todo := by
  obtain ⟨b, hb, hm, -⟩ := h.bank
  obtain ⟨h1, -⟩ | ⟨e, h2⟩ | ⟨hadm, hne, i, hi, hsuffix⟩ := hc
  · cases h.todo.symm.trans h1
    exact hm.elim
  · cases h.todo.symm.trans h2
    exact hm.elim
  · exact ⟨hadm, i, hi, hsuffix, (stage_program _ _ i).of_suffix hsuffix hne⟩

theorem InFlight.onTrack.todo_of_admitStep (hc : c.onTrack s) (htodo : c.todo = .admitStep :: rest) :
    c.todo = [.admitStep] := by
  obtain ⟨h1, -⟩ | ⟨e, h2⟩ | ⟨-, -, i, hi, hsuffix⟩ := hc
  · exact h1
  · cases htodo.symm.trans h2
  · exact absurd (hsuffix.subset (htodo ▸ List.mem_cons_self)) (admitStep_not_mem_program _ _ i)

theorem Takes.onTrack (h : Takes p c s m rest c' s') (hbusy : s.busyWith p c) (hc : c.onTrack s) : c'.onTrack s' := by
  obtain ⟨hadm, i, hi, hsuffix, hstage⟩ := h.stage hc
  refine .inr (.inr ⟨h.command.admitted.trans hadm, h.todo_ne_nil hstage, i, h.command.request ▸ hi, ?_⟩)
  rw [(h.advances hbusy).program_eq hbusy hadm hi hsuffix]
  exact h.todo_suffix.trans ((List.suffix_cons m rest).trans (h.todo ▸ hsuffix))

theorem afterAdmission_sameProgram (s : State) (p : Nat) (i : Instr) :
    (homeBank s i).SameProgram (homeBank (s.afterAdmission p i) i) := by
  obtain h | ⟨f, g, h⟩ := afterAdmission_eq s p i <;> rw [h]
  · exact ⟨rfl, rfl, rfl⟩
  · unfold homeBank
    rw [State.bank?_modifyBank]
    split <;> cases s.bank? (bankOf i.fid) <;> exact ⟨rfl, rfl, rfl⟩

theorem Admits.onTrack (h : Admits p c s c' s') : c'.onTrack s' := by
  cases h with
  | undecodable e | rejected _ e => exact .inr (.inl ⟨e, rfl⟩)
  | admitted i hi =>
    refine .inr (.inr ⟨rfl, (stage_program ..).ne_nil, i, hi, ?_⟩)
    rw [(afterAdmission_sameProgram s p i).program_eq, (Advances.afterAdmission s p i).params]

theorem acceptedCommand_onTrack (s t : State) (packet : List Byte) : (acceptedCommand s packet).onTrack t := by
  unfold acceptedCommand
  split
  · exact .inr (.inl ⟨_, rfl⟩)
  · split
    · exact .inr (.inl ⟨_, rfl⟩)
    · exact .inl ⟨rfl, rfl⟩

/-- What a move makes of the guards: power-on reset frees them, and any other move is of one port or of none. -/
theorem Moves.guardsMatch (hguard : s.GuardInv) (hs : s.LockInv) (h : Moves s t) : t.GuardsMatch := by
  obtain ⟨htrack, hmatch⟩ := hs
  cases h with
  | schedule => exact hmatch
  | offer p packet => intro f b hb; simpa only [State.busyWith_offer_iff] using hmatch f b hb
  | powerOn =>
    intro f b hb
    simp only [State.bank?, State.powerOn, List.getElem?_map, Option.map_eq_some_iff] at hb
    obtain ⟨-, -, rfl⟩ := hb
    simp [State.not_busyWith_powerOn, Bank.unconfigured, Guard.free]
  | @accept p port packet queue hport hidle hqueue =>
    have hnone : ∀ c, ¬ s.busyWith p c := fun c ⟨port', hport', hc⟩ => by
      cases hport.symm.trans hport'
      cases hidle.symm.trans hc
    have hbusy := State.busyWith_park (s := s.takeRequest p) (p := p)
      (by rw [State.port?_takeRequest, if_pos rfl, hport]; rfl) (acceptedCommand s packet)
    have hrole : ∀ f, (acceptedCommand s packet).HasRole f .none := fun f => by
      unfold acceptedCommand
      split
      · exact .of_unguarded rfl .here
      · split
        · exact .of_unguarded rfl .here
        · exact .of_no_guard fun m hm => .inr (.inl (List.mem_singleton.1 hm))
    refine PortMove.guardsMatch (p := p) ⟨fun q hq d => ?_, fun f b hb => ?_⟩ hguard hmatch
    · rw [State.busyWith_park_iff, if_neg (Ne.symm hq), State.busyWith_takeRequest_iff]
    · exact ⟨b, .none, .none, hb, .of_idle hnone, .of_busy hbusy (hrole f), .same _⟩
  | @micro s' p c c' hbusy hmoved =>
    have hc := htrack p c hbusy
    obtain ⟨⟨rest, htodo⟩, hadmit⟩ | ⟨m, rest, htakes⟩ := advance_moved_cases hmoved
    · exact ((hadmit.roleMove (hc.todo_of_admitStep htodo)).portMove hbusy).guardsMatch hguard hmatch
    · obtain ⟨-, i, -, -, hstage⟩ := htakes.stage hc
      exact ((htakes.roleMove hstage).portMove hbusy).guardsMatch hguard hmatch
  | @respond _ p c hbusy hdone =>
    obtain ⟨status, answer, rest, htodo, rfl⟩ := advance_done hdone
    have hrole : ∀ f, c.HasRole f .none := fun f => by
      obtain ⟨h1, -⟩ | ⟨e, h2⟩ | ⟨-, hne, i, -, hsuffix⟩ := htrack p c hbusy
      · cases htodo.symm.trans h1
      · exact .of_unguarded h2 .here
      · have hstage := (stage_program _ _ i).of_suffix hsuffix hne
        rw [htodo] at hstage
        exact .of_unguarded (htodo.trans (by rw [hstage.eq_nil_of_respond])) .here
    refine PortMove.guardsMatch (p := p) ⟨fun q hq d => ?_, fun f b hb => ?_⟩ hguard hmatch
    · rw [State.busyWith_deliver_iff, and_iff_right (Ne.symm hq)]
    · exact ⟨b, .none, .none, hb, .of_busy hbusy (hrole f),
        .of_idle fun c hc => (State.busyWith_deliver_iff.1 hc).1 rfl, .same _⟩

theorem Moves.onTrack (hs : s.LockInv) (h : Moves s t) : ∀ q d, t.busyWith q d → d.onTrack t := by
  intro q d hq
  obtain rfl | hadv := h.advances
  · exact absurd hq State.not_busyWith_powerOn
  obtain hold | ⟨packet, rfl⟩ | ⟨c, s', hbusy, hmoved, rfl⟩ := h.busyWith hq
  · exact (hs.1 q d hold).mono hadv hold
  · exact acceptedCommand_onTrack s t packet
  · obtain ⟨-, hadmit⟩ | ⟨m, rest, htakes⟩ := advance_moved_cases hmoved
    · exact hadmit.onTrack
    · exact htakes.onTrack hbusy (hs.1 q c hbusy)

theorem Moves.lockInv (hguard : s.GuardInv) (hs : s.LockInv) (h : Moves s t) : t.LockInv :=
  ⟨h.onTrack hs, h.guardsMatch hguard hs⟩

/-- Settles O54: each move of a port changes the guard's sets and the interlock bit as it changes what remains of
that port's command. -/
theorem locksMatchCommands : Obligations.LocksMatchCommands := by
  intro s t _ hguard hlock h
  exact (step_keeps (I := fun s => s.GuardInv ∧ s.LockInv)
    (fun _ _ ⟨hguard, hlock⟩ hmove => ⟨hmove.guardInv hguard, hmove.lockInv hguard hlock⟩) ⟨hguard, hlock⟩ h).2

end Sys2Proof.Machine
end

section
/-! A command handed to an IDLE port, run with no other port moving: what its micro-steps reach, and what they leave. -/

namespace Sys2Proof.Machine

variable {p q f : Nat} {c c' c₀ d : InFlight} {s s' s₀ t : State} {b b' b₁ : Bank} {i : Instr} {m : Micro}
  {todo rest : List Micro} {params : Params}

/-! ### Runs of one command -/

/-- The admitted command of port `p` comes from `c` in `s` to `c'` in `s'`, by its micro-steps alone. -/
inductive Runs (p : Nat) (c : InFlight) (s : State) : InFlight → State → Prop
  | start : Runs p c s c s
  | step {c₁ c₂ : InFlight} {s₁ s₂ : State} {m : Micro} {rest : List Micro} (h : Runs p c s c₁ s₁)
      (hstep : Takes p c₁ s₁ m rest c₂ s₂) : Runs p c s c₂ s₂

/-- What remains of a command is somewhere along its program. -/
structure Along (prog todo : List Micro) : Prop where
  ne_nil : todo ≠ []
  suffix : todo <:+ prog

theorem Along.stage (h : Along (program params b i) todo) : Stage i todo :=
  (stage_program params b i).of_suffix h.suffix h.ne_nil

theorem Takes.along (h : Takes p c s m rest c' s') (hc : Along (program params b i) c.todo) :
    Along (program params b i) c'.todo :=
  ⟨h.todo_ne_nil hc.stage, h.todo_suffix.trans ((List.suffix_cons m rest).trans (h.todo ▸ hc.suffix))⟩

theorem Runs.along (h : Runs p c₀ s₀ c s) (hc : Along (program params b i) c₀.todo) :
    Along (program params b i) c.todo := by
  induction h with
  | start => exact hc
  | step _ hstep ih => exact hstep.along ih

theorem Takes.length_lt (h : Takes p c s m rest c' s') : c'.todo.length < c.todo.length := by
  rw [h.todo, List.length_cons]
  exact Nat.lt_succ_of_le h.todo_suffix.length_le

/-- How a run of an admitted command ends. -/
inductive RunEnds (p : Nat) (c : InFlight) (s : State) : State → Prop
  | waits (h : advance p c s = .blocked c s) : RunEnds p c s (s.park p c)
  | answered (status : Status) (answer : Answer) (rest : List Micro) (htodo : c.todo = .respond status answer :: rest) :
      RunEnds p c s (s.deliver p { status := status, result := answerValue c.latch answer })

/-- An admitted command, driven by at least as many micro-steps as remain, runs to its response or to a micro-step
that is not enabled. -/
theorem drive_runs {n : Nat} (hc : Along (program params b i) c.todo) (hn : c.todo.length ≤ n)
    (h : conclude p (drive n p c s) = .next t) : ∃ c' s', Runs p c s c' s' ∧ RunEnds p c' s' t := by
  suffices hgen : ∀ c₀ s₀, Runs p c₀ s₀ c s → ∃ c' s', Runs p c₀ s₀ c' s' ∧ RunEnds p c' s' t from hgen c s .start
  intro c₀ s₀ hruns
  induction n generalizing c s with
  | zero => exact absurd (List.length_eq_zero_iff.1 (Nat.le_zero.1 hn)) hc.ne_nil
  | succ n ih =>
    simp only [drive] at h
    cases ha : advance p c s <;> rw [ha] at h
    case moved c' s' =>
      obtain ⟨⟨rest, htodo⟩, -⟩ | ⟨m, rest, htakes⟩ := advance_moved_cases ha
      · exact absurd (hc.suffix.subset (htodo ▸ List.mem_cons_self)) (admitStep_not_mem_program _ _ i)
      · exact ih (htakes.along hc) (Nat.le_of_lt_succ (Nat.lt_of_lt_of_le htakes.length_lt hn)) h
          (hruns.step htakes)
    case blocked c' s' =>
      obtain ⟨rfl, rfl⟩ := advance_blocked ha
      cases h
      exact ⟨c', s', hruns, .waits ha⟩
    case done s' =>
      cases h
      obtain ⟨status, answer, rest, htodo, rfl⟩ := advance_done ha
      exact ⟨c, s, hruns, .answered status answer rest htodo⟩
    case fault => cases h

/-- Command `i` right after its admission, in its port. -/
def InFlight.started (s : State) (i : Instr) : InFlight :=
  { request := encode i, admitted := true, latch := Latch.start, todo := program s.params (homeBank s i) i }

theorem started_along (s : State) (i : Instr) :
    Along (program s.params (homeBank s i) i) (InFlight.started s i).todo :=
  ⟨(stage_program ..).ne_nil, List.suffix_refl _⟩

/-- What command `i`, handed to the port whose turn it is, ends in where it gives a next state. -/
inductive ExecEnds (i : Instr) (s : State) : State → Prop
  /-- the port is BUSY (R45) -/
  | queued {port : Port} {c : InFlight} (hport : s.port? s.cur = some port) (hbusy : port.inFlight = some c) :
      ExecEnds i s (s.offer s.cur (encode i))
  /-- a check of R273 failed -/
  | refused (e : Status) : ExecEnds i s (s.raise s.cur e)
  /-- a CONFIG is pending (R255) -/
  | pending : ExecEnds i s (s.park s.cur (InFlight.accepted (encode i)))
  /-- the command was admitted -/
  | ran {c' : InFlight} {s' t : State} (hpending : (namedBanks i).any s.configPending = false)
      (hruns : Runs s.cur (InFlight.started s i) (s.afterAdmission s.cur i) c' s') (hend : RunEnds s.cur c' s' t) :
      ExecEnds i s t

theorem exec_ends (h : exec i s = .next t) : ExecEnds i s t := by
  rw [exec_eq_runCommand] at h
  cases hport : s.port? s.cur with
  | none => simp [runCommand, hport] at h
  | some port =>
    cases hflight : port.inFlight with
    | some c => simp only [runCommand, hport, hflight] at h; cases h; exact .queued hport hflight
    | none =>
      have hidle : s.idleTurn := ⟨port, hport, hflight⟩
      cases hpacket : packetCheck s i with
      | some e => rw [runCommand_packetError hidle hpacket] at h; cases h; exact .refused e
      | none =>
        cases hpend : (namedBanks i).any s.configPending with
        | true => rw [runCommand_pending hidle hpacket hpend] at h; cases h; exact .pending
        | false =>
          cases hbank : bankCheck s i with
          | some e => rw [runCommand_bankError hidle hpacket hpend hbank] at h; cases h; exact .refused e
          | none =>
            simp only [runCommand, hport, hflight, hpacket, runAdmitted, admission, hpend, hbank, Bool.false_eq_true,
              if_false] at h
            obtain ⟨c', s', hruns, hend⟩ := drive_runs (started_along s i) le_rfl h
            exact .ran hpend hruns hend

/-! ### What a run leaves alone -/

/-- All but bank `f` and the ports are as they were. -/
structure SameBut (f : Nat) (s t : State) : Prop where
  params : t.params = s.params
  cur : t.cur = s.cur
  agenda : t.agenda = s.agenda
  banks : t.banks.length = s.banks.length
  bank : ∀ f', f' ≠ f → t.bank? f' = s.bank? f'

theorem SameBut.refl (f : Nat) (s : State) : SameBut f s s := ⟨rfl, rfl, rfl, rfl, fun _ _ => rfl⟩

theorem SameBut.trans {u : State} (h : SameBut f s t) (h' : SameBut f t u) : SameBut f s u :=
  ⟨h'.params.trans h.params, h'.cur.trans h.cur, h'.agenda.trans h.agenda, h'.banks.trans h.banks,
    fun f' hf => (h'.bank f' hf).trans (h.bank f' hf)⟩

theorem SameBut.modifyBank (s : State) (f : Nat) (g : Bank → Bank) : SameBut f s (s.modifyBank f g) :=
  ⟨rfl, rfl, rfl, List.length_modify .., fun f' hf => by rw [State.bank?_modifyBank, if_neg (Ne.symm hf)]⟩

theorem SameBut.afterAdmission (s : State) (p : Nat) (i : Instr) :
    SameBut (bankOf i.fid) s (s.afterAdmission p i) := by
  unfold State.afterAdmission State.reachLock
  split
  · exact .modifyBank ..
  · split
    · exact .modifyBank ..
    · exact .refl _ s

/-- Of a program's micro-steps only MERGE's reads work on a bank other than FID's. -/
theorem bank_of_mem_program (hm : m ∈ program params b i) :
    m.bank = bankOf i.fid ∨ (∀ p l b', m.effect p l b' = b') ∧ ∀ b' held, m.loads b' held = held := by
  cases mem_program hm with
  | configure hi => exact .inl (by rw [hi]; rfl)
  | lock => left; unfold lockMicro; split <;> rfl
  | release => exact .inl rfl
  | respond => exact .inr ⟨fun _ _ _ => rfl, fun _ _ => rfl⟩
  | body _ hm =>
    cases hm with
    | orReadSource => exact .inr ⟨fun _ _ _ => rfl, fun _ _ => rfl⟩
    | _ => exact .inl rfl

/-- A micro-step of a command's program changes at most the bank that its FID names. -/
theorem Takes.state_eq (h : Takes p c s m rest c' s') (hc : Along (program params b i) c.todo) :
    s' = s.modifyBank (bankOf i.fid) (m.effect p c.latch) := by
  have hm : m ∈ program params b i := hc.suffix.subset (h.todo ▸ List.mem_cons_self)
  rw [h.state]
  obtain hbank | ⟨hid, -⟩ := bank_of_mem_program hm
  · rw [hbank]
  · rw [show m.effect p c.latch = fun b => b from funext (hid p c.latch), State.modifyBank_id, State.modifyBank_id]

/-- What a command has read from the bank that its FID names. -/
theorem Takes.byte_eq (h : Takes p c s m rest c' s') (hc : Along (program params b i) c.todo)
    (hb : s.bank? (bankOf i.fid) = some b₁) : c'.latch.byte = m.loads b₁ c.latch.byte := by
  have hm : m ∈ program params b i := hc.suffix.subset (h.todo ▸ List.mem_cons_self)
  obtain ⟨b₀, hb₀, -, hbyte⟩ := h.bank
  obtain hbank | ⟨-, hid⟩ := bank_of_mem_program hm
  · rw [hbank] at hb₀
    cases hb.symm.trans hb₀
    exact hbyte
  · rw [hbyte, hid, hid]

theorem Runs.sameBut (h : Runs p c₀ s₀ c s) (hc : Along (program params b i) c₀.todo) :
    SameBut (bankOf i.fid) s₀ s ∧ s.ports = s₀.ports := by
  induction h with
  | start => exact ⟨.refl _ _, rfl⟩
  | step hruns hstep ih =>
    rw [hstep.state_eq (hruns.along hc)]
    exact ⟨ih.1.trans (.modifyBank ..), ih.2⟩

/-- All but port `p` and the banks is as it was. -/
structure SamePorts (p : Nat) (s t : State) : Prop where
  length : t.ports.length = s.ports.length
  port : ∀ q, q ≠ p → t.port? q = s.port? q

theorem SamePorts.modifyPort (s : State) (p : Nat) (g : Port → Port) : SamePorts p s (s.modifyPort p g) :=
  ⟨List.length_modify .., fun q hq => by rw [State.port?_modifyPort, if_neg (Ne.symm hq)]⟩

theorem RunEnds.samePorts (h : RunEnds p c s t) : SamePorts p s t := by
  cases h <;> exact .modifyPort ..

theorem RunEnds.sameBut (h : RunEnds p c s t) (f : Nat) : SameBut f s t := by
  cases h <;> exact ⟨rfl, rfl, rfl, rfl, fun _ _ => rfl⟩

theorem ExecEnds.frame (h : ExecEnds i s t) : SameBut (bankOf i.fid) s t ∧ SamePorts s.cur s t := by
  cases h with
  | queued | refused | pending => exact ⟨⟨rfl, rfl, rfl, rfl, fun _ _ => rfl⟩, .modifyPort ..⟩
  | @ran c' s' _ _ hruns hend =>
    obtain ⟨hbut, hports⟩ := hruns.sameBut (started_along s i)
    have hsame : s'.ports = s.ports := by
      rw [hports]
      obtain h | ⟨_, _, h⟩ := afterAdmission_eq s s.cur i <;> rw [h]
      rfl
    obtain ⟨hlength, hport⟩ := hend.samePorts
    refine ⟨((SameBut.afterAdmission s s.cur i).trans hbut).trans (hend.sameBut _), hlength.trans (by rw [hsame]),
      fun q hq => (hport q hq).trans ?_⟩
    simp only [State.port?, hsame]

/-- Settles O31: a command's micro-steps work on its FID's bank, and its response on its own port. -/
theorem commandFrame : Obligations.CommandFrame := by
  intro s t i h
  obtain ⟨⟨hparams, hcur, hagenda, hbanks, hbank⟩, hlength, hport⟩ := (exec_ends h).frame
  exact ⟨hparams, hcur, hagenda, hbanks, hlength, hport, hbank⟩

end Sys2Proof.Machine
end

section
/-! What a command leaves unchanged in the bank that its FID names (R40 to R43, R72). -/

namespace Sys2Proof.Machine

variable {p q f : Nat} {c c' c₀ d : InFlight} {s s' s₀ t : State} {b b' b₁ b₂ : Bank} {i : Instr} {m : Micro}
  {todo rest : List Micro} {params : Params} {g g₁ g₂ : Guard} {r r' : Role}

/-- What holds of the bank of command `i`, `b` before it, at every point of its run and after it, the guard's sets
aside. -/
structure BankKept (params : Params) (i : Instr) (b b' : Bank) : Prop where
  registers : i.opcode ≠ .config → b'.cfg = b.cfg ∧ b'.conc = b.conc ∧ b'.log2len = b.log2len ∧
    b'.bitlen = b.bitlen ∧ b'.k = b.k ∧ b'.guard.configPending = b.guard.configPending
  count : isInsertion i = false → isClearing i = false → b'.count = b.count
  byte : ∀ j, ¬ storesTo params b i j → Memory.read b'.storage j = Memory.read b.storage j

theorem BankKept.refl (params : Params) (i : Instr) (b : Bank) : BankKept params i b b :=
  ⟨fun _ => ⟨rfl, rfl, rfl, rfl, rfl, rfl⟩, fun _ _ => rfl, fun _ _ => rfl⟩

/-- Only the guard differs. -/
theorem BankKept.of_guard (h : BankKept params i b b₁) (hguard : i.opcode ≠ .config →
    g.configPending = b₁.guard.configPending) : BankKept params i b { b₁ with guard := g } := by
  refine ⟨fun hi => ?_, h.count, h.byte⟩
  obtain ⟨hcfg, hconc, hlog, hbitlen, hk, hpending⟩ := h.registers hi
  exact ⟨hcfg, hconc, hlog, hbitlen, hk, (hguard hi).trans hpending⟩

theorem BankKept.of_count (h : BankKept params i b b₁) (v : Word64) (hi : isInsertion i = true ∨ isClearing i = true) :
    BankKept params i b { b₁ with count := v } :=
  ⟨h.registers, fun h1 h2 => by simp [h1, h2] at hi, h.byte⟩

theorem BankKept.of_write {x : Nat} (h : BankKept params i b b₁) (v : Byte) (hx : storesTo params b i x) :
    BankKept params i b { b₁ with storage := Memory.write b₁.storage x v } := by
  refine ⟨h.registers, h.count, fun j hj => ?_⟩
  have hne : x ≠ j := fun hxj => hj (hxj ▸ hx)
  exact (Memory.read_write_ne v hne).trans (h.byte j hj)

theorem probePosition_mem_probesFrom (h : HashQuad) {j n x : Nat} (h1 : x ≤ j) (h2 : j < x + n) :
    probePosition h j ∈ probesFrom h x n := by
  induction n generalizing x with
  | zero => omega
  | succ n ih =>
    rw [probesFrom, List.mem_cons]
    by_cases hx : j = x
    · exact .inl (by rw [hx])
    · exact .inr (ih (by omega) (by omega))

/-- An insertion may store to the slots of its keys' probes. -/
theorem storesTo_of_inserted {key : List Byte} {j : Nat} (hkey : key ∈ insertedKeys i) (hj : j < b.k.toNat) :
    storesTo params b i (slotOf b.bitlen (probePosition (baseHash params key) j)) := by
  have hprobe : probePosition (baseHash params key) j ∈ probes params key b.k :=
    probePosition_mem_probesFrom _ (Nat.zero_le j) (by omega)
  cases i with
  | config | merge | reset => cases hkey
  | _ => exact ⟨key, hkey, _, hprobe, rfl⟩

/-- A micro-step of the command's program keeps it. -/
theorem BankKept.effect (h : BankKept params i b b₁) (hm : m ∈ program params b i) (p : Nat) (l : Latch) :
    BankKept params i b (m.effect p l b₁) := by
  cases mem_program hm with
  | respond => exact h
  | configure hi =>
    subst hi
    refine ⟨fun hne => absurd rfl hne, fun _ hclear => absurd hclear (Bool.noConfusion ·), fun j hj => ?_⟩
    exact (Memory.read_zeroBelow ..).trans ((if_neg hj).trans (h.byte j hj))
  | lock => unfold lockMicro; split <;> exact h.of_guard fun _ => rfl
  | release => exact h.of_guard fun _ => by unfold Guard.release; split <;> rfl
  | body hi hm =>
    cases hm with
    | setRead | testRead | readCount | orReadSource | orReadDest => exact h
    | setWrite hkey hj =>
      obtain ⟨-, -, -, hbitlen, -⟩ := h.registers hi
      exact h.of_write _ (hbitlen ▸ storesTo_of_inserted hkey hj)
    | writeCountSucc hi => exact h.of_count _ (.inl hi)
    | writeCountZero hi => exact h.of_count _ (.inr (by rw [hi]; rfl))
    | orWrite hi hj => exact h.of_write _ (by rw [hi]; exact hj)
    | zeroByte hi hj => exact h.of_write _ (by rw [hi]; exact hj)

/-! ### The guard -/

/-- What port `p`'s command in this role has made of the guard `g`: it has let no other port in or out, and it has
the exclusive lock only where it acquired it and has not yet released it (R90). -/
structure GuardKept (p : Nat) (g g' : Guard) (r : Role) : Prop where
  writer : r ≠ .holds → g'.writer = g.writer
  held : r = .holds → g.writer = none ∧ (g'.writer = none ∨ g'.writer = some p)
  others : ∀ q, q ≠ p → (q ∈ g'.readers ↔ q ∈ g.readers) ∧ (q ∈ g'.waiting ↔ q ∈ g.waiting)

theorem GuardKept.refl (p : Nat) (g : Guard) : GuardKept p g g .none :=
  ⟨fun _ => rfl, nofun, fun _ _ => ⟨Iff.rfl, Iff.rfl⟩⟩

theorem GuardMove.readers_others (h : GuardMove p g g' r r') (hq : q ≠ p) : q ∈ g'.readers ↔ q ∈ g.readers := by
  cases h with
  | same | pending | configure | wait | acquireExcl => rfl
  | acquireShared => simp [mem_insertPort, hq]
  | release => unfold Guard.release; split <;> simp [mem_removePort, hq]

theorem GuardKept.move (h : GuardKept p g g₁ r) (hmove : GuardMove p g₁ g₂ r r') : GuardKept p g g₂ r' := by
  have hothers : ∀ q, q ≠ p → (q ∈ g₂.readers ↔ q ∈ g.readers) ∧ (q ∈ g₂.waiting ↔ q ∈ g.waiting) := fun q hq =>
    ⟨(hmove.readers_others hq).trans (h.others q hq).1, (hmove.others hq).2.trans (h.others q hq).2⟩
  cases hmove with
  | same => exact h
  | wait | pending | configure => exact ⟨fun _ => h.writer nofun, nofun, hothers⟩
  | acquireExcl hw => exact ⟨fun hr => absurd rfl hr, fun _ => ⟨(h.writer nofun).symm.trans hw, .inr rfl⟩, hothers⟩
  | acquireShared hw => exact ⟨fun hr => absurd rfl hr, fun _ => ⟨(h.writer nofun).symm.trans hw, .inl hw⟩, hothers⟩
  | release =>
    obtain ⟨hbefore, hw⟩ := h.held rfl
    refine ⟨fun _ => ?_, nofun, hothers⟩
    unfold Guard.release
    split
    · exact hbefore.symm
    · next hne => exact (hw.resolve_right hne).trans hbefore.symm

/-- The bank of command `i`, `b` before it, at a point of its run. -/
def RunKept (p : Nat) (params : Params) (i : Instr) (b : Bank) (c' : InFlight) (s' : State) : Prop :=
  ∃ b' r, s'.bank? (bankOf i.fid) = some b' ∧ BankKept params i b b' ∧ c'.HasRole (bankOf i.fid) r ∧
    GuardKept p b.guard b'.guard r

theorem InFlight.HasRole.unique (h : c.HasRole f r) (h' : c.HasRole f r') : r = r' := by
  cases r with
  | holds => exact (h'.holds.1 (h.holds.2 rfl)).symm
  | acquires => exact (h'.acquires.1 (h.acquires.2 rfl)).symm
  | configures => exact (h'.configures.1 (h.configures.2 rfl)).symm
  | none =>
    cases r' with
    | none => rfl
    | holds => exact h.holds.1 (h'.holds.2 rfl)
    | acquires => exact h.acquires.1 (h'.acquires.2 rfl)
    | configures => exact h.configures.1 (h'.configures.2 rfl)

theorem BankKept.afterAdmission (hb : s.bank? (bankOf i.fid) = some b)
    (hb' : (s.afterAdmission p i).bank? (bankOf i.fid) = some b') : BankKept params i b b' := by
  unfold State.afterAdmission State.reachLock at hb'
  split at hb'
  · next hi =>
    rw [State.setPending_eq, State.bank?_modifyBank_self, hb] at hb'
    cases hb'
    exact (BankKept.refl ..).of_guard fun hne => absurd hi hne
  · split at hb'
    · rw [State.bank?_modifyBank_self, hb] at hb'
      cases hb'
      exact (BankKept.refl ..).of_guard fun _ => rfl
    · cases hb.symm.trans hb'
      exact .refl ..

theorem RunKept.start (hb : s.bank? (bankOf i.fid) = some b) (hpend : (namedBanks i).any s.configPending = false) :
    RunKept p params i b (InFlight.started s i) (s.afterAdmission p i) := by
  have hrun : RoleMove p (InFlight.accepted (encode i)) s (InFlight.started s i) (s.afterAdmission p i) :=
    afterAdmission_roleMove rfl hpend rfl
  have hlt : bankOf i.fid < (s.afterAdmission p i).banks.length := by
    rw [(SameBut.afterAdmission s p i).banks]; exact bank?_lt hb
  have hb' := List.getElem?_eq_getElem hlt
  obtain ⟨b₀, r₀, r', hb₀, hr₀, hr', hmove⟩ := hrun.bank _ _ hb'
  cases hb.symm.trans hb₀
  cases hr₀.unique (.of_unadmitted rfl)
  exact ⟨_, r', hb', .afterAdmission hb hb', hr', (GuardKept.refl ..).move hmove⟩

theorem RunKept.step (h : RunKept p params i b c s) (hc : Along (program params b i) c.todo)
    (hstep : Takes p c s m rest c' s') : RunKept p params i b c' s' := by
  obtain ⟨b₁, r, hb₁, hkept, hrole, hguard⟩ := h
  have hm : m ∈ program params b i := hc.suffix.subset (hstep.todo ▸ List.mem_cons_self)
  have hb' : s'.bank? (bankOf i.fid) = some (m.effect p c.latch b₁) := by
    rw [hstep.state_eq hc, State.bank?_modifyBank_self, hb₁]; rfl
  obtain ⟨b₀, r₀, r', hb₀, hr₀, hr', hmove⟩ := (hstep.roleMove hc.stage).bank _ _ hb'
  cases hb₁.symm.trans hb₀
  cases hr₀.unique hrole
  exact ⟨_, r', hb', hkept.effect hm p c.latch, hr', hguard.move hmove⟩

theorem Runs.kept (h : Runs p c₀ s₀ c s) (h₀ : RunKept p params i b c₀ s₀)
    (hc : Along (program params b i) c₀.todo) : RunKept p params i b c s := by
  induction h with
  | start => exact h₀
  | step hruns hstep ih => exact ih.step (hruns.along hc) hstep

/-- Only admission, the acquisitions and CONFIG's step can find themselves not enabled (R90, R255). -/
theorem not_blocked_of_plain (hm : m.plain = true ∨ ∃ f, m = .release f) (htodo : c.todo = m :: rest) :
    advance p c s ≠ .blocked c' s' := by
  intro h
  unfold advance at h
  rw [htodo] at h
  cases m with
  | admitStep | configure | acquireExcl | acquireShared | respond => simp [Micro.plain] at hm
  | _ =>
    simp only [stepRelease, stepSetRead, stepSetWrite, stepTestRead, stepReadCount, stepWriteCount, stepOrReadSource,
      stepOrReadDest, stepMemWrite] at h
    repeat' split at h
    all_goals cases h

theorem Role.at_ne_holds {f0 : Nat} (h : r ≠ .holds) : r.at f0 f ≠ .holds := by
  unfold Role.at
  split
  · exact h
  · exact nofun

/-- A run does not end under a lock that it holds. -/
theorem RunEnds.not_holds (h : RunEnds p c s t) (hc : Along (program params b i) c.todo) (hrole : c.HasRole f r) :
    r ≠ .holds := by
  have hstage := hc.stage
  cases h with
  | answered status answer rest htodo =>
    rw [htodo] at hstage
    have hnil := hstage.eq_nil_of_respond
    rw [hrole.unique (.of_unguarded (htodo.trans (by rw [hnil])) .here)]
    exact nofun
  | waits h =>
    generalize htodo : c.todo = todo at hstage
    cases hstage with
    | waits answer hleads => rw [hrole.unique (.of_waits htodo hleads)]; exact Role.at_ne_holds nofun
    | unguarded status answer hleads => rw [hrole.unique (.of_unguarded htodo hleads)]; exact nofun
    | configures => rw [hrole.unique (.of_configures htodo)]; exact Role.at_ne_holds nofun
    | locked answer hleads =>
      cases hleads with
      | here => exact absurd h (not_blocked_of_plain (.inr ⟨_, rfl⟩) htodo)
      | plain hm => exact absurd h (not_blocked_of_plain (.inl hm) htodo)

theorem RunEnds.bank? (h : RunEnds p c s t) (f : Nat) : t.bank? f = s.bank? f := by cases h <;> rfl

/-- The bank that a command's FID names, after it. -/
theorem ExecEnds.bank (h : ExecEnds i s t) (hb : s.bank? (bankOf i.fid) = some b)
    (hb' : t.bank? (bankOf i.fid) = some b') :
    BankKept s.params i b b' ∧ ∃ r, r ≠ .holds ∧ GuardKept s.cur b.guard b'.guard r := by
  cases h with
  | queued | refused | pending =>
    cases hb.symm.trans hb'
    exact ⟨.refl .., .none, nofun, .refl ..⟩
  | @ran c' s' _ hpend hruns hend =>
    have hhome : homeBank s i = b := by simp [homeBank, hb]
    have hc : Along (program s.params b i) (InFlight.started s i).todo := hhome ▸ started_along s i
    obtain ⟨b₁, r, hb₁, hkept, hrole, hguard⟩ := hruns.kept (.start hb hpend) hc
    cases hb₁.symm.trans ((hend.bank? _).symm.trans hb')
    exact ⟨hkept, r, hend.not_holds (hruns.along hc) hrole, hguard⟩

/-- Settles O32: every micro-step of a run keeps what `BankKept` and `GuardKept` say, and a run ends with its lock
released or not yet acquired. -/
theorem bankFrame : Obligations.BankFrame := by
  intro s t i b b' h hb hb'
  obtain ⟨hkept, r, hr, hguard⟩ := (exec_ends h).bank hb hb'
  exact ⟨hkept.registers, hkept.count, hguard.writer hr, hguard.others, hkept.byte⟩

end Sys2Proof.Machine
end

section
/-! Bits that are set stay set (R42): a byte is stored with the bits it was read with, since within one command no other
port moves between the read and the store. -/

namespace Sys2Proof.Machine

variable {p q f : Nat} {c c' c₀ : InFlight} {s s' s₀ t : State} {b b' b₁ : Bank} {i : Instr} {m : Micro}
  {todo rest : List Micro} {params : Params} {l : Latch}

/-- The micro-step stores no byte, and is not the admission. -/
def Micro.quiet : Micro → Bool
  | .admitStep | .configure _ _ _ _ | .setWrite _ _ _ | .orWrite _ _ | .zeroByte _ _ => false
  | .acquireExcl _ | .acquireShared _ | .release _ | .setRead _ _ _ | .testRead _ _ _ | .readCount _
  | .writeCountSucc _ | .writeCountZero _ | .orReadSource _ _ | .orReadDest _ _ | .respond _ _ => true

/-- Every store follows the read of its byte. -/
inductive ReadsBeforeStores : List Micro → Prop
  | nil : ReadsBeforeStores []
  | quiet {m : Micro} {todo : List Micro} (hm : m.quiet = true) (h : ReadsBeforeStores todo) :
      ReadsBeforeStores (m :: todo)
  | setBit (f : Nat) (h : HashQuad) (j : Nat) {todo : List Micro} (htodo : ReadsBeforeStores todo) :
      ReadsBeforeStores (.setRead f h j :: .setWrite f h j :: todo)
  | orByte (f j : Nat) {todo : List Micro} (htodo : ReadsBeforeStores todo) :
      ReadsBeforeStores (.orReadDest f j :: .orWrite f j :: todo)

theorem ReadsBeforeStores.append {l₁ l₂ : List Micro} (h₁ : ReadsBeforeStores l₁) (h₂ : ReadsBeforeStores l₂) :
    ReadsBeforeStores (l₁ ++ l₂) := by
  induction h₁ with
  | nil => exact h₂
  | quiet hm _ ih => exact .quiet hm ih
  | setBit f h j _ ih => exact .setBit f h j ih
  | orByte f j _ ih => exact .orByte f j ih

theorem ReadsBeforeStores.of_quiet (h : ∀ m ∈ todo, m.quiet = true) : ReadsBeforeStores todo := by
  induction todo with
  | nil => exact .nil
  | cons m todo ih => exact .quiet (h m (by simp)) (ih fun x hx => h x (by simp [hx]))

theorem ReadsBeforeStores.dropTests (h : ReadsBeforeStores todo) : ReadsBeforeStores (dropTests todo) := by
  induction h with
  | nil => exact .nil
  | @quiet m _ hm h ih =>
    cases m with
    | testRead => exact ih
    | _ => exact .quiet hm h
  | setBit f h j htodo _ => exact .setBit f h j htodo
  | orByte f j htodo _ => exact .orByte f j htodo

theorem readsBeforeStores_setBitOps (f : Nat) (h : HashQuad) (n j : Nat) : ReadsBeforeStores (setBitOps f h j n) := by
  induction n generalizing j with
  | zero => exact .nil
  | succ n ih => exact .setBit f h j (ih (j + 1))

theorem readsBeforeStores_addKeysOps (params : Params) (f : Nat) (k : Word32) (keys : List (List Byte)) :
    ReadsBeforeStores (addKeysOps params f k keys) := by
  induction keys with
  | nil => exact .nil
  | cons key keys ih =>
    exact ((readsBeforeStores_setBitOps f _ _ 0).append (.quiet rfl (.quiet rfl .nil))).append ih

theorem readsBeforeStores_orByteOps (fd fs n j : Nat) : ReadsBeforeStores (orByteOps fd fs j n) := by
  induction n generalizing j with
  | zero => exact .nil
  | succ n ih => exact .quiet rfl (.orByte fd j (ih (j + 1)))

theorem Body.readsBeforeStores {body : List Micro} (h : Body params b i body) (hi : isClearing i = false) :
    ReadsBeforeStores body := by
  cases h with
  | insertion => exact readsBeforeStores_addKeysOps ..
  | merge => exact readsBeforeStores_orByteOps ..
  | reset hreset => rw [hreset] at hi; cases hi
  | registers => exact .nil
  | count => exact .quiet rfl .nil
  | test =>
    refine .of_quiet fun m hm => ?_
    obtain ⟨x, rfl⟩ := mem_testBitOps hm
    rfl

theorem readsBeforeStores_program (params : Params) (b : Bank) (hi : isClearing i = false) :
    ReadsBeforeStores (program params b i) := by
  have hconfig : i.opcode ≠ .config := fun h => by simp [isClearing, h] at hi
  obtain ⟨body, answer, hbody, heq⟩ := program_eq_guarded params b hconfig
  have hlock : (lockMicro i).quiet = true := by unfold lockMicro; split <;> rfl
  rw [heq, guarded]
  split
  · exact .quiet hlock ((hbody.readsBeforeStores hi).append (.quiet rfl (.quiet rfl .nil)))
  · exact (hbody.readsBeforeStores hi).append (.quiet rfl .nil)

/-- What command `i`, which clears nothing, has in hand on its bank `b`: where its next micro-step is a store, it is of
the byte as it was read. -/
inductive Ready (b : Bank) (byte : Byte) : List Micro → Prop
  | reads {todo : List Micro} (h : ReadsBeforeStores todo) : Ready b byte todo
  | setWrite {f : Nat} {h : HashQuad} {j : Nat} {todo : List Micro} (htodo : ReadsBeforeStores todo)
      (hbyte : byte = Memory.read b.storage (slotOf b.bitlen (probePosition h j))) :
      Ready b byte (.setWrite f h j :: todo)
  | orWrite {f j : Nat} {todo : List Micro} (htodo : ReadsBeforeStores todo)
      (hbyte : byte = Memory.read b.storage j) : Ready b byte (.orWrite f j :: todo)

/-- Every bit of `b` is set in `b'`. -/
def Bank.BitsKept (b b' : Bank) : Prop :=
  ∀ j o, (Memory.read b.storage j).getLsbD o = true → (Memory.read b'.storage j).getLsbD o = true

/-- A byte stored with the bits it was read with loses none. -/
theorem Bank.bitsKept_write (hwf : Memory.wf b.storage) (x : Nat) (v : Byte) :
    b.BitsKept { b with storage := Memory.write b.storage x (Memory.read b.storage x ||| v) } := by
  intro j o hset
  by_cases hx : x = j
  · subst hx
    simp [Memory.read_write_eq hwf.1, hset]
  · rwa [Memory.read_write_ne _ hx]

theorem Micro.effect_storage_of_quiet (hm : m.quiet = true) (p : Nat) (l : Latch) (b : Bank) :
    (m.effect p l b).storage = b.storage := by
  cases m with
  | admitStep | configure | setWrite | orWrite | zeroByte => cases hm
  | _ => rfl

theorem Micro.effect_wf (p : Nat) (l : Latch) (hb : Memory.wf b.storage) :
    Memory.wf (m.effect p l b).storage := by
  cases m with
  | configure => exact Memory.wf_zeroBelow hb _
  | setWrite | orWrite | zeroByte => exact Memory.wf_write hb _ _
  | _ => exact hb

theorem Takes.readsBeforeStores (h : Takes p c s m rest c' s') (hrest : ReadsBeforeStores rest) :
    ReadsBeforeStores c'.todo := by
  obtain h | ⟨-, h⟩ := h.command.todo <;> rw [h]
  · exact hrest
  · exact hrest.dropTests

/-- A micro-step of a command that clears nothing keeps every set bit, and what the command has in hand. -/
theorem Takes.bitsKept (h : Takes p c s m rest c' s') (hbyte : c'.latch.byte = m.loads b c.latch.byte)
    (hready : Ready b c.latch.byte c.todo) (hwf : Memory.wf b.storage) :
    b.BitsKept (m.effect p c.latch b) ∧ Ready (m.effect p c.latch b) c'.latch.byte c'.todo := by
  rw [h.todo] at hready
  cases hready with
  | setWrite htodo hload | orWrite htodo hload =>
    refine ⟨?_, .reads (h.readsBeforeStores htodo)⟩
    simp only [Micro.effect, hload]
    exact b.bitsKept_write hwf _ _
  | reads htodo =>
    cases htodo with
    | quiet hm htodo =>
      refine ⟨fun j o hset => ?_, .reads (h.readsBeforeStores htodo)⟩
      rwa [Micro.effect_storage_of_quiet hm]
    | setBit f q j htodo =>
      rw [h.todo_of_not_test nofun]
      exact ⟨fun _ _ hset => hset, .setWrite htodo hbyte⟩
    | orByte f j htodo =>
      rw [h.todo_of_not_test nofun]
      exact ⟨fun _ _ hset => hset, .orWrite htodo hbyte⟩

/-- The bank of command `i`, `b` before it, at a point of its run: no set bit was lost. -/
def RunReady (i : Instr) (b : Bank) (c : InFlight) (s : State) : Prop :=
  ∃ b', s.bank? (bankOf i.fid) = some b' ∧ Memory.wf b'.storage ∧ b.BitsKept b' ∧ Ready b' c.latch.byte c.todo

theorem RunReady.step (h : RunReady i b₁ c s) (hc : Along (program params b i) c.todo)
    (hstep : Takes p c s m rest c' s') : RunReady i b₁ c' s' := by
  obtain ⟨b', hb', hwf, hbits, hready⟩ := h
  obtain ⟨hkept, hready'⟩ := hstep.bitsKept (hstep.byte_eq hc hb') hready hwf
  refine ⟨m.effect p c.latch b', ?_, Micro.effect_wf p c.latch hwf,
    fun j o hset => hkept j o (hbits j o hset), hready'⟩
  rw [hstep.state_eq hc, State.bank?_modifyBank_self, hb']
  rfl

theorem Runs.ready (h : Runs p c₀ s₀ c s) (h₀ : RunReady i b₁ c₀ s₀)
    (hc : Along (program params b i) c₀.todo) : RunReady i b₁ c s := by
  induction h with
  | start => exact h₀
  | step hruns hstep ih => exact ih.step (hruns.along hc) hstep

/-- An admission stores nothing. -/
theorem afterAdmission_storage (hb : s.bank? f = some b) :
    ∃ b', (s.afterAdmission p i).bank? f = some b' ∧ b'.storage = b.storage := by
  obtain h | ⟨f', g, h⟩ := afterAdmission_eq s p i <;> rw [h]
  · exact ⟨b, hb, rfl⟩
  · rw [State.bank?_modifyBank, hb]
    split <;> exact ⟨_, rfl, rfl⟩

theorem ExecEnds.bitsKept (h : ExecEnds i s t) (hwf : Memory.wf b.storage) (hi : isClearing i = false)
    (hb : s.bank? (bankOf i.fid) = some b) (hb' : t.bank? (bankOf i.fid) = some b') : b.BitsKept b' := by
  cases h with
  | queued | refused | pending => cases hb.symm.trans hb'; exact fun _ _ hset => hset
  | @ran c' s' _ hpend hruns hend =>
    obtain ⟨b₀, hb₀, hstorage⟩ := afterAdmission_storage (p := s.cur) (i := i) hb
    have hstart : RunReady i b (InFlight.started s i) (s.afterAdmission s.cur i) :=
      ⟨b₀, hb₀, hstorage ▸ hwf, fun _ _ hset => by rwa [hstorage], .reads (readsBeforeStores_program _ _ hi)⟩
    obtain ⟨b₁, hb₁, -, hbits, -⟩ := hruns.ready hstart (started_along s i)
    cases hb₁.symm.trans ((hend.bank? _).symm.trans hb')
    exact hbits

/-- Settles O33: a bank that the FID does not name is as it was, and a command that clears nothing stores each byte
with the bits that it read. -/
theorem setBitsStaySet : Obligations.SetBitsStaySet := by
  intro s t i f b b' hs h hb hb' hclear
  have hends := exec_ends h
  by_cases hf : f = bankOf i.fid
  · subst hf
    have hwf := (hs b (State.mem_banks_iff.2 ⟨_, hb⟩)).1
    exact hends.bitsKept hwf (eq_false_of_ne_true fun hc => hclear ⟨hc, rfl⟩) hb hb'
  · rw [hends.frame.1.bank f hf, hb] at hb'
    cases hb'
    exact fun _ _ hset => hset

end Sys2Proof.Machine
end

section
/-! The remaining statements about the state: refusal on an unconfigured bank (R39), a BUSY port (R45), whose turn it is
(R87), and power-on reset (R49 to R51). -/

namespace Sys2Proof.Machine

variable {p q f : Nat} {s t : State} {b : Bank} {i : Instr}

/-! ### Unconfigured banks -/

theorem mem_namedBanks_iff : f ∈ namedBanks i ↔ f = bankOf i.fid ∨ i.opcode = .merge ∧ f = bankOf i.sfid := by
  cases i <;> simp [namedBanks, Instr.fid, Instr.sfid, Instr.opcode]

theorem bankCheck_of_unconfigured (hi : i.opcode ≠ .config) (hf : f ∈ namedBanks i) (hcfg : configured s f = false) :
    bankCheck s i = some .unconfigured := by
  unfold bankCheck
  by_cases hfid : configured s (bankOf i.fid) = false
  · rw [if_pos ⟨hi, hfid⟩]
  · obtain rfl | ⟨hmerge, rfl⟩ := mem_namedBanks_iff.1 hf
    · exact absurd hcfg hfid
    · rw [if_neg (fun h => hfid h.2), if_pos hmerge, if_pos hcfg]

/-- Settles O24: R273's step 7 is the first check that such a command can fail. -/
theorem unconfiguredRefused : Obligations.UnconfiguredRefused := by
  intro s i hidle hi hbanks hpend hcfg
  obtain ⟨f, hf, hcfg⟩ := hcfg
  have hconfig : configCheck s i = none := by
    cases i with
    | config => exact absurd rfl hi
    | _ => rfl
  have hpacket : packetCheck s i = none := packetCheck_none_iff.2
    ⟨hbanks _ (mem_namedBanks i), fun hm => hbanks _ (mem_namedBanks_iff.2 (.inr ⟨hm, rfl⟩)), hconfig⟩
  rw [exec_eq_runCommand]
  exact runCommand_bankError hidle hpacket (List.any_eq_false.2 fun f hf => by simp [hpend f hf])
    (bankCheck_of_unconfigured hi hf hcfg)

/-! ### Busy ports and turns -/

/-- Settles O28: the command joins the port's queue, and the accept move finds the port BUSY. -/
theorem busyPortTakesNothing : Obligations.BusyPortTakesNothing := by
  intro s i port c hport hbusy
  refine ⟨s.offer s.cur (encode i), ?_, rfl, ?_, ?_⟩
  · rw [exec_eq_runCommand]
    simp only [runCommand, hport, hbusy]
  · rw [State.offer, State.port?_modifyPort, if_pos rfl, hport]
    rfl
  · simp only [acceptMove, hport, hbusy]

/-- The default turn is the lowest-numbered port's that can move (log entry 4). -/
theorem nextPort_eq_some (hp : p < s.ports.length) (hcan : canMove s p = true) (hlow : ∀ q < p, canMove s q = false) :
    nextPort s = some p := by
  unfold nextPort
  rw [List.find?_range_eq_some]
  exact ⟨hcan, List.mem_range.2 hp, fun q hq => by simp [hlow q hq]⟩

/-- Settles O48: a command move of an IDLE port takes the request at the head of its queue and runs what it decodes
to. -/
theorem stepRunsDecoded : Obligations.StepRunsDecoded := by
  refine ⟨fun s p rest port packet queue hagenda hport hidle hqueue => ?_, fun s p hagenda hp hcan hlow => ?_⟩
  · have hstep : step s = runPacket packet (({ s with agenda := rest, cur := p } : State).takeRequest p) := by
      have hport' : (({ s with agenda := rest } : State).turn p).port? p = some port := hport
      simp only [step, hagenda, performMove, commandMove, hport', hidle, hqueue]
      rfl
    refine ⟨fun i hi => ?_, fun e he => ?_⟩
    · rw [hstep]; simp only [runPacket, hi]
    · rw [hstep]; simp only [runPacket, he]; rfl
  · have hturn : ({ s with agenda := [] } : State) = s := by rw [← hagenda]
    have hdefault : step s = performMove (.command p) s := by
      simp only [step, hagenda, defaultMove, nextPort_eq_some hp hcan hlow]
    rw [hdefault]
    exact congrArg (performMove (.command p)) hturn.symm

/-! ### Power-on reset -/

/-- Settles O60: power-on reset puts every bank and every port to its reset value. -/
theorem powerOnReset : Obligations.PowerOnReset := by
  have hbank : ∀ b, b = Bank.unconfigured → b.cfg = false ∧ b.conc = false ∧ b.log2len = 0 ∧ b.bitlen = 0 ∧ b.k = 0 ∧
      b.count = 0 ∧ b.guard = { writer := none, readers := [], waiting := [], configPending := false } := by
    rintro b rfl
    exact ⟨rfl, rfl, rfl, rfl, rfl, rfl, rfl⟩
  refine ⟨fun b hb => hbank b (List.eq_of_mem_replicate hb), fun port hport => ?_, fun s rest hagenda => ?_⟩
  · rw [List.eq_of_mem_replicate hport]; rfl
  · refine ⟨({ s with agenda := rest } : State).powerOn, by simp only [step, hagenda, performMove],
      List.length_map .., List.length_map .., fun b hb => ?_, fun port hport => ?_⟩
    · obtain ⟨_, _, rfl⟩ := List.mem_map.1 hb
      exact hbank _ rfl
    · obtain ⟨_, _, rfl⟩ := List.mem_map.1 hport
      rfl

theorem not_busyWith_resetWith {params : Params} {numFilters numPorts : Nat} {c : InFlight} :
    ¬ (State.resetWith params numFilters numPorts).busyWith p c := by
  rintro ⟨port, hport, hc⟩
  rw [List.eq_of_mem_replicate (List.mem_of_getElem? hport)] at hc
  cases hc

/-- Settles O59: after reset every bank is unconfigured, with a free guard, and no command is in flight. -/
theorem resetSatisfiesInvariants : Obligations.ResetSatisfiesInvariants := by
  intro params numFilters numPorts hL
  have hbank : ∀ b ∈ (State.resetWith params numFilters numPorts).banks, b = Bank.unconfigured :=
    fun b hb => List.eq_of_mem_replicate hb
  refine ⟨fun b hb => ?_, ⟨hL, fun b hb hcfg => ?_, State.inFlight_legal_iff.2 fun p c h => ?_⟩, fun b hb hw => ?_,
    fun p c h => ?_, fun f b hf => ?_⟩
  · rw [hbank b hb]; exact Bank.unconfigured_storageOk _
  · rw [hbank b hb] at hcfg; cases hcfg
  · exact absurd h not_busyWith_resetWith
  · rw [hbank b hb]; rfl
  · exact absurd h not_busyWith_resetWith
  · rw [hbank b (State.mem_banks_iff.2 ⟨f, hf⟩)]
    simp [not_busyWith_resetWith, Bank.unconfigured, Guard.free]

end Sys2Proof.Machine
end

section
/-! A command run at once is one of the orders of micro-steps (R86, R87): no micro-step reads the fields of the
schedule, so a command move ends where accepting and micro-moves of its port end. -/

namespace Sys2Proof.Machine

variable {p q k : Nat} {c c' : InFlight} {s s' t : State} {agenda rest : List Move}

/-! ### The fields of the schedule -/

/-- The state with these fields of the schedule (log entry 4). -/
def State.scheduled (s : State) (cur : Nat) (agenda : List Move) : State := { s with cur := cur, agenda := agenda }

@[simp] theorem State.scheduled_params (s : State) (k : Nat) (agenda : List Move) :
    (s.scheduled k agenda).params = s.params := rfl
@[simp] theorem State.scheduled_ports (s : State) (k : Nat) (agenda : List Move) :
    (s.scheduled k agenda).ports = s.ports := rfl
@[simp] theorem State.scheduled_cur (s : State) (k : Nat) (agenda : List Move) :
    (s.scheduled k agenda).cur = k := rfl
@[simp] theorem State.scheduled_agenda (s : State) (k : Nat) (agenda : List Move) :
    (s.scheduled k agenda).agenda = agenda := rfl
@[simp] theorem State.bank?_scheduled (s : State) (k : Nat) (agenda : List Move) (f : Nat) :
    (s.scheduled k agenda).bank? f = s.bank? f := rfl
@[simp] theorem State.port?_scheduled (s : State) (k : Nat) (agenda : List Move) (q : Nat) :
    (s.scheduled k agenda).port? q = s.port? q := rfl
@[simp] theorem State.physicalBytes_scheduled (s : State) (k : Nat) (agenda : List Move) :
    (s.scheduled k agenda).physicalBytes = s.physicalBytes := rfl
@[simp] theorem State.busyWith_scheduled : (s.scheduled k agenda).busyWith q c ↔ s.busyWith q c := Iff.rfl

/-- The same outcome with these fields of the schedule. -/
def Advance.scheduled (k : Nat) (agenda : List Move) : Advance → Advance
  | .moved c s => .moved c (s.scheduled k agenda)
  | .blocked c s => .blocked c (s.scheduled k agenda)
  | .done s => .done (s.scheduled k agenda)
  | .fault r => .fault r

/-- The same outcome of a move with these fields of the schedule. -/
def outcomeScheduled (k : Nat) (agenda : List Move) :
    Host.Outcome State Fault Refusal → Host.Outcome State Fault Refusal
  | .next s => .next (s.scheduled k agenda)
  | .fault r => .fault r
  | .refused r => .refused r

theorem conclude_scheduled (p k : Nat) (agenda : List Move) (a : Advance) :
    conclude p (a.scheduled k agenda) = outcomeScheduled k agenda (conclude p a) := by cases a <;> rfl

section
variable (s : State) (k : Nat) (agenda : List Move)

theorem memRead_scheduled (f j : Nat) : memRead (s.scheduled k agenda) f j = memRead s f j := rfl

theorem readProbe_scheduled (f i : Nat) (h : HashQuad) :
    readProbe (s.scheduled k agenda) f h i = readProbe s f h i := rfl

theorem readCount_scheduled (f : Nat) : readCount (s.scheduled k agenda) f = readCount s f := rfl

theorem memWrite_scheduled (f j : Nat) (v : Byte) :
    memWrite (s.scheduled k agenda) f j v = (memWrite s f j v).map (·.scheduled k agenda) := by
  simp only [memWrite, State.bank?_scheduled, State.physicalBytes_scheduled]
  cases s.bank? f with
  | none => rfl
  | some b => by_cases h : j < s.physicalBytes <;> simp only [h, if_true, if_false] <;> rfl

theorem writeCount_scheduled (f : Nat) (v : Word64) :
    writeCount (s.scheduled k agenda) f v = (writeCount s f v).map (·.scheduled k agenda) := by
  simp only [writeCount, State.bank?_scheduled]
  cases s.bank? f <;> rfl

theorem othersName_scheduled (p f : Nat) : (s.scheduled k agenda).othersName p f = s.othersName p f := rfl

theorem afterAdmission_scheduled (p : Nat) (i : Instr) :
    (s.scheduled k agenda).afterAdmission p i = (s.afterAdmission p i).scheduled k agenda := by
  have hhome : homeBank (s.scheduled k agenda) i = homeBank s i := rfl
  simp only [State.afterAdmission, State.reachLock, hhome]
  split
  · rfl
  · split <;> rfl

theorem admission_scheduled (p : Nat) (i : Instr) (c : InFlight) :
    admission p i c (s.scheduled k agenda) = (admission p i c s).scheduled k agenda := by
  have hpend : (s.scheduled k agenda).configPending = s.configPending := rfl
  have hcheck : bankCheck (s.scheduled k agenda) i = bankCheck s i := rfl
  have hhome : homeBank (s.scheduled k agenda) i = homeBank s i := rfl
  simp only [admission, hpend, hcheck, hhome, afterAdmission_scheduled, State.scheduled_params]
  split
  · rfl
  · cases bankCheck s i <;> rfl

/-- No micro-step reads or writes the fields of the schedule. -/
theorem advance_scheduled (p : Nat) (c : InFlight) :
    advance p c (s.scheduled k agenda) = (advance p c s).scheduled k agenda := by
  obtain ⟨req, adm, l, todo⟩ := c
  cases todo with
  | nil => rfl
  | cons m rest =>
    cases m with
    | respond => rfl
    | admitStep =>
      simp only [advance, stepAdmit]
      cases decode req with
      | error e => rfl
      | ok i => exact admission_scheduled s k agenda p i _
    | configure f =>
      simp only [advance, stepConfigure, State.bank?_scheduled, othersName_scheduled]
      cases s.bank? f with
      | none => rfl
      | some b => by_cases h : s.othersName p f = true <;> simp only [h, if_true] <;> rfl
    | acquireExcl f | acquireShared f =>
      simp only [advance, stepAcquire, State.bank?_scheduled]
      cases s.bank? f with
      | none => rfl
      | some b => dsimp only; split <;> rfl
    | release f =>
      simp only [advance, stepRelease, State.bank?_scheduled]
      cases s.bank? f <;> rfl
    | setRead f h i =>
      simp only [advance, stepSetRead, readProbe_scheduled]
      cases readProbe s f h i <;> rfl
    | setWrite f h i =>
      simp only [advance, stepSetWrite, State.bank?_scheduled, memWrite_scheduled]
      cases s.bank? f with
      | none => rfl
      | some b => dsimp only; cases memWrite s f _ _ <;> rfl
    | testRead f h i =>
      simp only [advance, stepTestRead, readProbe_scheduled]
      cases readProbe s f h i with
      | error r => rfl
      | ok v => dsimp only; split <;> rfl
    | readCount f =>
      simp only [advance, stepReadCount, readCount_scheduled]
      cases readCount s f <;> rfl
    | writeCountSucc f | writeCountZero f =>
      simp only [advance, stepWriteCount, writeCount_scheduled]
      cases writeCount s f _ <;> rfl
    | orReadSource f j | orReadDest f j =>
      simp only [advance, stepOrReadSource, stepOrReadDest, memRead_scheduled]
      cases memRead s f j <;> rfl
    | orWrite f j | zeroByte f j =>
      simp only [advance, stepMemWrite, memWrite_scheduled]
      cases memWrite s f j _ <;> rfl

end

/-! ### The moves of one port -/

theorem microMove_of_busy (h : s.busyWith p c) : microMove p s = conclude p (advance p c s) := by
  obtain ⟨port, hport, hc⟩ := h
  simp only [microMove, hport, hc]

theorem microMove_of_idle (h : ∀ c, ¬ s.busyWith p c) : microMove p s = .next s := by
  unfold microMove
  cases hport : s.port? p with
  | none => rfl
  | some port =>
    cases hc : port.inFlight with
    | none => simp only [hc]
    | some c => exact absurd ⟨port, hport, hc⟩ (h c)

theorem microMove_scheduled (p k : Nat) (s : State) (agenda : List Move) :
    microMove p (s.scheduled k agenda) = outcomeScheduled k agenda (microMove p s) := by
  by_cases h : ∃ c, s.busyWith p c
  · obtain ⟨c, hc⟩ := h
    rw [microMove_of_busy (State.busyWith_scheduled.2 hc), microMove_of_busy hc, advance_scheduled,
      conclude_scheduled]
  · have hidle : ∀ c, ¬ s.busyWith p c := fun c hc => h ⟨c, hc⟩
    rw [microMove_of_idle hidle, microMove_of_idle (s := s.scheduled k agenda) hidle]
    rfl

theorem acceptMove_of_busy (h : s.busyWith p c) : acceptMove p s = s := by
  obtain ⟨port, hport, hc⟩ := h
  simp only [acceptMove, hport, hc]

theorem acceptMove_of_idle {port : Port} {packet : List Byte} {queue : List (List Byte)}
    (hport : s.port? p = some port) (hidle : port.inFlight = none) (hqueue : port.queue = packet :: queue) :
    acceptMove p s = (s.takeRequest p).park p (acceptedCommand s packet) := by
  simp only [acceptMove, hport, hidle, hqueue]

theorem acceptedCommand_scheduled (s : State) (k : Nat) (agenda : List Move) (packet : List Byte) :
    acceptedCommand (s.scheduled k agenda) packet = acceptedCommand s packet := rfl

theorem acceptMove_scheduled (p k : Nat) (s : State) (agenda : List Move) :
    acceptMove p (s.scheduled k agenda) = (acceptMove p s).scheduled k agenda := by
  simp only [acceptMove, State.port?_scheduled, acceptedCommand_scheduled]
  cases s.port? p with
  | none => rfl
  | some port => dsimp only; split <;> rfl

theorem step_accept (h : s.agenda = .accept p :: rest) : step s = .next ((acceptMove p s).scheduled p rest) := by
  rw [← acceptMove_scheduled]
  simp only [step, h, performMove]
  rfl

theorem step_micro (h : s.agenda = .micro p :: rest) : step s = outcomeScheduled p rest (microMove p s) := by
  rw [← microMove_scheduled]
  simp only [step, h, performMove]
  rfl

theorem step_command (h : s.agenda = .command p :: rest) : step s = commandMove p (s.scheduled p rest) := by
  simp only [step, h, performMove]
  rfl

/-! ### A command move as micro-moves -/

/-- `n` micro-moves of port `p`, one after another. -/
def microMoves (p : Nat) : Nat → State → Host.Outcome State Fault Refusal
  | 0, s => .next s
  | n + 1, s =>
    match microMove p s with
    | .next t => microMoves p n t
    | .fault r => .fault r
    | .refused r => .refused r

theorem microMoves_still (h : microMove p s = .next s) (n : Nat) : microMoves p n s = .next s := by
  induction n with
  | zero => rfl
  | succ n ih => simp only [microMoves, h, ih]

/-- Micro-moves of a port are the micro-steps of its command, and nothing after its response (R86). -/
theorem microMoves_eq_drive {port : Port} (n : Nat) (hport : s.port? p = some port) :
    microMoves p n (s.park p c) = conclude p (drive n p c s) := by
  induction n generalizing c s with
  | zero => rfl
  | succ n ih =>
    have hmove : microMove p (s.park p c) = conclude p ((advance p c s).inPort p c) := by
      rw [microMove_of_busy (State.busyWith_park hport c), advance_park]
    simp only [drive]
    cases ha : advance p c s with
    | moved c' s' =>
      rw [ha] at hmove
      simp only [microMoves, hmove, Advance.inPort, conclude, State.park_park]
      exact ih ((port?_of_moved ha p).trans hport)
    | blocked c' s' =>
      obtain ⟨rfl, rfl⟩ := advance_blocked ha
      rw [ha] at hmove
      simp only [Advance.inPort, conclude, State.park_park] at hmove
      exact microMoves_still hmove _
    | done s' =>
      rw [ha] at hmove
      simp only [microMoves, hmove, Advance.inPort, conclude]
      obtain ⟨_, _, _, -, rfl⟩ := advance_done ha
      exact microMoves_still (microMove_of_idle fun d hd => (State.busyWith_deliver_iff.1 hd).1 rfl) n
    | fault r =>
      rw [ha] at hmove
      simp only [microMoves, hmove, Advance.inPort, conclude]

theorem runFrom_eq_drive_succ (p : Nat) (c : InFlight) (s : State) : ∃ n, runFrom p c s = drive (n + 1) p c s := by
  cases ha : advance p c s with
  | moved c' s' => exact ⟨c'.todo.length, by simp [runFrom, drive, ha]⟩
  | blocked | done | fault => exact ⟨0, by simp [runFrom, drive, ha]⟩

/-- A packet that an IDLE port runs at once ends where the command it accepts ends (R122, R273). -/
theorem runPacket_eq_runFrom {port : Port} {packet : List Byte} (hport : s.port? s.cur = some port)
    (hidle : port.inFlight = none) :
    runPacket packet s = conclude s.cur (runFrom s.cur (acceptedCommand s packet) s) := by
  unfold runPacket acceptedCommand
  cases hi : decode packet with
  | error e => rfl
  | ok i =>
    simp only [exec_eq_runCommand, runCommand, hport, hidle, encode_of_decode hi]
    cases packetCheck s i with
    | some e => rfl
    | none =>
      dsimp only
      rw [runAdmitted_eq_runFrom (c := InFlight.accepted packet) hi rfl]

/-- A command move is accepting and then some micro-moves of the port, at least one. -/
theorem commandMove_eq_microMoves (hcur : s.cur = p) :
    ∃ n, commandMove p s = microMoves p (n + 1) (acceptMove p s) := by
  cases hport : s.port? p with
  | none =>
    refine ⟨0, ?_⟩
    rw [microMoves_still] <;> simp [commandMove, acceptMove, microMove, hport]
  | some port =>
    cases hc : port.inFlight with
    | some c =>
      have hbusy : s.busyWith p c := ⟨port, hport, hc⟩
      obtain ⟨n, hn⟩ := runFrom_eq_drive_succ p c s
      have hmoves := microMoves_eq_drive (c := c) (n + 1) hport
      rw [State.park_busyWith hbusy, ← hn] at hmoves
      refine ⟨n, ?_⟩
      rw [acceptMove_of_busy hbusy, hmoves]
      simp only [commandMove, hport, hc]
    | none =>
      cases hqueue : port.queue with
      | nil =>
        refine ⟨0, ?_⟩
        rw [microMoves_still] <;> simp [commandMove, acceptMove, microMove, hport, hc, hqueue]
      | cons packet queue =>
        subst hcur
        have hport' : (s.takeRequest s.cur).port? s.cur = some { port with queue := port.queue.tail } := by
          rw [State.port?_takeRequest, if_pos rfl, hport]; rfl
        obtain ⟨n, hn⟩ := runFrom_eq_drive_succ s.cur (acceptedCommand s packet) (s.takeRequest s.cur)
        refine ⟨n, ?_⟩
        rw [acceptMove_of_idle hport hc hqueue, microMoves_eq_drive _ hport', ← hn]
        simp only [commandMove, hport, hc, hqueue]
        exact runPacket_eq_runFrom hport' hc

theorem microMoves_scheduled (p n k : Nat) (s : State) (agenda : List Move) :
    microMoves p n (s.scheduled k agenda) = outcomeScheduled k agenda (microMoves p n s) := by
  induction n generalizing s with
  | zero => rfl
  | succ n ih =>
    simp only [microMoves, microMove_scheduled]
    cases microMove p s with
    | next t => exact ih t
    | fault | refused => rfl

theorem run_succ {n : Nat} (h : step s = .next t) : Host.Core.run core (n + 1) s = Host.Core.run core n t := by
  have hstep : core.step s = .next t := h
  simp only [Host.Core.run, hstep]

/-- Micro-moves on the agenda are taken one a step. -/
theorem run_replicate_micro (p n : Nat) (s : State) (rest : List Move) :
    Host.Core.run core n (s.scheduled p (List.replicate n (.micro p) ++ rest)) =
      outcomeScheduled p rest (microMoves p n s) := by
  induction n generalizing s with
  | zero => rfl
  | succ n ih =>
    have hstep : core.step (s.scheduled p (List.replicate (n + 1) (.micro p) ++ rest)) =
        outcomeScheduled p (List.replicate n (.micro p) ++ rest) (microMove p s) := by
      rw [← microMove_scheduled]
      rfl
    simp only [Host.Core.run, hstep, microMoves]
    cases microMove p s with
    | next t => exact ih t
    | fault | refused => rfl

/-- Settles O47: the command move accepts and takes micro-steps, and none of them reads the agenda. -/
theorem commandIsItsMicroSteps : Obligations.CommandIsItsMicroSteps := by
  intro s p rest port packet queue hagenda _ _ _
  obtain ⟨n, hn⟩ := commandMove_eq_microMoves (p := p) (s := s.scheduled p rest) rfl
  refine ⟨n + 1, ?_⟩
  have hfirst : step { s with agenda := .accept p :: (List.replicate (n + 1) (.micro p) ++ rest) } =
      .next ((acceptMove p s).scheduled p (List.replicate (n + 1) (.micro p) ++ rest)) := by
    rw [← acceptMove_scheduled]
    rfl
  rw [step_command hagenda, hn, acceptMove_scheduled, microMoves_scheduled, run_succ hfirst]
  exact run_replicate_micro ..

end Sys2Proof.Machine
end

section
/-! Under the exclusive lock of a bank no other port changes it (R88, R167, R175). -/

namespace Sys2Proof.Machine

open Relation (ReflTransGen)
variable {p q f n : Nat} {c c' d : InFlight} {s s' t : State} {b : Bank} {i : Instr} {m : Micro}
  {rest : List Micro} {agenda : List Move}

/-! ### The invariants together -/

/-- The registers, the guards and the locks of the commands in flight are as the engine keeps them. -/
structure State.Inv (s : State) : Prop where
  registers : s.RegisterInv
  guard : s.GuardInv
  locks : s.LockInv

theorem Moves.inv (hs : s.Inv) (h : Moves s t) : t.Inv :=
  ⟨h.registerInv hs.registers, h.guardInv hs.guard, h.lockInv hs.guard hs.locks⟩

theorem State.Inv.of_moves (hs : s.Inv) (h : ReflTransGen Moves s t) : t.Inv := by
  induction h with
  | refl => exact hs
  | tail _ hmove ih => exact hmove.inv ih

theorem State.Inv.scheduled (hs : s.Inv) (k : Nat) (agenda : List Move) : (s.scheduled k agenda).Inv :=
  (Moves.schedule s k agenda).inv hs

theorem State.Inv.onTrack (hs : s.Inv) (hbusy : s.busyWith p c) : c.onTrack s := hs.locks.1 p c hbusy

/-! ### What every move of one port keeps -/

theorem microMoves_keeps {I : State → Prop} (hmicro : ∀ s t, I s → microMove p s = .next t → I t) (hs : I s)
    (h : microMoves p n s = .next t) : I t := by
  induction n generalizing s with
  | zero => cases h; exact hs
  | succ n ih =>
    rw [microMoves] at h
    cases hm : microMove p s <;> rw [hm] at h
    case next s' => exact ih (hmicro s s' hs hm) h
    case fault | refused => cases h

/-- What accepting and every micro-move of a port keep, every step at that port's turn keeps. -/
theorem portStep_keeps {I : State → Prop} (hschedule : ∀ s k agenda, I s → I (s.scheduled k agenda))
    (haccept : ∀ s, I s → I (acceptMove p s)) (hmicro : ∀ s t, I s → microMove p s = .next t → I t)
    (hagenda : s.agenda = .micro p :: agenda ∨ s.agenda = .command p :: agenda ∨ s.agenda = .accept p :: agenda)
    (hs : I s) (h : step s = .next t) : I t := by
  obtain hagenda | hagenda | hagenda := hagenda
  · rw [step_micro hagenda, ← microMove_scheduled] at h
    exact hmicro _ _ (hschedule s p agenda hs) h
  · obtain ⟨n, hn⟩ := commandMove_eq_microMoves (p := p) (s := s.scheduled p agenda) rfl
    rw [step_command hagenda, hn] at h
    exact microMoves_keeps hmicro (haccept _ (hschedule s p agenda hs)) h
  · rw [step_accept hagenda] at h
    cases h
    exact hschedule _ _ _ (haccept s hs)

/-! ### The holder of a lock, and the others -/

/-- A command with a micro-step of a program before it was admitted, and stands somewhere along that program. -/
theorem InFlight.onTrack.of_mem (hc : c.onTrack s) (hm : m ∈ c.todo) (hadmit : m ≠ .admitStep)
    (hrespond : ∀ e a, m ≠ .respond e a) : c.admitted = true ∧
      ∃ i, decode c.request = .ok i ∧ Along (program s.params (homeBank s i) i) c.todo := by
  obtain ⟨h1, -⟩ | ⟨e, h2⟩ | ⟨hadm, hne, i, hi, hsuffix⟩ := hc
  · rw [h1] at hm
    exact absurd (List.mem_singleton.1 hm) hadmit
  · rw [h2] at hm
    exact absurd (List.mem_singleton.1 hm) (hrespond _ _)
  · exact ⟨hadm, i, hi, hne, hsuffix⟩

/-- The guard's micro-steps of a program are on the bank that FID names. -/
theorem release_mem_program {params : Params} (hm : Micro.release f ∈ program params b i) : f = bankOf i.fid := by
  simpa [Micro.plain] using (mem_program hm).kind

/-- A command that holds a lock was admitted and names its bank. -/
theorem InFlight.onTrack.of_holds (hc : c.onTrack s) (hholds : c.holds f) :
    c.admitted = true ∧ ∃ i, decode c.request = .ok i ∧ f = bankOf i.fid := by
  obtain ⟨hrelease, -, -⟩ := hholds
  obtain ⟨hadm, i, hi, halong⟩ := hc.of_mem hrelease nofun nofun
  exact ⟨hadm, i, hi, release_mem_program (halong.suffix.subset hrelease)⟩

/-- Where one port holds the lock exclusively, no command of another holds it. -/
theorem not_holds_of_writer (hs : s.Inv) (hb : s.bank? f = some b) (hw : b.guard.writer = some p) (hq : q ≠ p)
    (hbusy : s.busyWith q c) : ¬ c.holds f := by
  intro hholds
  have hreaders := hs.guard b (State.mem_banks_iff.2 ⟨f, hb⟩) (by simp [hw])
  obtain ⟨hlock, -⟩ := hs.locks.2 f b hb
  have hlocked := (hlock q).2 ⟨c, hbusy, hholds⟩
  simp [hw, hreaders, Ne.symm hq] at hlocked

/-- While a port holds a lock, CONFIG's atomic step of another port on the bank is not enabled (R255). -/
theorem othersName_of_writer (hs : s.Inv) (hb : s.bank? f = some b) (hw : b.guard.writer = some p) (hq : q ≠ p) :
    s.othersName q f = true := by
  obtain ⟨hlock, -⟩ := hs.locks.2 f b hb
  obtain ⟨d, hbusy, hholds⟩ := (hlock p).1 (.inl hw)
  obtain ⟨hadm, i, hi, rfl⟩ := (hs.onTrack hbusy).of_holds hholds
  exact othersName_of_busy hbusy (Ne.symm hq) hadm hi

/-- On a bank with CONC = 1 a micro-step of a body stands before the release of the lock (R86). -/
theorem release_mem_of_plain {params : Params} (hconc : b.conc = true) (hm : m.plain = true)
    (hsuffix : m :: rest <:+ program params b i) : Micro.release (bankOf i.fid) ∈ rest := by
  have hmem := hsuffix.subset List.mem_cons_self
  by_cases hi : i.opcode = .config
  · cases i <;> cases hi
    rw [program_config] at hmem
    simp only [List.mem_cons, List.not_mem_nil, or_false] at hmem
    obtain rfl | rfl := hmem <;> cases hm
  · obtain ⟨body, answer, -, heq⟩ := program_eq_guarded params b hi
    have htail : [.release (bankOf i.fid), .respond .ok answer] <:+ program params b i := by
      rw [heq, guarded, if_pos hconc]
      exact (List.suffix_append ..).trans (List.suffix_cons ..)
    obtain h | h := List.suffix_or_suffix_of_suffix htail hsuffix
    · obtain rfl | h := List.mem_cons.1 (h.subset List.mem_cons_self)
      · cases hm
      · exact h
    · have hm' := h.subset List.mem_cons_self
      simp only [List.mem_cons, List.not_mem_nil, or_false] at hm'
      obtain rfl | rfl := hm' <;> cases hm

/-! ### The locked bank -/

/-- Bank `f` is `b` but for its guard, whose exclusive lock port `p` holds. -/
def State.lockedBank (s : State) (p f : Nat) (b : Bank) : Prop :=
  ∃ g : Guard, s.bank? f = some { b with guard := g } ∧ g.writer = some p

/-- A change of one bank that, where it is the locked one, leaves all but the guard and keeps the writer. -/
theorem State.lockedBank.modifyBank {f0 : Nat} {change : Bank → Bank} (h : s.lockedBank p f b)
    (hchange : ∀ g : Guard, f0 = f → s.bank? f = some { b with guard := g } → g.writer = some p →
      ∃ g', change { b with guard := g } = { b with guard := g' } ∧ g'.writer = some p) :
    (s.modifyBank f0 change).lockedBank p f b := by
  obtain ⟨g, hb, hw⟩ := h
  by_cases hf : f0 = f
  · obtain ⟨g', hg', hw'⟩ := hchange g hf hb hw
    exact ⟨g', by rw [State.bank?_modifyBank, if_pos hf, hb, Option.map_some, hg'], hw'⟩
  · exact ⟨g, by rw [State.bank?_modifyBank, if_neg hf, hb], hw⟩

theorem State.lockedBank.afterAdmission (h : s.lockedBank p f b) : (s.afterAdmission q i).lockedBank p f b := by
  unfold State.afterAdmission State.reachLock
  split
  · exact h.modifyBank fun g _ _ hw => ⟨_, rfl, hw⟩
  · split
    · exact h.modifyBank fun g _ _ hw => ⟨g.wait q, rfl, hw⟩
    · exact h

/-- A micro-step of another port works on a bank whose lock a port holds exclusively by a read at most. -/
theorem Takes.effect_of_locked (h : Takes q c s m rest c' s') (hs : s.Inv) (hbusy : s.busyWith q c) (hq : q ≠ p)
    (hb : s.bank? m.bank = some b) (hconc : b.conc = true) (hw : b.guard.writer = some p) :
    m.effect q c.latch b = b := by
  obtain ⟨-, i, -, hsuffix, hstage⟩ := h.stage (hs.onTrack hbusy)
  obtain ⟨b₀, hb₀, hm, -⟩ := h.bank
  cases hb.symm.trans hb₀
  have hnot := not_holds_of_writer hs hb hw hq hbusy
  rw [h.todo] at hsuffix hstage
  have hbank := bank_of_mem_program (hsuffix.subset List.mem_cons_self)
  cases hstage.cons with
  | acquire heq =>
    subst heq
    unfold lockMicro at hm
    split at hm
    · cases hw.symm.trans hm
    · cases hw.symm.trans hm.1
  | release answer =>
    exact absurd ((InFlight.HasRole.of_locked h.todo .here).holds.2 (by simp [Role.at, Micro.bank])) hnot
  | configure => cases (othersName_of_writer hs hb hw hq).symm.trans hm
  | locked hplain answer hrest =>
    obtain hbank | ⟨hid, -⟩ := hbank
    · have hrole := InFlight.HasRole.of_locked (f := m.bank) h.todo (.plain hplain hrest)
      exact absurd (hrole.holds.2 (by simp [Role.at, hbank])) hnot
    · exact hid _ _ b
  | unguarded hplain status answer hrest =>
    obtain hbank | ⟨hid, -⟩ := hbank
    · have hhome : homeBank s i = b := by simp [homeBank, ← hbank, hb]
      rw [hhome] at hsuffix
      simpa [Micro.plain] using hrest.mem (release_mem_of_plain hconc hplain hsuffix)
    · exact hid _ _ b
  | respond => exact hm.elim

/-- Micro-steps of other ports keep a locked bank. -/
theorem lockedBank_of_moved (hs : s.Inv) (hlocked : s.lockedBank p f b) (hconc : b.conc = true) (hq : q ≠ p)
    (hbusy : s.busyWith q c) (h : advance q c s = .moved c' s') : s'.lockedBank p f b := by
  obtain ⟨-, hadmit⟩ | ⟨m, rest, htakes⟩ := advance_moved_cases h
  · cases hadmit with
    | undecodable | rejected => exact hlocked
    | admitted => exact hlocked.afterAdmission
  · rw [htakes.state]
    exact hlocked.modifyBank fun g hf hb hw =>
      ⟨g, htakes.effect_of_locked hs hbusy hq (hf ▸ hb) hconc hw, hw⟩

theorem lockedBank_microMove (hs : s.Inv) (hlocked : s.lockedBank p f b) (hconc : b.conc = true) (hq : q ≠ p)
    (h : microMove q s = .next t) : t.lockedBank p f b := by
  by_cases hbusy : ∃ c, s.busyWith q c
  · obtain ⟨c, hbusy⟩ := hbusy
    rw [microMove_of_busy hbusy] at h
    cases ha : advance q c s <;> rw [ha] at h <;> cases h
    · have hmoved := lockedBank_of_moved hs hlocked hconc hq hbusy ha
      exact hmoved
    · obtain ⟨rfl, rfl⟩ := advance_blocked ha
      exact hlocked
    · obtain ⟨_, _, _, -, rfl⟩ := advance_done ha
      exact hlocked
  · rw [microMove_of_idle fun c hc => hbusy ⟨c, hc⟩] at h
    cases h
    exact hlocked

theorem lockedBank_acceptMove (hlocked : s.lockedBank p f b) : (acceptMove q s).lockedBank p f b := by
  unfold acceptMove
  split
  · exact hlocked
  · split <;> exact hlocked

/-- Settles O55: another port's micro-step on the bank is before its own acquisition, which is not enabled, or a read of
MERGE's source, or CONFIG's, which waits for the holder's response. -/
theorem lockedBankIsSafe : Obligations.LockedBankIsSafe := by
  intro s t p q f b rest hregisters hguard hlocks hb hconc hw hq hagenda h
  have hkept : t.Inv ∧ t.lockedBank p f b := by
    refine portStep_keeps (p := q) (I := fun s => s.Inv ∧ s.lockedBank p f b) ?_ ?_ ?_
      hagenda ⟨⟨hregisters, hguard, hlocks⟩, b.guard, hb, hw⟩ h
    · exact fun s k agenda ⟨hs, hlocked⟩ => ⟨hs.scheduled k agenda, hlocked⟩
    · exact fun s ⟨hs, hlocked⟩ => ⟨hs.of_moves (acceptMove_moves q s), lockedBank_acceptMove hlocked⟩
    · exact fun s t ⟨hs, hlocked⟩ h => ⟨hs.of_moves (microMove_moves h), lockedBank_microMove hs hlocked hconc hq h⟩
  obtain ⟨-, g, hb', hw'⟩ := hkept
  exact ⟨_, hb', rfl, hw'⟩

end Sys2Proof.Machine
end

section
/-! What a command that is not enabled waits for, and that waiting never goes round (R93, R255). -/

namespace Sys2Proof.Machine

variable {p q f : Nat} {c c' d : InFlight} {s s' t : State} {b : Bank} {i : Instr} {m : Micro} {rest : List Micro}

/-! ### Micro-steps that are not enabled -/

/-- What the command `c` of port `p` waits for where its next micro-step is not enabled (R90, R255). -/
inductive Waits (s : State) (p : Nat) (c : InFlight) : Prop
  /-- a CONFIG is pending on a bank that it names -/
  | admission {i : Instr} {f : Nat} (htodo : c.todo = [.admitStep]) (hi : decode c.request = .ok i)
      (hf : f ∈ namedBanks i) (hpend : s.configPending f = true)
  /-- its bank's lock is held -/
  | lock {f : Nat} {b : Bank} (hacquires : c.acquires f) (hb : s.bank? f = some b)
      (hheld : b.guard.writer ≠ none ∨ b.guard.readers ≠ [])
  /-- it is a CONFIG of a bank that another command in flight names -/
  | interlock {f : Nat} {b : Bank} (hconfigures : c.configures f) (hb : s.bank? f = some b)
      (hothers : s.othersName p f = true)

theorem stepAcquire_blocked {acquire : Guard → Nat → Option Guard}
    (h : stepAcquire p f acquire rest c s = .blocked c' s') :
    ∃ b, s.bank? f = some b ∧ acquire b.guard p = none := by
  unfold stepAcquire at h
  split at h
  · cases h
  · next b hb =>
    split at h
    · cases h
    · next hnone => exact ⟨b, hb, hnone⟩

theorem stepAdmit_blocked (h : stepAdmit p c s = .blocked c' s') :
    ∃ i, decode c.request = .ok i ∧ ∃ f ∈ namedBanks i, s.configPending f = true := by
  unfold stepAdmit admission at h
  split at h
  · cases h
  · next i hi =>
    split at h
    · next hpend => exact ⟨i, hi, by simpa using hpend⟩
    · split at h <;> cases h

theorem waits_of_blocked (hc : c.onTrack s) (h : advance p c s = .blocked c' s') : Waits s p c := by
  cases htodo : c.todo with
  | nil =>
    obtain ⟨h1, -⟩ | ⟨e, h2⟩ | ⟨-, hne, -⟩ := hc
    · cases htodo.symm.trans h1
    · cases htodo.symm.trans h2
    · exact absurd htodo hne
  | cons m rest =>
    have hadvance := h
    simp only [advance, htodo] at h
    cases m with
    | admitStep =>
      obtain ⟨i, hi, f, hf, hpend⟩ := stepAdmit_blocked h
      exact .admission (hc.todo_of_admitStep htodo) hi hf hpend
    | configure f =>
      simp only [stepConfigure] at h
      split at h
      · cases h
      · next b hb =>
        split at h
        · next hothers => exact .interlock ⟨_, _, _, htodo ▸ List.mem_cons_self⟩ hb hothers
        · cases h
    | acquireExcl f =>
      obtain ⟨b, hb, hnone⟩ := stepAcquire_blocked h
      refine .lock (.inl (by rw [htodo]; rfl)) hb ?_
      simpa [Guard.acquireExcl, ← not_and_or] using hnone
    | acquireShared f =>
      obtain ⟨b, hb, hnone⟩ := stepAcquire_blocked h
      exact .lock (.inr (by rw [htodo]; rfl)) hb (.inl (by simpa [Guard.acquireShared] using hnone))
    | respond => cases h
    | release f => exact absurd hadvance (not_blocked_of_plain (.inr ⟨f, rfl⟩) htodo)
    | _ => exact absurd hadvance (not_blocked_of_plain (.inl rfl) htodo)

/-! ### Where commands stand -/

/-- An admitted command has one role at each bank. -/
theorem Stage.hasRole (h : Stage i c.todo) (f : Nat) : ∃ r, c.HasRole f r := by
  generalize htodo : c.todo = todo at h
  cases h with
  | waits answer h => exact ⟨_, .of_waits htodo h⟩
  | locked answer h => exact ⟨_, .of_locked htodo h⟩
  | unguarded status answer h => exact ⟨_, .of_unguarded htodo h⟩
  | configures => exact ⟨_, .of_configures htodo⟩

theorem InFlight.onTrack.not_admitted (hc : c.onTrack s) (htodo : c.todo = [.admitStep]) : c.admitted = false := by
  obtain ⟨-, h⟩ | ⟨e, h2⟩ | ⟨-, -, i, -, hsuffix⟩ := hc
  · exact h
  · cases htodo.symm.trans h2
  · exact absurd (hsuffix.subset (htodo ▸ List.mem_cons_self)) (admitStep_not_mem_program _ _ i)

/-- CONFIG's atomic step is on the bank that its FID names (R250). -/
theorem configure_mem_program {params : Params} {capacity : Word64} {k : Word32} {conc : Bool}
    (hm : Micro.configure f capacity k conc ∈ program params b i) : i.opcode = .config ∧ f = bankOf i.fid := by
  generalize hm' : Micro.configure f capacity k conc = m at hm
  cases mem_program hm with
  | configure hi => cases hm'; subst hi; exact ⟨rfl, rfl⟩
  | lock => unfold lockMicro at hm'; split at hm' <;> cases hm'
  | release | respond => cases hm'
  | body _ hbody => subst hm'; exact absurd hbody.plain nofun

/-- A command at CONFIG's atomic step is an admitted CONFIG of that bank. -/
theorem InFlight.onTrack.of_configures (hc : c.onTrack s) (h : c.configures f) : c.admitted = true ∧
    ∃ i, decode c.request = .ok i ∧ i.opcode = .config ∧ f = bankOf i.fid := by
  obtain ⟨capacity, k, conc, hm⟩ := h
  obtain ⟨hadm, i, hi, halong⟩ := hc.of_mem hm nofun nofun
  exact ⟨hadm, i, hi, configure_mem_program (halong.suffix.subset hm)⟩

theorem InFlight.names_iff : c.names f = true ↔ ∃ i, decode c.request = .ok i ∧ f ∈ namedBanks i := by
  unfold InFlight.names
  cases decode c.request <;> simp

theorem portNames_iff : s.portNames q f = true ↔ ∃ d, s.busyWith q d ∧ d.admitted = true ∧ d.names f = true := by
  unfold State.portNames State.busyWith
  cases hport : s.port? q with
  | none => simp
  | some port => cases hc : port.inFlight <;> simp [hc]

theorem exists_of_othersName (h : s.othersName p f = true) :
    ∃ q d, q ≠ p ∧ s.busyWith q d ∧ d.admitted = true ∧ d.names f = true := by
  obtain ⟨q, -, hq⟩ := List.any_eq_true.1 h
  simp only [Bool.and_eq_true, decide_eq_true_eq] at hq
  obtain ⟨d, hbusy, hadm, hnames⟩ := portNames_iff.1 hq.2
  exact ⟨q, d, hq.1, hbusy, hadm, hnames⟩

/-- Two commands at CONFIG's atomic step are not of one bank, and a CONFIG names no other. -/
theorem not_names_of_configures (hs : s.LockInv) (hp : s.busyWith p c) (hq : s.busyWith q d) (hpq : q ≠ p)
    {f' : Nat} (hb : s.bank? f = some b) (hc : c.configures f) (hd : d.configures f') : d.names f = false := by
  refine eq_false_of_ne_true fun hnames => ?_
  obtain ⟨-, i, hi, hop, rfl⟩ := (hs.1 q d hq).of_configures hd
  obtain ⟨i', hi', hf⟩ := InFlight.names_iff.1 hnames
  cases hi.symm.trans hi'
  rw [namedBanks_of_ne_merge (by simp [hop])] at hf
  cases List.mem_singleton.1 hf
  obtain ⟨-, -, -, honly⟩ := hs.2 _ b hb
  exact hpq (honly q p d c hq hp hd hc)

/-! ### No deadlock -/

/-- A port that holds a lock is never kept waiting (R93). -/
theorem enabled_of_holds (hs : s.LockInv) (hbusy : s.busyWith p c) (h : c.holds f) : s.microEnabled p := by
  refine ⟨c, hbusy, fun c' s' hblocked => ?_⟩
  obtain ⟨-, i, -, halong⟩ := (hs.1 p c hbusy).of_mem h.1 nofun nofun
  obtain ⟨r, hrole⟩ := halong.stage.hasRole f
  obtain ⟨rfl, rfl⟩ := advance_blocked hblocked
  exact (RunEnds.waits hblocked).not_holds halong hrole (hrole.holds.1 h)

theorem exists_holder_of_held (hs : s.LockInv) (hb : s.bank? f = some b)
    (hheld : b.guard.writer ≠ none ∨ b.guard.readers ≠ []) : ∃ q d, s.busyWith q d ∧ d.holds f := by
  have hlocked : ∃ q, b.guard.writer = some q ∨ q ∈ b.guard.readers := by
    obtain hw | hr := hheld
    · exact (Option.ne_none_iff_exists'.1 hw).imp fun _ => .inl
    · exact (List.exists_mem_of_ne_nil _ hr).imp fun _ => .inr
  obtain ⟨q, hq⟩ := hlocked
  obtain ⟨hlock, -⟩ := hs.2 f b hb
  exact ⟨q, (hlock q).1 hq⟩

theorem exists_enabled_of_held (hs : s.LockInv) (hb : s.bank? f = some b)
    (hheld : b.guard.writer ≠ none ∨ b.guard.readers ≠ []) : ∃ q, s.microEnabled q := by
  obtain ⟨q, d, hbusy, hholds⟩ := exists_holder_of_held hs hb hheld
  exact ⟨q, enabled_of_holds hs hbusy hholds⟩

theorem not_microEnabled (hbusy : s.busyWith p c) (h : ¬ s.microEnabled p) :
    ∃ c' s', advance p c s = .blocked c' s' := by
  by_contra hnone
  exact h ⟨c, hbusy, fun c' s' hblocked => hnone ⟨c', s', hblocked⟩⟩

/-- What keeps a CONFIG from its atomic step is enabled, or waits for a holder of a lock that is. -/
theorem exists_enabled_of_others (hs : s.LockInv) (hbusy : s.busyWith p c) (hb : s.bank? f = some b)
    (hc : c.configures f) (hothers : s.othersName p f = true) : ∃ q, s.microEnabled q := by
  obtain ⟨q, d, hq, hd, hadm, hnames⟩ := exists_of_othersName hothers
  by_contra hnone
  obtain ⟨c', s', hblocked⟩ := not_microEnabled hd fun h => hnone ⟨q, h⟩
  cases waits_of_blocked (hs.1 q d hd) hblocked with
  | admission htodo => simp [(hs.1 q d hd).not_admitted htodo] at hadm
  | lock _ hb hheld => exact hnone (exists_enabled_of_held hs hb hheld)
  | interlock hd' => simp [not_names_of_configures hs hbusy hd hq hb hc hd'] at hnames

theorem bank_of_configPending (h : s.configPending f = true) :
    ∃ b, s.bank? f = some b ∧ b.guard.configPending = true := by
  unfold State.configPending at h
  cases hb : s.bank? f with
  | none => rw [hb] at h; cases h
  | some b => rw [hb] at h; exact ⟨b, rfl, h⟩

/-- Waiting goes from an admission to a pending CONFIG, from there to an admitted command, from there to the holder of
a lock, and no further. -/
theorem exists_enabled_of_waits (hs : s.LockInv) (hbusy : s.busyWith p c) (h : Waits s p c) :
    ∃ q, s.microEnabled q := by
  cases h with
  | lock _ hb hheld => exact exists_enabled_of_held hs hb hheld
  | interlock hc hb hothers => exact exists_enabled_of_others hs hbusy hb hc hothers
  | admission _ _ _ hpend =>
    obtain ⟨b, hb, hbit⟩ := bank_of_configPending hpend
    obtain ⟨-, -, hpending, -⟩ := hs.2 _ b hb
    obtain ⟨q, d, hd, hconfigures⟩ := hpending.1 hbit
    by_contra hnone
    obtain ⟨c', s', hblocked⟩ := not_microEnabled hd fun h => hnone ⟨q, h⟩
    cases waits_of_blocked (hs.1 q d hd) hblocked with
    | admission htodo =>
      obtain ⟨capacity, k, conc, hm⟩ := hconfigures
      rw [htodo] at hm
      cases List.mem_singleton.1 hm
    | lock _ hb hheld => exact hnone (exists_enabled_of_held hs hb hheld)
    | interlock hd' hb' hothers => exact hnone (exists_enabled_of_others hs hd hb' hd' hothers)

/-- Settles O56: a command that is not enabled waits, at the end of a chain of at most three, for one that is. -/
theorem noDeadlock : Obligations.NoDeadlock := by
  rintro s - - hlocks ⟨p, c, hbusy⟩
  suffices ∃ q, s.microEnabled q from this
  by_cases hp : s.microEnabled p
  · exact ⟨p, hp⟩
  · obtain ⟨c', s', hblocked⟩ := not_microEnabled hbusy hp
    exact exists_enabled_of_waits hlocks hbusy (waits_of_blocked (hlocks.1 p c hbusy) hblocked)

end Sys2Proof.Machine
end

section
/-! The machine comes to rest (R96, R331): from legal registers no step stops, every move of a port leaves less work, and
where some work is left some port can move. -/

namespace Sys2Proof.Machine

open Relation (ReflTransGen)
variable {p q f n : Nat} {c c' d : InFlight} {s s' t : State} {b : Bank} {i : Instr} {m : Micro} {rest : List Micro}
  {port : Port}

/-! ### No step stops -/

theorem bank?_of_lt (h : f < s.banks.length) : ∃ b, s.bank? f = some b := ⟨_, List.getElem?_eq_getElem h⟩

theorem probe_of_configured (hs : s.RegisterInv) (hf : configured s f = true) (h : HashQuad) (j : Nat) :
    ∃ b, s.bank? f = some b ∧ slotOf b.bitlen (probePosition h j) < s.physicalBytes := by
  obtain ⟨-, hlegal, -⟩ := hs
  obtain ⟨b, hb, hcfg⟩ := configured_iff.1 hf
  exact ⟨b, hb, slotOf_lt_physical (hlegal b (State.mem_banks_iff.2 ⟨f, hb⟩) hcfg) _⟩

theorem stepAcquire_ne_fault {acquire : Guard → Nat → Option Guard} {r : Fault} (hb : s.bank? f = some b) :
    stepAcquire p f acquire rest c s ≠ .fault r := by
  simp only [stepAcquire, hb]
  split <;> exact nofun

theorem stepAdmit_ne_fault {r : Fault} : stepAdmit p c s ≠ .fault r := by
  unfold stepAdmit admission
  split
  · exact nofun
  · split
    · exact nofun
    · split <;> exact nofun

/-- A micro-step on banks and bytes that exist does not stop the machine. -/
theorem advance_ne_fault {r : Fault} (hs : s.RegisterInv) (hc : c.legal s) : advance p c s ≠ .fault r := by
  obtain ⟨req, adm, l, todo⟩ := c
  cases todo with
  | nil => exact nofun
  | cons m rest =>
    have hm : m.legal s := hc.1 m List.mem_cons_self
    cases m with
    | admitStep => exact stepAdmit_ne_fault
    | respond => exact nofun
    | configure f =>
      obtain ⟨b, hb⟩ := bank?_of_lt hm.1
      simp only [advance, stepConfigure, hb]
      split <;> exact nofun
    | acquireExcl | acquireShared =>
      obtain ⟨b, hb⟩ := bank?_of_lt hm
      exact stepAcquire_ne_fault hb
    | release f =>
      obtain ⟨b, hb⟩ := bank?_of_lt hm
      simp [advance, stepRelease, hb]
    | setRead f h j =>
      obtain ⟨b, hb, hj⟩ := probe_of_configured hs hm h j
      simp [advance, stepSetRead, readProbe, hb, memRead_ok hb hj]
    | setWrite f h j =>
      obtain ⟨b, hb, hj⟩ := probe_of_configured hs hm h j
      simp [advance, stepSetWrite, hb, memWrite_ok _ hb hj]
    | testRead f h j =>
      obtain ⟨b, hb, hj⟩ := probe_of_configured hs hm h j
      simp only [advance, stepTestRead, readProbe, hb, memRead_ok hb hj]
      split <;> exact nofun
    | readCount f =>
      obtain ⟨b, hb⟩ := bank?_of_lt hm
      simp [advance, stepReadCount, readCount_ok hb]
    | writeCountSucc f | writeCountZero f =>
      obtain ⟨b, hb⟩ := bank?_of_lt hm
      simp [advance, stepWriteCount, writeCount_ok _ hb]
    | orReadSource f j | orReadDest f j =>
      obtain ⟨b, hb⟩ := bank?_of_lt hm.1
      simp [advance, stepOrReadSource, stepOrReadDest, memRead_ok hb hm.2]
    | orWrite f j | zeroByte f j =>
      obtain ⟨b, hb⟩ := bank?_of_lt hm.1
      simp [advance, stepMemWrite, memWrite_ok _ hb hm.2]

theorem State.RegisterInv.legal (hs : s.RegisterInv) (hbusy : s.busyWith p c) : c.legal s :=
  State.inFlight_legal_iff.1 hs.2.2 p c hbusy

theorem State.RegisterInv.of_moves (hs : s.RegisterInv) (h : ReflTransGen Moves s t) : t.RegisterInv := by
  induction h with
  | refl => exact hs
  | tail _ hmove ih => exact hmove.registerInv ih

theorem microMove_next (hs : s.RegisterInv) (p : Nat) : ∃ t, microMove p s = .next t := by
  by_cases hbusy : ∃ c, s.busyWith p c
  · obtain ⟨c, hbusy⟩ := hbusy
    rw [microMove_of_busy hbusy]
    cases ha : advance p c s with
    | fault r => exact absurd ha (advance_ne_fault hs (hs.legal hbusy))
    | moved | blocked | done => exact ⟨_, rfl⟩
  · exact ⟨s, microMove_of_idle fun c hc => hbusy ⟨c, hc⟩⟩

theorem microMoves_next (hs : s.RegisterInv) (p n : Nat) : ∃ t, microMoves p n s = .next t := by
  induction n generalizing s with
  | zero => exact ⟨s, rfl⟩
  | succ n ih =>
    obtain ⟨t, ht⟩ := microMove_next hs p
    simp only [microMoves, ht]
    exact ih (hs.of_moves (microMove_moves ht))

theorem commandMove_next (hs : s.RegisterInv) (hcur : s.cur = p) : ∃ t, commandMove p s = .next t := by
  obtain ⟨n, hn⟩ := commandMove_eq_microMoves hcur
  rw [hn]
  exact microMoves_next (hs.of_moves (acceptMove_moves p s)) p (n + 1)

theorem performMove_next (hs : s.RegisterInv) (m : Move) : ∃ t, performMove m s = .next t := by
  have hturn : ∀ p, (s.turn p).RegisterInv := fun p => (Moves.schedule s p s.agenda).registerInv hs
  cases m with
  | accept | offer | powerOn => exact ⟨_, rfl⟩
  | micro p => exact microMove_next (hturn p) p
  | command p => exact commandMove_next (hturn p) rfl

/-- From legal registers the machine takes every step. -/
theorem step_next (hs : s.RegisterInv) : ∃ t, step s = .next t := by
  unfold step
  split
  · unfold defaultMove
    split
    · exact performMove_next hs _
    · exact ⟨s, rfl⟩
  · exact performMove_next ((Moves.schedule s s.cur _).registerInv hs) _

/-! ### The agenda -/

/-- A move of a port does not read the fields of the schedule, so it keeps the agenda. -/
theorem microMove_agenda (h : microMove p s = .next t) : t.agenda = s.agenda := by
  have hsame := microMove_scheduled p s.cur s s.agenda
  rw [show s.scheduled s.cur s.agenda = s from rfl, h] at hsame
  have ht : t = t.scheduled s.cur s.agenda := Host.Outcome.next.inj hsame
  rw [ht]
  rfl

theorem acceptMove_agenda (p : Nat) (s : State) : (acceptMove p s).agenda = s.agenda := by
  have hsame : acceptMove p s = (acceptMove p s).scheduled s.cur s.agenda := acceptMove_scheduled p s.cur s s.agenda
  rw [hsame]
  rfl

theorem commandMove_agenda (hcur : s.cur = p) (h : commandMove p s = .next t) : t.agenda = s.agenda := by
  obtain ⟨n, hn⟩ := commandMove_eq_microMoves hcur
  rw [hn] at h
  exact microMoves_keeps (I := fun t => t.agenda = s.agenda) (fun _ _ hs h => (microMove_agenda h).trans hs)
    (acceptMove_agenda p s) h

theorem performMove_agenda {m : Move} (h : performMove m s = .next t) : t.agenda = s.agenda := by
  cases m with
  | accept p => cases h; exact acceptMove_agenda p _
  | micro p => exact microMove_agenda (s := s.turn p) h
  | command p => exact commandMove_agenda (s := s.turn p) rfl h
  | offer | powerOn => cases h; rfl

/-! ### The work that is left -/

/-- The work that a command in flight has left: its admission, then the micro-steps that remain. -/
def InFlight.work (c : InFlight) : ℕ ×ₗ ℕ := toLex (if .admitStep ∈ c.todo then 1 else 0, c.todo.length)

/-- The work at a port: the requests that wait, each more than an accepted one, and the command in flight. -/
def Port.work (port : Port) : ℕ ×ₗ ℕ := toLex (2 * port.queue.length, 0) + port.inFlight.elim 0 InFlight.work

def State.work (s : State) : ℕ ×ₗ ℕ := (s.ports.map Port.work).sum

theorem InFlight.work_lt_of_moved (h : advance p c s = .moved c' s') : c'.work < c.work := by
  rw [InFlight.work, InFlight.work, Prod.Lex.toLex_lt_toLex]
  obtain ⟨⟨rest, htodo⟩, hadmit⟩ | ⟨m, rest, htakes⟩ := advance_moved_cases h
  · have hgone : .admitStep ∉ c'.todo := by
      cases hadmit with
      | undecodable | rejected => simp
      | admitted i => exact admitStep_not_mem_program _ _ i
    left
    simp [htodo, hgone]
  · by_cases hgone : .admitStep ∈ c'.todo
    · exact .inr ⟨by simp [hgone, htakes.todo_subset hgone], htakes.length_lt⟩
    · by_cases hhad : .admitStep ∈ c.todo
      · left; simp [hgone, hhad]
      · exact .inr ⟨by simp [hgone, hhad], htakes.length_lt⟩

theorem InFlight.work_pos (h : c.todo ≠ []) : 0 < c.work := by
  have hlen : 0 < c.todo.length := List.length_pos_iff.2 h
  rw [InFlight.work, ← toLex_zero, Prod.Lex.toLex_lt_toLex]
  by_cases hadmit : .admitStep ∈ c.todo <;> simp [hadmit, hlen]

theorem sum_map_modify_lt {l : List Port} {g : Port → Port} (h : l[p]? = some port) (hlt : (g port).work < port.work) :
    ((l.modify p g).map Port.work).sum < (l.map Port.work).sum := by
  induction l generalizing p with
  | nil => cases h
  | cons x l ih =>
    cases p with
    | zero => cases h; simpa using hlt
    | succ p => simpa using ih h

theorem State.work_modifyPort_lt {g : Port → Port} (hport : s.port? p = some port) (hlt : (g port).work < port.work) :
    (s.modifyPort p g).work < s.work := sum_map_modify_lt hport hlt

theorem State.work_park_lt (hbusy : s.busyWith p c) (hlt : c'.work < c.work) : (s.park p c').work < s.work := by
  obtain ⟨port, hport, hc⟩ := hbusy
  exact State.work_modifyPort_lt hport (by simpa [Port.work, hc] using hlt)

/-- A micro-step that is enabled leaves less work. -/
theorem microMove_work_lt (henabled : s.microEnabled p) (h : microMove p s = .next t) : t.work < s.work := by
  obtain ⟨c, hbusy, hnot⟩ := henabled
  rw [microMove_of_busy hbusy] at h
  cases ha : advance p c s with
  | blocked c' s' => exact absurd ha (hnot c' s')
  | fault => rw [ha] at h; cases h
  | moved c' s' =>
    rw [ha] at h
    cases h
    have hbusy' : s'.busyWith p c := (State.busyWith_of_ports (ports_of_moved ha)).2 hbusy
    have hwork : s'.work = s.work := by rw [State.work, State.work, ports_of_moved ha]
    exact hwork ▸ State.work_park_lt hbusy' (InFlight.work_lt_of_moved ha)
  | done s' =>
    rw [ha] at h
    cases h
    obtain ⟨_, _, _, htodo, rfl⟩ := advance_done ha
    obtain ⟨port, hport, hc⟩ := hbusy
    have hpos := InFlight.work_pos (c := c) (by simp [htodo])
    exact State.work_modifyPort_lt hport (by simpa [Port.work, hc] using hpos)

theorem microMove_of_not_enabled (hnot : ¬ s.microEnabled p) : microMove p s = .next s := by
  by_cases hbusy : ∃ c, s.busyWith p c
  · obtain ⟨c, hbusy⟩ := hbusy
    obtain ⟨c', s', hblocked⟩ := not_microEnabled hbusy hnot
    obtain ⟨rfl, rfl⟩ := advance_blocked hblocked
    rw [microMove_of_busy hbusy, hblocked, conclude, State.park_busyWith hbusy]
  · exact microMove_of_idle fun c hc => hbusy ⟨c, hc⟩

theorem microMove_work_le (h : microMove p s = .next t) : t.work ≤ s.work := by
  by_cases henabled : s.microEnabled p
  · exact (microMove_work_lt henabled h).le
  · rw [microMove_of_not_enabled henabled] at h
    cases h
    exact le_rfl

theorem acceptedCommand_cases (s : State) (packet : List Byte) : acceptedCommand s packet = InFlight.accepted packet ∨
    ∃ e, acceptedCommand s packet = InFlight.failing packet e := by
  unfold acceptedCommand
  split
  · exact .inr ⟨_, rfl⟩
  · split
    · exact .inr ⟨_, rfl⟩
    · exact .inl rfl

theorem acceptedCommand_work_lt (s : State) (packet : List Byte) : (acceptedCommand s packet).work < toLex (2, 0) := by
  rw [InFlight.work, Prod.Lex.toLex_lt_toLex]
  obtain h | ⟨e, h⟩ := acceptedCommand_cases s packet <;> simp [h, InFlight.accepted, InFlight.failing]

/-- Accepting a request leaves less work. -/
theorem acceptMove_work_lt (hport : s.port? p = some port) (hidle : port.inFlight = none) (hqueue : port.queue ≠ []) :
    (acceptMove p s).work < s.work := by
  obtain ⟨packet, queue, hqueue⟩ := List.exists_cons_of_ne_nil hqueue
  rw [acceptMove_of_idle hport hidle hqueue, State.park_eq, State.takeRequest, State.modifyPort_modifyPort]
  refine State.work_modifyPort_lt hport ?_
  have hlt := acceptedCommand_work_lt s packet
  have hsplit : (toLex (2 * (queue.length + 1), 0) : ℕ ×ₗ ℕ) = toLex (2 * queue.length, 0) + toLex (2, 0) := rfl
  simp only [Function.comp_apply, Port.work, hidle, hqueue, List.tail_cons, Option.elim_some, Option.elim_none,
    List.length_cons, add_zero, hsplit]
  exact add_lt_add_right hlt _

/-- A port can move where its next micro-step is enabled, or it is IDLE and a request waits. -/
theorem canMove_iff : canMove s p = true ↔
    s.microEnabled p ∨ ∃ port, s.port? p = some port ∧ port.inFlight = none ∧ port.queue ≠ [] := by
  unfold State.microEnabled State.busyWith canMove
  cases hport : s.port? p with
  | none => simp
  | some port =>
    cases hc : port.inFlight with
    | none => simp [hc]
    | some c => cases ha : advance p c s <;> simp [hc, ha]

theorem State.microEnabled_scheduled {k : Nat} {agenda : List Move} :
    (s.scheduled k agenda).microEnabled p ↔ s.microEnabled p := by
  refine exists_congr fun c => and_congr State.busyWith_scheduled ?_
  rw [advance_scheduled]
  cases advance p c s <;> simp [Advance.scheduled]

theorem canMove_scheduled (s : State) (p k : Nat) (agenda : List Move) :
    canMove (s.scheduled k agenda) p = canMove s p := by
  rw [Bool.eq_iff_iff, canMove_iff, canMove_iff, State.microEnabled_scheduled]
  rfl

/-- A command move of a port that can move leaves less work. -/
theorem commandMove_work_lt (hcur : s.cur = p) (hcan : canMove s p = true) (h : commandMove p s = .next t) :
    t.work < s.work := by
  obtain ⟨n, hn⟩ := commandMove_eq_microMoves hcur
  rw [hn] at h
  have hle : ∀ {k : Nat} {u v : State}, microMoves p k u = .next v → v.work ≤ u.work := fun {k u v} h =>
    microMoves_keeps (I := fun v => v.work ≤ u.work) (fun _ _ hs h => (microMove_work_le h).trans hs) le_rfl h
  obtain henabled | ⟨port, hport, hidle, hqueue⟩ := canMove_iff.1 hcan
  · obtain ⟨c, hbusy, -⟩ := id henabled
    rw [acceptMove_of_busy hbusy, microMoves] at h
    cases hm : microMove p s <;> rw [hm] at h
    case next s' => exact (hle h).trans_lt (microMove_work_lt henabled hm)
    case fault | refused => cases h
  · exact (hle h).trans_lt (acceptMove_work_lt hport hidle hqueue)

/-! ### The end of a run -/

theorem State.Inv.step (hs : s.Inv) (h : step s = .next t) : t.Inv :=
  step_keeps (I := State.Inv) (fun _ _ hs hmove => hmove.inv hs) hs h

/-- The run from `s` comes to its end (R331). -/
def State.comesToRest (s : State) : Prop :=
  ∃ n t, Host.Core.run core n s = .next t ∧ t.agenda = [] ∧ t.atRest ∧ Machine.step t = .next t

theorem State.comesToRest.of_step (h : Machine.step s = .next s') (hrest : s'.comesToRest) : s.comesToRest := by
  obtain ⟨n, t, hrun, hend⟩ := hrest
  exact ⟨n + 1, t, (run_succ h).trans hrun, hend⟩

/-- Where no port can move, none is BUSY, since some BUSY port's micro-step would be enabled, and no request waits. -/
theorem atRest_of_stuck (hs : s.Inv) (hagenda : s.agenda = []) (hstuck : ∀ p, canMove s p = false) : s.atRest := by
  have hidle : ∀ p c, ¬ s.busyWith p c := fun p c hbusy => by
    obtain ⟨q, d, hd⟩ := noDeadlock s hs.registers hs.guard hs.locks ⟨p, c, hbusy⟩
    simpa [hstuck q] using canMove_iff.2 (.inl ⟨d, hd⟩)
  refine ⟨fun port hport => ?_, by simp [hagenda]⟩
  obtain ⟨p, hp⟩ := List.mem_iff_getElem?.1 hport
  have hnone : port.inFlight = none := Option.eq_none_iff_forall_ne_some.2 fun c hc => hidle p c ⟨port, hp, hc⟩
  refine ⟨hnone, by_contra fun hqueue => ?_⟩
  simpa [hstuck p] using canMove_iff.2 (.inr ⟨port, hp, hnone, hqueue⟩)

theorem canMove_false_of_nextPort (h : nextPort s = none) (p : Nat) : canMove s p = false := by
  refine eq_false_of_ne_true fun hcan => ?_
  have hlt : p < s.ports.length := by
    obtain ⟨c, ⟨port, hport, -⟩, -⟩ | ⟨port, hport, -⟩ := canMove_iff.1 hcan <;>
      exact (List.getElem?_eq_some_iff.1 hport).1
  exact List.find?_eq_none.1 h p (List.mem_range.2 hlt) hcan

/-- The default order alone comes to rest: each of its moves leaves less work. -/
theorem comesToRest_of_empty_agenda (hs : s.Inv) (hagenda : s.agenda = []) : s.comesToRest := by
  induction hw : s.work using WellFoundedLT.induction generalizing s with
  | ind w ih =>
    obtain ⟨t, ht⟩ := step_next hs.registers
    have hdefault := ht
    simp only [Machine.step, hagenda, defaultMove] at hdefault
    cases hnext : nextPort s with
    | none =>
      rw [hnext] at hdefault
      cases hdefault
      exact ⟨0, s, rfl, hagenda, atRest_of_stuck hs hagenda (canMove_false_of_nextPort hnext), ht⟩
    | some p =>
      rw [hnext] at hdefault
      have hcan : canMove s p = true := List.find?_some hnext
      have hless : t.work < s.work := commandMove_work_lt (s := s.turn p) (p := p) rfl
        ((canMove_scheduled s p p s.agenda).trans hcan) hdefault
      exact .of_step ht (ih t.work (hw ▸ hless) (hs.step ht) ((performMove_agenda hdefault).trans hagenda) rfl)

/-- Settles O57: the agenda is taken a move a step, and what work is left then ends by the default order. -/
theorem runsComeToRest : Obligations.RunsComeToRest := by
  intro s hregisters hguard hlocks
  have hs : s.Inv := ⟨hregisters, hguard, hlocks⟩
  clear hregisters hguard hlocks
  suffices hall : ∀ (agenda : List Move) (s : State), s.agenda = agenda → s.Inv → s.comesToRest from hall _ s rfl hs
  intro agenda
  induction agenda with
  | nil => exact fun s hagenda hs => comesToRest_of_empty_agenda hs hagenda
  | cons m agenda ih =>
    intro s hagenda hs
    obtain ⟨t, ht⟩ := step_next hs.registers
    have hmove := ht
    simp only [Machine.step, hagenda] at hmove
    exact .of_step ht (ih t (performMove_agenda hmove) (hs.step ht))

end Sys2Proof.Machine
end

section
/-! The moves of a schedule (R87, R330), each of one port or of the host, and what each makes of the commands in
flight. -/

namespace Sys2Proof.Machine

variable {p q f k n : Nat} {c c' d : InFlight} {s s' t : State} {b : Bank} {i : Instr} {m : Move} {σ : Schedule}

/-! ### What one move does -/

/-- What a move other than a whole command and power-on reset makes of the state, the fields of the schedule aside. -/
inductive MoveEffect (s : State) : Move → State → Prop
  /-- nothing is enabled, or there is nothing to accept -/
  | still {m : Move} (h : ∀ q, m = .micro q → ¬ s.microEnabled q) : MoveEffect s m s
  | offer (q : Nat) (packet : List Byte) : MoveEffect s (.offer q packet) (s.offer q packet)
  | accept {q : Nat} {port : Port} {packet : List Byte} {queue : List (List Byte)} (hport : s.port? q = some port)
      (hidle : port.inFlight = none) (hqueue : port.queue = packet :: queue) :
      MoveEffect s (.accept q) ((s.takeRequest q).park q (acceptedCommand s packet))
  | moved {q : Nat} {c c' : InFlight} {s' : State} (hbusy : s.busyWith q c) (h : advance q c s = .moved c' s') :
      MoveEffect s (.micro q) (s'.park q c')
  | answered {q : Nat} {c : InFlight} (hbusy : s.busyWith q c) (r : Response) :
      MoveEffect s (.micro q) (s.deliver q r)

theorem acceptMove_effect (s : State) (p : Nat) : MoveEffect s (.accept p) (acceptMove p s) := by
  unfold acceptMove
  split
  · exact .still nofun
  · next port hport =>
    split
    · next packet queue hidle hqueue => exact .accept hport hidle hqueue
    · exact .still nofun

theorem microMove_effect (h : microMove p s = .next t) : MoveEffect s (.micro p) t := by
  by_cases henabled : s.microEnabled p
  · obtain ⟨c, hbusy, hnot⟩ := henabled
    rw [microMove_of_busy hbusy] at h
    cases ha : advance p c s <;> rw [ha] at h <;> cases h
    · exact .moved hbusy ha
    · exact absurd ha (hnot _ _)
    · obtain ⟨_, _, _, -, rfl⟩ := advance_done ha
      exact .answered hbusy _
  · rw [microMove_of_not_enabled henabled] at h
    cases h
    exact .still fun q hq => by cases hq; exact henabled

/-- The command of a BUSY port after a move: it stays, it takes its micro-step, or it is answered. -/
theorem MoveEffect.of_busy (h : MoveEffect s m t) (hbusy : s.busyWith p c) :
    (t.busyWith p c ∧ (m = .micro p → ¬ s.microEnabled p)) ∨
      (∃ c' s', advance p c s = .moved c' s' ∧ t = s'.park p c') ∨
      ∃ port r, s.port? p = some port ∧
        t.port? p = some { port with inFlight := none, delivered := port.delivered ++ [r] } := by
  cases h with
  | still h => exact .inl ⟨hbusy, h p⟩
  | offer => exact .inl ⟨State.busyWith_offer_iff.2 hbusy, nofun⟩
  | @accept q port packet queue hport hidle =>
    have hne : q ≠ p := by
      rintro rfl
      obtain ⟨port', hport', hc⟩ := hbusy
      cases hport.symm.trans hport'
      cases hidle.symm.trans hc
    exact .inl ⟨by rw [State.busyWith_park_iff, if_neg hne, State.busyWith_takeRequest_iff]; exact hbusy, nofun⟩
  | @moved q d d' s' hbusy' h =>
    by_cases hq : q = p
    · subst hq
      cases State.busyWith_unique hbusy hbusy'
      exact .inr (.inl ⟨d', s', h, rfl⟩)
    · exact .inl ⟨(State.busyWith_park_ne (ports_of_moved h) (Ne.symm hq)).2 hbusy, fun hm => absurd (Move.micro.inj hm) hq⟩
  | @answered q d hbusy' r =>
    by_cases hq : q = p
    · subst hq
      obtain ⟨port, hport, -⟩ := hbusy
      exact .inr (.inr ⟨port, r, hport, by rw [State.deliver_eq, State.port?_modifyPort, if_pos rfl, hport]; rfl⟩)
    · exact .inl ⟨State.busyWith_deliver_iff.2 ⟨hq, hbusy⟩, fun hm => absurd (Move.micro.inj hm) hq⟩

/-- The command of a BUSY port before the move that it is BUSY after. -/
theorem MoveEffect.busy_before (h : MoveEffect s m t) (hbusy : t.busyWith p c) :
    s.busyWith p c ∨
      (∃ port packet, m = .accept p ∧ s.port? p = some port ∧ port.inFlight = none ∧
        port.queue.head? = some packet ∧ c = acceptedCommand s packet) ∨
      ∃ d s', m = .micro p ∧ s.busyWith p d ∧ advance p d s = .moved c s' ∧ t = s'.park p c := by
  cases h with
  | still => exact .inl hbusy
  | offer => exact .inl (State.busyWith_offer_iff.1 hbusy)
  | @accept q port packet queue hport hidle hqueue =>
    rw [State.busyWith_park_iff] at hbusy
    split at hbusy
    · next hq =>
      subst hq
      exact .inr (.inl ⟨port, packet, rfl, hport, hidle, by rw [hqueue]; rfl, hbusy.1⟩)
    · exact .inl (State.busyWith_takeRequest_iff.1 hbusy)
  | @moved q d d' s' hbusy' h =>
    rw [State.busyWith_park_iff] at hbusy
    split at hbusy
    · next hq =>
      subst hq
      obtain ⟨rfl, -⟩ := hbusy
      exact .inr (.inr ⟨d, s', rfl, hbusy', h, rfl⟩)
    · exact .inl ((State.busyWith_of_ports (ports_of_moved h)).1 hbusy)
  | answered => exact .inl (State.busyWith_deliver_iff.1 hbusy).2

/-! ### The states of a schedule -/

theorem Schedule.stateAt_step (hs : (σ.stateAt s n).RegisterInv) :
    step ((σ.stateAt s n).scheduled (σ.stateAt s n).cur [σ n]) = .next (σ.stateAt s (n + 1)) := by
  obtain ⟨t, ht⟩ := step_next ((Moves.schedule _ (σ.stateAt s n).cur [σ n]).registerInv hs)
  have hnext : step { σ.stateAt s n with agenda := [σ n] } = .next t := ht
  rw [Schedule.stateAt, hnext]
  exact ht

theorem Schedule.stateAt_inv (hs : s.Inv) (σ : Schedule) (n : Nat) : (σ.stateAt s n).Inv := by
  induction n with
  | zero => exact hs
  | succ n ih => exact (ih.scheduled _ _).step (Schedule.stateAt_step ih.registers)

theorem Moves.ports_length (h : Moves s t) : t.ports.length = s.ports.length := by
  cases h with
  | schedule => rfl
  | offer => exact List.length_modify ..
  | powerOn => exact List.length_map ..
  | accept => exact (List.length_modify ..).trans (List.length_modify ..)
  | micro _ h => exact (List.length_modify ..).trans (congrArg _ (ports_of_moved h))
  | respond _ h => obtain ⟨_, _, _, -, rfl⟩ := advance_done h; exact List.length_modify ..

theorem Schedule.stateAt_ports_length (hs : s.Inv) (σ : Schedule) (n : Nat) :
    (σ.stateAt s n).ports.length = s.ports.length := by
  induction n with
  | zero => rfl
  | succ n ih =>
    exact step_keeps (I := fun t => t.ports.length = s.ports.length)
      (s := (σ.stateAt s n).scheduled (σ.stateAt s n).cur [σ n])
      (fun _ _ ht hmove => hmove.ports_length.trans ht) ih (Schedule.stateAt_step (Schedule.stateAt_inv hs σ n).registers)

theorem Schedule.stateAt_effect (hs : s.Inv) (hcommand : ∀ q, σ n ≠ .command q) (hreset : σ n ≠ .powerOn) :
    ∃ t cur, MoveEffect (σ.stateAt s n) (σ n) t ∧ σ.stateAt s (n + 1) = t.scheduled cur [] := by
  have hinv := Schedule.stateAt_inv hs σ n
  have hstep := Schedule.stateAt_step hinv.registers
  cases hm : σ n with
  | command q => exact absurd hm (hcommand q)
  | powerOn => exact absurd hm hreset
  | accept q =>
    rw [hm, step_accept rfl, acceptMove_scheduled] at hstep
    exact ⟨_, q, acceptMove_effect _ q, (Host.Outcome.next.inj hstep).symm⟩
  | micro q =>
    obtain ⟨t, ht⟩ := microMove_next hinv.registers q
    rw [hm, step_micro rfl, microMove_scheduled, ht] at hstep
    exact ⟨t, q, microMove_effect ht, (Host.Outcome.next.inj hstep).symm⟩
  | offer q packet =>
    rw [hm] at hstep
    exact ⟨_, _, .offer q packet, (Host.Outcome.next.inj hstep).symm⟩

end Sys2Proof.Machine
end

section
/-! Every command in flight is answered under a fair schedule (R90, R96, R330). A command that is not answered is stuck
at one point of its program. Holders of a lock are never stuck, so neither are ports that wait for the lock; then neither
is a CONFIG that waits for admitted commands; and then neither is an admission. -/

namespace Sys2Proof.Machine

open Filter
variable {p q f k m n : Nat} {c c' d : InFlight} {s s' t : State} {b : Bank} {i : Instr} {σ : Schedule}

/-! ### Commands go forward -/

/-- What a command in flight keeps as it goes forward. -/
structure InFlight.Continues (c c' : InFlight) : Prop where
  request : c'.request = c.request
  admitted : c.admitted = true → c'.admitted = true
  todo : .admitStep ∉ c.todo → c'.todo ⊆ c.todo

theorem InFlight.Continues.refl (c : InFlight) : c.Continues c := ⟨rfl, id, fun _ => List.Subset.refl _⟩

theorem InFlight.Continues.trans (h : c.Continues c') (h' : c'.Continues d) : c.Continues d :=
  ⟨h'.request.trans h.request, fun ha => h'.admitted (h.admitted ha), fun hn =>
    List.Subset.trans (h'.todo fun hm => hn (h.todo hn hm)) (h.todo hn)⟩

theorem InFlight.continues_of_moved (h : advance p c s = .moved c' s') : c.Continues c' := by
  obtain ⟨⟨rest, htodo⟩, hadmit⟩ | ⟨m, rest, htakes⟩ := advance_moved_cases h
  · have hnot : ∀ {P : Prop}, .admitStep ∉ c.todo → P := fun hn => absurd (htodo ▸ List.mem_cons_self) hn
    cases hadmit with
    | undecodable => exact ⟨rfl, id, hnot⟩
    | rejected | admitted => exact ⟨rfl, fun _ => rfl, hnot⟩
  · exact ⟨htakes.command.request, fun ha => htakes.command.admitted.trans ha, fun _ => htakes.todo_subset⟩

theorem InFlight.Continues.names (h : c.Continues c') (f : Nat) : c'.names f = c.names f := by
  simp only [InFlight.names, h.request]

theorem InFlight.onTrack.admitStep_not_mem (hc : c.onTrack s) (hadm : c.admitted = true) : .admitStep ∉ c.todo := by
  obtain ⟨-, h⟩ | ⟨e, h2⟩ | ⟨-, -, i, -, hsuffix⟩ := hc
  · simp [hadm] at h
  · simp [h2]
  · exact fun hm => admitStep_not_mem_program _ _ i (hsuffix.subset hm)

/-! ### Answered or stuck -/

/-- From move `n` on the schedule is fair and no power-on reset comes, and the invariants held at its start. -/
structure Schedule.Steady (σ : Schedule) (s : State) (n : Nat) : Prop where
  start : s.Inv
  fair : σ.fair s
  noReset : ∀ m, n ≤ m → σ m ≠ .powerOn

theorem Schedule.Steady.inv (h : σ.Steady s n) (m : Nat) : (σ.stateAt s m).Inv := Schedule.stateAt_inv h.start σ m

theorem Schedule.Steady.effect (h : σ.Steady s n) (hm : n ≤ m) :
    ∃ t cur, MoveEffect (σ.stateAt s m) (σ m) t ∧ σ.stateAt s (m + 1) = t.scheduled cur [] :=
  Schedule.stateAt_effect h.start (h.fair.1 m) (h.noReset m hm)

/-- Move `m` delivers a response to port `p`, and leaves it IDLE. -/
def Schedule.Delivers (σ : Schedule) (s : State) (p m : Nat) : Prop :=
  ∃ port r, (σ.stateAt s m).port? p = some port ∧
    (σ.stateAt s (m + 1)).port? p = some { port with inFlight := none, delivered := port.delivered ++ [r] }

/-- The command `c`, in flight at port `p` before move `n`, is answered, its port BUSY with it until then (R96). -/
def Schedule.Answers (σ : Schedule) (s : State) (p n : Nat) (c : InFlight) : Prop :=
  ∃ m, n ≤ m ∧ (∀ k, n ≤ k → k ≤ m → ∃ c', (σ.stateAt s k).busyWith p c' ∧ c'.request = c.request) ∧
    σ.Delivers s p m

/-- Port `p` ends up with `c` in flight, and ever again not enabled. -/
structure Schedule.Stuck (σ : Schedule) (s : State) (p : Nat) (c : InFlight) : Prop where
  stays : ∀ᶠ m in atTop, (σ.stateAt s m).busyWith p c
  blocked : ∃ᶠ m in atTop, ¬ (σ.stateAt s m).microEnabled p

theorem Schedule.Delivers.idle (h : σ.Delivers s p m) (c : InFlight) : ¬ (σ.stateAt s (m + 1)).busyWith p c := by
  rintro ⟨port', hport', hc⟩
  obtain ⟨port, r, -, hport⟩ := h
  cases hport.symm.trans hport'
  cases hc

theorem Schedule.Steady.busy_next (h : σ.Steady s n) (hm : n ≤ m) (hbusy : (σ.stateAt s m).busyWith p c) :
    ((σ.stateAt s (m + 1)).busyWith p c ∧ (σ m = .micro p → ¬ (σ.stateAt s m).microEnabled p)) ∨
      (∃ c', (σ.stateAt s (m + 1)).busyWith p c' ∧ c.Continues c' ∧ c'.work < c.work) ∨ σ.Delivers s p m := by
  obtain ⟨t, cur, heffect, hnext⟩ := h.effect hm
  rw [Schedule.Delivers, hnext]
  obtain hstay | ⟨c', s', hmoved, rfl⟩ | hdelivered := heffect.of_busy hbusy
  · exact .inl hstay
  · exact .inr (.inl ⟨c', State.busyWith_park_self (ports_of_moved hmoved) hbusy, InFlight.continues_of_moved hmoved,
      InFlight.work_lt_of_moved hmoved⟩)
  · exact .inr (.inr hdelivered)

/-- Until it is answered a port is BUSY with its command. -/
theorem Schedule.Steady.busy_until (h : σ.Steady s n) (hm : n ≤ m) (hbusy : (σ.stateAt s m).busyWith p c)
    (hnot : ¬ σ.Answers s p m c) (hk : m ≤ k) : ∃ c', (σ.stateAt s k).busyWith p c' ∧ c.Continues c' := by
  suffices hall : ∀ j, m ≤ j → j ≤ k → ∃ c', (σ.stateAt s j).busyWith p c' ∧ c.Continues c' from hall k hk le_rfl
  induction k, hk using Nat.le_induction with
  | base => intro j hj hj'; cases Nat.le_antisymm hj hj'; exact ⟨c, hbusy, .refl c⟩
  | succ k hk ih =>
    intro j hj hj'
    obtain hj' | rfl := Nat.le_succ_iff.1 hj'
    · exact ih j hj hj'
    · obtain ⟨c', hbusy', hcont⟩ := ih k hk le_rfl
      obtain ⟨hstay, -⟩ | ⟨c'', hnext, hcont', -⟩ | hdelivers := h.busy_next (hm.trans hk) hbusy'
      · exact ⟨c', hstay, hcont⟩
      · exact ⟨c'', hnext, hcont.trans hcont'⟩
      · refine absurd ⟨k, hk, fun j hj hj' => ?_, hdelivers⟩ hnot
        obtain ⟨d, hd, hcont⟩ := ih j hj hj'
        exact ⟨d, hd, hcont.request⟩

/-- A command in flight is answered, or goes forward to a point where it is stuck: with the least work it ever has left
it stays, and by weak fairness it is not enabled for ever. -/
theorem Schedule.Steady.answers_or_stuck (h : σ.Steady s n) (hm : n ≤ m) (hbusy : (σ.stateAt s m).busyWith p c) :
    σ.Answers s p m c ∨ ∃ c', c.Continues c' ∧ σ.Stuck s p c' := by
  by_cases hans : σ.Answers s p m c
  · exact .inl hans
  right
  obtain ⟨w, ⟨k, c', hk, hbusy', hcont, rfl⟩, hmin⟩ := WellFounded.has_min (wellFounded_lt (α := ℕ ×ₗ ℕ))
    {w | ∃ k c', m ≤ k ∧ (σ.stateAt s k).busyWith p c' ∧ c.Continues c' ∧ c'.work = w}
    ⟨c.work, m, c, le_rfl, hbusy, .refl c, rfl⟩
  have hnext : ∀ j, k ≤ j → (σ.stateAt s j).busyWith p c' →
      (σ.stateAt s (j + 1)).busyWith p c' ∧ (σ j = .micro p → ¬ (σ.stateAt s j).microEnabled p) := by
    intro j hj hj'
    obtain hstay | ⟨d, hd, hcont', hless⟩ | hdelivers := h.busy_next (hm.trans (hk.trans hj)) hj'
    · exact hstay
    · exact absurd hless (hmin _ ⟨j + 1, d, by omega, hd, hcont.trans hcont', rfl⟩)
    · obtain ⟨d, hd, -⟩ := h.busy_until hm hbusy hans (k := j + 1) (by omega)
      exact absurd hd (hdelivers.idle d)
  have hstays : ∀ j, k ≤ j → (σ.stateAt s j).busyWith p c' := fun j hj => by
    induction j, hj using Nat.le_induction with
    | base => exact hbusy'
    | succ j hj ih => exact (hnext j hj ih).1
  refine ⟨c', hcont, eventually_atTop.2 ⟨k, hstays⟩, frequently_atTop.2 fun a => ?_⟩
  by_contra hnone
  have henabled : ∀ j, max a k ≤ j → (σ.stateAt s j).microEnabled p := fun j hj =>
    by_contra fun hnot => hnone ⟨j, (le_max_left a k).trans hj, hnot⟩
  obtain ⟨j, hj, hmove⟩ := h.fair.2.1 p _ henabled
  have hkj : k ≤ j := (le_max_right a k).trans hj
  exact (hnext j hkj (hstays j hkj)).2 hmove (henabled j hj)

/-! ### What is true of a port from some move on -/

/-- What never comes again after `P`, and always leads to `P`, ends. -/
theorem eventually_not {P Q : Nat → Prop} (hPQ : ∀ m, P m → ¬ Q m) (hkeep : ∀ m, n ≤ m → P m → P (m + 1))
    (hend : ∀ m, n ≤ m → Q m → ∃ k, m ≤ k ∧ P k) : ∀ᶠ m in atTop, ¬ Q m := by
  by_cases h : ∃ m, n ≤ m ∧ Q m
  · obtain ⟨m, hm, hQ⟩ := h
    obtain ⟨k, hk, hP⟩ := hend m hm hQ
    refine eventually_atTop.2 ⟨k, fun j hj => hPQ j ?_⟩
    induction j, hj using Nat.le_induction with
    | base => exact hP
    | succ j hj ih => exact hkeep j (by omega) ih
  · exact eventually_atTop.2 ⟨n, fun m hm hQ => h ⟨m, hm, hQ⟩⟩

theorem Schedule.Steady.eventually_all_ports (h : σ.Steady s n) {R : Nat → InFlight → Prop}
    (hall : ∀ q, ∀ᶠ m in atTop, ¬ ∃ d, (σ.stateAt s m).busyWith q d ∧ R q d) :
    ∀ᶠ m in atTop, ∀ q d, (σ.stateAt s m).busyWith q d → ¬ R q d := by
  have hports := (eventually_all_finite (Set.finite_lt_nat s.ports.length)).2 fun q _ => hall q
  refine hports.mono fun m hm q d hbusy hR => hm q ?_ ⟨d, hbusy, hR⟩
  obtain ⟨port, hport, -⟩ := hbusy
  have hlt := (List.getElem?_eq_some_iff.1 hport).1
  rwa [Schedule.stateAt_ports_length h.start] at hlt

theorem Schedule.Answers.idle (h : σ.Answers s p n c) : ∃ k, n ≤ k ∧ ∀ d, ¬ (σ.stateAt s k).busyWith p d := by
  obtain ⟨m, hm, -, hdelivers⟩ := h
  exact ⟨m + 1, by omega, hdelivers.idle⟩

/-- Again and again a stuck command waits, at a moment as late as may be asked. -/
theorem Schedule.Steady.waits_of_stuck (h : σ.Steady s n) (hstuck : σ.Stuck s p c) {P : Nat → Prop}
    (hP : ∀ᶠ m in atTop, P m) :
    ∃ m, n ≤ m ∧ P m ∧ (σ.stateAt s m).busyWith p c ∧ Waits (σ.stateAt s m) p c := by
  obtain ⟨m, hblocked, ⟨hbusy, hm⟩, hPm⟩ :=
    (hstuck.blocked.and_eventually ((hstuck.stays.and (eventually_ge_atTop n)).and hP)).exists
  obtain ⟨c', s', hblocked⟩ := not_microEnabled hbusy hblocked
  exact ⟨m, hm, hPm, hbusy, waits_of_blocked ((h.inv m).onTrack hbusy) hblocked⟩

end Sys2Proof.Machine
end

section
/-! No command is stuck for ever, so each is answered (R90, R96, R330). -/

namespace Sys2Proof.Machine

open Filter
variable {p q f k m n : Nat} {c c' d : InFlight} {s s' t : State} {b : Bank} {i : Instr} {σ : Schedule}

theorem acceptedCommand_request (s : State) (packet : List Byte) : (acceptedCommand s packet).request = packet := by
  obtain h | ⟨e, h⟩ := acceptedCommand_cases s packet <;> rw [h] <;> rfl

theorem acceptedCommand_admitted (s : State) (packet : List Byte) : (acceptedCommand s packet).admitted = false := by
  obtain h | ⟨e, h⟩ := acceptedCommand_cases s packet <;> rw [h] <;> rfl

theorem acceptedCommand_hasRole (s : State) (packet : List Byte) (f : Nat) :
    (acceptedCommand s packet).HasRole f .none := by
  obtain h | ⟨e, h⟩ := acceptedCommand_cases s packet <;> rw [h]
  · exact .of_unadmitted rfl
  · exact .of_unguarded rfl .here

theorem roleMove_of_moved (hc : c.onTrack s) (h : advance p c s = .moved c' s') : RoleMove p c s c' s' := by
  obtain ⟨⟨rest, htodo⟩, hadmit⟩ | ⟨m, rest, htakes⟩ := advance_moved_cases h
  · exact hadmit.roleMove (hc.todo_of_admitStep htodo)
  · obtain ⟨-, i, -, -, hstage⟩ := htakes.stage hc
    exact htakes.roleMove hstage

theorem bank?_of_acquires (hs : s.Inv) (hbusy : s.busyWith p c) (h : c.acquires f) : ∃ b, s.bank? f = some b := by
  have hlegal := (hs.registers.legal hbusy).1
  exact bank?_of_lt (h.elim (fun h => hlegal _ (List.mem_of_mem_head? h)) fun h => hlegal _ (List.mem_of_mem_head? h))

theorem bank?_of_holds (hs : s.Inv) (hbusy : s.busyWith p c) (h : c.holds f) : ∃ b, s.bank? f = some b :=
  bank?_of_lt ((hs.registers.legal hbusy).1 _ h.1)

theorem bank?_of_configures (hs : s.Inv) (hbusy : s.busyWith p c) (h : c.configures f) : ∃ b, s.bank? f = some b := by
  obtain ⟨capacity, k, conc, hm⟩ := h
  obtain ⟨hlt, -⟩ := (hs.registers.legal hbusy).1 _ hm
  exact bank?_of_lt hlt

/-- The waiting set holds exactly the ports at their acquisition (R90). -/
theorem waitsFor_iff (hs : s.Inv) : s.waitsFor p f ↔ ∃ c, s.busyWith p c ∧ c.acquires f := by
  constructor
  · rintro ⟨b, hb, hmem⟩
    obtain ⟨-, hwait, -⟩ := hs.locks.2 f b hb
    exact (hwait p).1 hmem
  · rintro ⟨c, hbusy, h⟩
    obtain ⟨b, hb⟩ := bank?_of_acquires hs hbusy h
    obtain ⟨-, hwait, -⟩ := hs.locks.2 f b hb
    exact ⟨b, hb, (hwait p).2 ⟨c, hbusy, h⟩⟩

theorem InFlight.acquires.mem_todo (h : c.acquires f) : .acquireExcl f ∈ c.todo ∨ .acquireShared f ∈ c.todo :=
  h.imp List.mem_of_mem_head? List.mem_of_mem_head?

/-- A command that waits for a lock is not before its admission. -/
theorem InFlight.acquires.ne_admitStep (h : c.acquires f) : c.todo ≠ [.admitStep] := by
  intro htodo
  simp [InFlight.acquires, htodo] at h

theorem InFlight.configures.ne_admitStep (h : c.configures f) : c.todo ≠ [.admitStep] := by
  rintro htodo
  simp [InFlight.configures, htodo] at h

theorem acquire_mem_program {params : Params}
    (hm : .acquireExcl f ∈ program params b i ∨ .acquireShared f ∈ program params b i) : f = bankOf i.fid := by
  obtain hm | hm := hm <;> simpa [Micro.plain] using (mem_program hm).kind

theorem InFlight.acquires.unique {f' : Nat} (h : c.acquires f) (h' : c.acquires f') : f = f' := by
  obtain h | h := h <;> obtain h' | h' := h' <;> cases h.symm.trans h' <;> rfl

/-- A CONFIG acquires no lock (R86). -/
theorem InFlight.onTrack.not_configures_of_acquires {f' : Nat} (hc : c.onTrack s) (h : c.acquires f) :
    ¬ c.configures f' := by
  rintro ⟨capacity, k, conc, hm⟩
  obtain ⟨-, i, -, halong⟩ := hc.of_mem hm nofun nofun
  obtain ⟨-, rfl⟩ := configure_mem_program (halong.suffix.subset hm)
  obtain rfl := acquire_mem_program (h.mem_todo.imp (halong.suffix.subset ·) (halong.suffix.subset ·))
  obtain ⟨r, hrole⟩ := halong.stage.hasRole (bankOf i.fid)
  cases (hrole.acquires.1 h).symm.trans (hrole.configures.1 ⟨capacity, k, conc, hm⟩)

/-! ### Holders of a lock -/

/-- The holder of a lock is answered: what remains of its command is always enabled. -/
theorem Schedule.Steady.answers_of_holds (h : σ.Steady s n) (hm : n ≤ m) (hbusy : (σ.stateAt s m).busyWith q d)
    (hholds : d.holds f) : σ.Answers s q m d := by
  refine (h.answers_or_stuck hm hbusy).resolve_right ?_
  rintro ⟨d', hcont, hstuck⟩
  obtain ⟨k, -, -, hbusy', hwaits⟩ := h.waits_of_stuck hstuck (P := fun _ => True) (.of_forall fun _ => trivial)
  have htrack := (h.inv m).onTrack hbusy
  obtain ⟨hadm, i, -, halong⟩ := htrack.of_mem hholds.1 nofun nofun
  have hsub := hcont.todo (htrack.admitStep_not_mem hadm)
  obtain rfl := release_mem_program (halong.suffix.subset hholds.1)
  cases hwaits with
  | admission htodo => cases (hcont.admitted hadm).symm.trans (((h.inv k).onTrack hbusy').not_admitted htodo)
  | lock hacquires =>
    obtain ⟨-, hexcl, hshared⟩ := hholds
    have hmem := hacquires.mem_todo.imp (@hsub _) (@hsub _)
    obtain rfl := acquire_mem_program (hmem.imp (halong.suffix.subset ·) (halong.suffix.subset ·))
    exact hmem.elim hexcl hshared
  | interlock hconfigures =>
    obtain ⟨capacity, k, conc, hmem⟩ := hconfigures
    obtain ⟨-, rfl⟩ := configure_mem_program (halong.suffix.subset (hsub hmem))
    obtain ⟨r, hrole⟩ := halong.stage.hasRole (bankOf i.fid)
    cases (hrole.holds.1 hholds).symm.trans (hrole.configures.1 ⟨capacity, k, conc, hsub hmem⟩)

theorem GuardMove.acquires_of_holds {g g' : Guard} {r : Role} (h : GuardMove p g g' r .holds) (hr : r ≠ .holds) :
    r = .acquires := by
  cases h with
  | same => exact absurd rfl hr
  | acquireExcl | acquireShared => rfl

/-- A port comes to hold a lock only by a grant (R90). -/
theorem Schedule.Steady.not_holds_next (h : σ.Steady s n) (hm : n ≤ m) (hgrant : ¬ σ.grants s m q f)
    (hnot : ¬ ∃ d, (σ.stateAt s m).busyWith q d ∧ d.holds f) :
    ¬ ∃ d, (σ.stateAt s (m + 1)).busyWith q d ∧ d.holds f := by
  rintro ⟨d, hbusy, hholds⟩
  obtain ⟨t, cur, heffect, hnext⟩ := h.effect hm
  have hbusy_t := hbusy
  rw [hnext, State.busyWith_scheduled] at hbusy_t
  obtain hold | ⟨port, packet, -, -, -, -, rfl⟩ | ⟨c, s', hmove, hc, hadvance, rfl⟩ := heffect.busy_before hbusy_t
  · exact hnot ⟨d, hold, hholds⟩
  · cases (acceptedCommand_hasRole _ packet f).holds.1 hholds
  · obtain ⟨b', hb'⟩ := bank?_of_holds (h.inv (m + 1)) hbusy hholds
    rw [hnext] at hb'
    obtain ⟨b, r, r', -, hr, hr', hguard⟩ := (roleMove_of_moved ((h.inv m).onTrack hc) hadvance).bank f b' hb'
    have hacquires : c.acquires f := by
      rw [hr'.holds.1 hholds] at hguard
      exact hr.acquires.2 (hguard.acquires_of_holds fun hr₀ => hnot ⟨c, hc, hr.holds.2 hr₀⟩)
    refine hgrant ⟨hmove, (waitsFor_iff (h.inv m)).2 ⟨c, hc, hacquires⟩, fun hwaits => ?_⟩
    obtain ⟨d', hd', hacquires'⟩ := (waitsFor_iff (h.inv (m + 1))).1 hwaits
    cases State.busyWith_unique hd' hbusy
    cases (hr'.holds.1 hholds).symm.trans (hr'.acquires.1 hacquires')

/-- No port waits for a lock for ever: were its lock granted no more, its holders would be answered and it would find
the lock free. -/
theorem Schedule.Steady.not_stuck_acquires (h : σ.Steady s n) (hstuck : σ.Stuck s p c) : ¬ c.acquires f := by
  intro hacquires
  obtain ⟨N, hN⟩ := eventually_atTop.1 hstuck.stays
  have hwaits : ∀ m, N ≤ m → (σ.stateAt s m).waitsFor p f := fun m hm =>
    (waitsFor_iff (h.inv m)).2 ⟨c, hN m hm, hacquires⟩
  obtain ⟨M, hM⟩ := (h.fair.2.2 p f N (hwaits N le_rfl)).resolve_left fun ⟨m, hm, hnot⟩ => hnot (hwaits m hm)
  have hholders : ∀ᶠ m in atTop, ∀ q d, (σ.stateAt s m).busyWith q d → ¬ d.holds f :=
    h.eventually_all_ports (R := fun _ d => d.holds f) fun q =>
      eventually_not (n := max n M) (P := fun m => ¬ ∃ d, (σ.stateAt s m).busyWith q d ∧ d.holds f) (fun _ hP => hP)
        (fun m hm hP => h.not_holds_next (by omega) (hM m q (by omega)) hP)
        (fun m hm ⟨d, hd, hholds⟩ => by
          obtain ⟨k, hk, hidle⟩ := (h.answers_of_holds (by omega) hd hholds).idle
          exact ⟨k, hk, fun ⟨d, hd, _⟩ => hidle d hd⟩)
  obtain ⟨m, -, hfree, hbusy, hwaiting⟩ := h.waits_of_stuck hstuck hholders
  cases hwaiting with
  | admission htodo => exact hacquires.ne_admitStep htodo
  | interlock hconfigures => exact ((h.inv m).onTrack hbusy).not_configures_of_acquires hacquires hconfigures
  | lock hacquires' hb hheld =>
    cases hacquires.unique hacquires'
    obtain ⟨q, d, hd, hholds⟩ := exists_holder_of_held (h.inv m).locks hb hheld
    exact hfree q d hd hholds

/-! ### CONFIG -/

/-- Where a CONFIG is pending no command that names its bank is admitted (R255). -/
theorem Schedule.Steady.not_names_next (h : σ.Steady s n) (hm : n ≤ m) (hpend : (σ.stateAt s m).configPending f = true)
    (hnot : ¬ ∃ d, (σ.stateAt s m).busyWith q d ∧ d.admitted = true ∧ d.names f = true) :
    ¬ ∃ d, (σ.stateAt s (m + 1)).busyWith q d ∧ d.admitted = true ∧ d.names f = true := by
  rintro ⟨d, hbusy, hadm, hnames⟩
  obtain ⟨t, cur, heffect, hnext⟩ := h.effect hm
  rw [hnext, State.busyWith_scheduled] at hbusy
  obtain hold | ⟨port, packet, -, -, -, -, rfl⟩ | ⟨c, s', hmove, hc, hadvance, rfl⟩ := heffect.busy_before hbusy
  · exact hnot ⟨d, hold, hadm, hnames⟩
  · cases (acceptedCommand_admitted _ packet).symm.trans hadm
  · have hnames' : c.names f = true := by rw [← (InFlight.continues_of_moved hadvance).names]; exact hnames
    obtain ⟨-, hadmit⟩ | ⟨m', rest, htakes⟩ := advance_moved_cases hadvance
    · obtain ⟨i, hi, hf⟩ := InFlight.names_iff.1 hnames'
      have hfree : (namedBanks i).any (σ.stateAt s m).configPending = false := by
        cases hadmit with
        | undecodable e he => cases hi.symm.trans he
        | rejected i' e hi' hfree | admitted i' hi' hfree => cases hi.symm.trans hi'; exact hfree
      exact List.any_eq_false.1 hfree f hf hpend
    · exact hnot ⟨c, hc, htakes.command.admitted.symm.trans hadm, hnames'⟩

/-- An admitted command that is not answered ends up at CONFIG's atomic step. -/
theorem Schedule.Steady.answers_or_stuck_configures (h : σ.Steady s n) (hm : n ≤ m)
    (hbusy : (σ.stateAt s m).busyWith q d) (hadm : d.admitted = true) :
    σ.Answers s q m d ∨ ∃ d' f, d.Continues d' ∧ σ.Stuck s q d' ∧ d'.configures f := by
  refine (h.answers_or_stuck hm hbusy).imp_right fun ⟨d', hcont, hstuck⟩ => ?_
  obtain ⟨k, -, -, hbusy', hwaits⟩ := h.waits_of_stuck hstuck (P := fun _ => True) (.of_forall fun _ => trivial)
  cases hwaits with
  | admission htodo => cases (hcont.admitted hadm).symm.trans (((h.inv k).onTrack hbusy').not_admitted htodo)
  | lock hacquires => exact absurd hacquires (h.not_stuck_acquires hstuck)
  | interlock hconfigures => exact ⟨d', _, hcont, hstuck, hconfigures⟩

/-- No CONFIG waits for its atomic step for ever: while it is pending no command that names its bank is admitted, and
the ones admitted before are answered. -/
theorem Schedule.Steady.not_stuck_configures (h : σ.Steady s n) (hstuck : σ.Stuck s p c) : ¬ c.configures f := by
  intro hconfigures
  obtain ⟨N, hN⟩ := eventually_atTop.1 hstuck.stays
  have hpend : ∀ m, N ≤ m → (σ.stateAt s m).configPending f = true := fun m hm => by
    obtain ⟨b, hb⟩ := bank?_of_configures (h.inv m) (hN m hm) hconfigures
    obtain ⟨-, -, hbit, -⟩ := (h.inv m).locks.2 f b hb
    rw [configPending_of_bank hb]
    exact hbit.2 ⟨p, c, hN m hm, hconfigures⟩
  have hothers : ∀ᶠ m in atTop, ∀ q d, (σ.stateAt s m).busyWith q d →
      ¬ (q ≠ p ∧ d.admitted = true ∧ d.names f = true) :=
    h.eventually_all_ports (R := fun q d => q ≠ p ∧ d.admitted = true ∧ d.names f = true) fun q =>
      eventually_not (n := max n N)
        (P := fun m => ¬ ∃ d, (σ.stateAt s m).busyWith q d ∧ d.admitted = true ∧ d.names f = true)
        (fun m hP ⟨d, hd, _, hadm, hnames⟩ => hP ⟨d, hd, hadm, hnames⟩)
        (fun m hm hP => h.not_names_next (by omega) (hpend m (by omega)) hP)
        (fun m hm ⟨d, hd, hq, hadm, hnames⟩ => by
          obtain hans | ⟨d', f', hcont, hstuck', hconfigures'⟩ := h.answers_or_stuck_configures (by omega) hd hadm
          · obtain ⟨k, hk, hidle⟩ := hans.idle
            exact ⟨k, hk, fun ⟨d, hd, _⟩ => hidle d hd⟩
          · obtain ⟨k, hkd, hkp⟩ := (hstuck'.stays.and hstuck.stays).exists
            obtain ⟨b, hb⟩ := bank?_of_configures (h.inv k) hkp hconfigures
            have hnames' := not_names_of_configures (h.inv k).locks hkp hkd hq hb hconfigures hconfigures'
            rw [hcont.names, hnames] at hnames'
            cases hnames')
  obtain ⟨m, -, hfree, hbusy, hwaiting⟩ := h.waits_of_stuck hstuck hothers
  cases hwaiting with
  | admission htodo => exact hconfigures.ne_admitStep htodo
  | lock hacquires => exact h.not_stuck_acquires hstuck hacquires
  | interlock hconfigures' hb hblocked =>
    obtain ⟨-, i, hi, -, rfl⟩ := ((h.inv m).onTrack hbusy).of_configures hconfigures
    obtain ⟨-, i', hi', -, rfl⟩ := ((h.inv m).onTrack hbusy).of_configures hconfigures'
    cases hi.symm.trans hi'
    obtain ⟨q, d, hq, hd, hadm, hnames⟩ := exists_of_othersName hblocked
    exact hfree q d hd ⟨hq, hadm, hnames⟩

/-- Every admitted command is answered. -/
theorem Schedule.Steady.answers_of_admitted (h : σ.Steady s n) (hm : n ≤ m) (hbusy : (σ.stateAt s m).busyWith q d)
    (hadm : d.admitted = true) : σ.Answers s q m d :=
  (h.answers_or_stuck_configures hm hbusy hadm).resolve_right fun ⟨_, _, _, hstuck, hconfigures⟩ =>
    h.not_stuck_configures hstuck hconfigures

/-! ### Admission -/

/-- The command is no CONFIG. -/
def InFlight.notConfig (c : InFlight) : Prop := ∀ i, decode c.request = .ok i → i.opcode ≠ .config

/-- From some move on no port is at CONFIG's atomic step, where CONFIGs end. -/
theorem Schedule.Steady.eventually_not_configures (h : σ.Steady s n) (hend : σ.configsEnd s) :
    ∀ᶠ m in atTop, ∀ q d, (σ.stateAt s m).busyWith q d → ¬ ∃ f, d.configures f := by
  obtain ⟨N, hN⟩ := hend
  refine h.eventually_all_ports (R := fun _ d => ∃ f, d.configures f) fun q => ?_
  refine eventually_not (n := max n N) (P := fun m => ∀ d, (σ.stateAt s m).busyWith q d → d.notConfig) ?_ ?_ ?_
  · rintro m hP ⟨d, hd, f, hconfigures⟩
    obtain ⟨-, i, hi, hop, -⟩ := ((h.inv m).onTrack hd).of_configures hconfigures
    exact hP d hd i hi hop
  · intro m hm hP d hd
    obtain ⟨t, cur, heffect, hnext⟩ := h.effect (m := m) (by omega)
    rw [hnext, State.busyWith_scheduled] at hd
    obtain hold | ⟨port, packet, hmove, hport, hidle, hhead, rfl⟩ | ⟨c, s', -, hc, hadvance, rfl⟩ :=
      heffect.busy_before hd
    · exact hP d hold
    · intro i hi
      rw [acceptedCommand_request] at hi
      exact hN m q port packet i (by omega) hmove hport hidle hhead hi
    · intro i hi
      rw [(InFlight.continues_of_moved hadvance).request] at hi
      exact hP c hc i hi
  · rintro m hm ⟨d, hd, f, hconfigures⟩
    obtain ⟨hadm, -⟩ := ((h.inv m).onTrack hd).of_configures hconfigures
    obtain ⟨k, hk, hidle⟩ := (h.answers_of_admitted (by omega) hd hadm).idle
    exact ⟨k, hk, fun d hd => absurd hd (hidle d)⟩

/-- Settles O58: what is not answered is stuck at an acquisition, at CONFIG's atomic step or at its admission, and none
of them is for ever. -/
theorem fairSchedulesAnswer : Obligations.FairSchedulesAnswer := by
  intro s σ p n c hregisters hguard hlocks hfair hend hbusy hreset
  have h : σ.Steady s n := ⟨⟨hregisters, hguard, hlocks⟩, hfair, hreset⟩
  suffices hans : σ.Answers s p n c by
    obtain ⟨m, hm, huntil, port, r, hport, hanswer⟩ := hans
    exact ⟨m, port, r, hm, huntil, hport, hanswer⟩
  refine (h.answers_or_stuck le_rfl hbusy).resolve_right ?_
  rintro ⟨c', -, hstuck⟩
  obtain ⟨m, -, hnone, -, hwaits⟩ := h.waits_of_stuck hstuck (h.eventually_not_configures hend)
  cases hwaits with
  | lock hacquires => exact h.not_stuck_acquires hstuck hacquires
  | interlock hconfigures => exact h.not_stuck_configures hstuck hconfigures
  | admission _ _ _ hpend =>
    obtain ⟨b, hb, hbit⟩ := bank_of_configPending hpend
    obtain ⟨-, -, hpending, -⟩ := (h.inv m).locks.2 _ b hb
    obtain ⟨q, d, hd, hconfigures⟩ := hpending.1 hbit
    exact hnone q d hd ⟨_, hconfigures⟩

end Sys2Proof.Machine
end

section
/-! Where a probe position lies (R71, R72), SetBit and the read-only commands (R82), and a lost SetBit (R89). -/

namespace Sys2Proof.Machine

variable {p q f k n : Nat} {c c' d : InFlight} {s s' t : State} {b : Bank} {i : Instr} {m : Micro}
  {rest : List Micro} {agenda : List Move} {h : HashQuad}

/-! ### Slots and offsets -/

theorem offsetOf_eq_mod (position : Word64) : offsetOf position = position.toNat % 8 := by
  rw [offsetOf, BitVec.toNat_and]
  exact Nat.and_two_pow_sub_one_eq_mod position.toNat 3

/-- In a bank with legal registers the slot is position bits 3 to 2 + LOG2LEN (R72). -/
theorem slotOf_eq_mod {L : Nat} (hb : b.legal L) (position : Word64) :
    slotOf b.bitlen position = position.toNat / 8 % 2 ^ b.log2len.toNat := by
  have hpow := bitlen_toNat hb
  have hmask : (b.bitlen - 1#64).toNat = 2 ^ b.log2len.toNat - 1 := by
    rw [BitVec.toNat_sub_of_le (by rw [BitVec.le_def, hpow]; exact Nat.two_pow_pos _), hpow]
    rfl
  rw [slotOf, BitVec.toNat_and, hmask, Nat.and_two_pow_sub_one_eq_mod, BitVec.toNat_ushiftRight, Nat.shiftRight_eq_div_pow]

/-- Settles O11: slot and offset are quotient and remainder by 8 of the position, modulo the bits of the bank. -/
theorem locatedBit : Obligations.LocatedBit := by
  intro L b position hb
  have hbits : 8 * b.bitlen.toNat = 8 * 2 ^ b.log2len.toNat := by rw [bitlen_toNat hb]
  have hwidth : 2 ^ (3 + b.log2len.toNat) = 8 * 2 ^ b.log2len.toNat := by rw [pow_add]; rfl
  refine ⟨?_, ?_, fun hone => ?_, fun position' hsame => ?_, offsetOf_eq_mod position, slotOf_eq_mod hb position⟩
  · rw [slotOf_eq_mod hb, offsetOf_eq_mod, hbits, Nat.mod_mul, Nat.add_comm]
  · rw [bitlen_toNat hb]
    exact slotOf_lt_bitlen hb position
  · have hlt := slotOf_lt_bitlen hb position
    rw [← bitlen_toNat hb] at hlt
    exact Nat.lt_one_iff.1 (hlt.trans_eq (by rw [hone]; rfl))
  · rw [hwidth] at hsame
    simp only [slotOf_eq_mod hb, offsetOf_eq_mod, ← Nat.mod_mul_right_div_self, hsame, true_and]
    rw [← Nat.mod_mul_right_mod position'.toNat 8 (2 ^ b.log2len.toNat), hsame, Nat.mod_mul_right_mod]

/-! ### SetBit -/

theorem getLsbD_bitMask (position : Word64) (o : Nat) :
    (bitMask (offsetOf position)).getLsbD o = decide (o = offsetOf position) := by
  have hlt : offsetOf position < 8 := by rw [offsetOf_eq_mod]; exact Nat.mod_lt _ (by decide)
  rw [bitMask, BitVec.getLsbD_shiftLeft, Bool.eq_iff_iff]
  simp
  omega

/-- A SetBit of a position that is set stores what is there (R82). -/
theorem Bank.setBit_setBit (position : Word64) (hwf : Memory.wf b.storage) :
    (b.setBit position).setBit position = b.setBit position := by
  have hwf' := Memory.wf_write hwf (slotOf b.bitlen position)
    (Memory.read b.storage (slotOf b.bitlen position) ||| bitMask (offsetOf position))
  simp only [Bank.setBit, Bank.mk.injEq, true_and, and_true]
  refine Memory.ext (Memory.wf_write hwf' _ _) hwf' fun j => ?_
  by_cases hj : slotOf b.bitlen position = j
  · subst hj
    rw [Memory.read_write_eq hwf'.1, Memory.read_write_eq hwf.1, BitVec.or_assoc, BitVec.or_self]
  · rw [Memory.read_write_ne _ hj]

/-! ### Read-only commands -/

/-- CAP on a bank that it can read at once (R230). -/
theorem drive_capProgram {req : List Byte} (hb : s.bank? f = some b) (hopen : b.conc = true → b.guard.openShared p) :
    drive (shared b f [] (.const b.bitlen)).length p ⟨req, true, Latch.start, shared b f [] (.const b.bitlen)⟩
        (s.reachLock p f b.conc) =
      .done (s.deliver p (Response.success b.bitlen)) :=
  drive_shared hb hopen fun g m rest t _ ht => by simpa using ht

/-- A read-only command on a bank that it can read at once completes with a RESULT that the parameters and the bank
give (R82). -/
theorem exec_of_isReading (hi : isReading i = true) (params : Params) (b : Bank) :
    ∃ r, ∀ s : State, s.params = params → s.readyToRead (bankOf i.fid) b →
      exec i s = .next (s.deliver s.cur (Response.success r)) := by
  have hmerge : i.opcode ≠ .merge := fun h => by simp [isReading, h] at hi
  have hconfig : i.opcode ≠ .config := fun h => by simp [isReading, h] at hi
  suffices hdrive : ∃ r, ∀ s : State, s.params = params → s.readyToRead (bankOf i.fid) b →
      drive (program s.params b i).length s.cur ⟨encode i, true, Latch.start, program s.params b i⟩
        (s.reachLock s.cur (bankOf i.fid) b.conc) = .done (s.deliver s.cur (Response.success r)) by
    obtain ⟨r, hr⟩ := hdrive
    refine ⟨r, fun s hparams hready => ?_⟩
    rw [exec_eq_runCommand]
    exact exec_of_program hmerge hconfig hready.1 hready.2.1 (hr s hparams hready)
  have htest : ∀ key f, ∃ r, ∀ s : State, s.params = params → s.readyToRead f b →
      drive (testOneProgram s.params b f key).length s.cur
        ⟨encode i, true, Latch.start, testOneProgram s.params b f key⟩ (s.reachLock s.cur f b.conc) =
        .done (s.deliver s.cur (Response.success r)) := fun key f =>
    ⟨testResult params b key, fun s hparams ⟨_, hbank, hopen⟩ => hparams ▸ drive_testOneProgram key hbank hopen⟩
  cases i with
  | test | testStr | testU16 | testU32 | testU64 => exact htest _ _
  | cap => exact ⟨b.bitlen, fun s _ ⟨_, hbank, hopen⟩ => drive_capProgram hbank.1 hopen⟩
  | size => exact ⟨_, fun s _ ⟨_, hbank, hopen⟩ => drive_countProgram .count hbank.1 hopen⟩
  | fpr => exact ⟨_, fun s _ ⟨_, hbank, hopen⟩ => drive_countProgram (.estimate b.k b.bitlen) hbank.1 hopen⟩
  | _ => cases hi

theorem State.readyToRead.deliver (h : s.readyToRead f b) (r : Response) : (s.deliver s.cur r).readyToRead f b := by
  obtain ⟨⟨port, hport, -⟩, hbank, hopen⟩ := h
  exact ⟨⟨_, by rw [State.deliver_eq, State.port?_modifyPort, State.modifyPort_cur, if_pos rfl, hport]; rfl, rfl⟩,
    hbank, hopen⟩

/-- Settles O42: the byte that a second SetBit stores is the one it reads, and a read-only command's response leaves all
that its RESULT depends on. -/
theorem readsRepeat : Obligations.ReadsRepeat := by
  refine ⟨fun b position hwf => b.setBit_setBit position hwf, fun s i b hi hready => ?_⟩
  obtain ⟨r, hr⟩ := exec_of_isReading hi s.params b
  exact ⟨r, hr s rfl hready, rfl, hr _ rfl (hready.deliver _)⟩

/-! ### A command's end -/

theorem mem_dropTests {todo : List Micro} (hm : m ∈ todo) (hne : ∀ f h j, m ≠ .testRead f h j) : m ∈ dropTests todo := by
  induction todo with
  | nil => cases hm
  | cons x todo ih =>
    cases x with
    | testRead f h j => exact ih ((List.mem_cons.1 hm).resolve_left (hne f h j))
    | _ => exact hm

/-- A micro-step after admission is one of the bank's, and keeps the response before it. -/
theorem takes_of_moved (hadmit : .admitStep ∉ c.todo) (h : advance p c s = .moved c' s') :
    ∃ m rest, Takes p c s m rest c' s' := by
  obtain ⟨⟨rest, htodo⟩, -⟩ | htakes := advance_moved_cases h
  · exact absurd (htodo ▸ List.mem_cons_self) hadmit
  · exact htakes

theorem Takes.respond_mem {e : Status} {a : Answer} (h : Takes p c s m rest c' s') (hm : .respond e a ∈ c.todo) :
    .respond e a ∈ c'.todo := by
  obtain ⟨_, -, henabled, -⟩ := h.bank
  have hrest : .respond e a ∈ rest := by
    rw [h.todo] at hm
    obtain rfl | hm := List.mem_cons.1 hm
    · exact henabled.elim
    · exact hm
  obtain hc | ⟨-, hc⟩ := h.command.todo <;> rw [hc]
  · exact hrest
  · exact mem_dropTests hrest nofun

/-- As many micro-steps as remain, or more, do not leave a command that has its response before it going on. -/
theorem drive_ne_moved {e : Status} {a : Answer} (hadmit : .admitStep ∉ c.todo) (hm : .respond e a ∈ c.todo)
    (hn : c.todo.length ≤ n) : drive n p c s ≠ .moved c' s' := by
  induction n generalizing c s with
  | zero => simp [List.length_eq_zero_iff.1 (Nat.le_zero.1 hn)] at hm
  | succ n ih =>
    simp only [drive]
    cases ha : advance p c s with
    | blocked | done | fault => exact nofun
    | moved d t =>
      obtain ⟨m, rest, htakes⟩ := takes_of_moved hadmit ha
      exact ih (fun hd => hadmit (htakes.todo_subset hd)) (htakes.respond_mem hm)
        (Nat.le_of_lt_succ (htakes.length_lt.trans_le hn))

/-- Settles O45: a micro-step after admission leaves a proper suffix of what remained, its response included. -/
theorem commandsAreFinite : Obligations.CommandsAreFinite := by
  refine fun p c s hadmit => ⟨fun c' s' h => ?_, fun e a hlast c' s' => ?_⟩
  · obtain ⟨m, rest, htakes⟩ := takes_of_moved hadmit h
    exact htakes.length_lt
  · exact drive_ne_moved hadmit (List.mem_of_getLast? hlast) le_rfl

/-! ### A race on one slot -/

/-- Port `p` took a micro-step on bank `f`: its command became `c'`, the bank `b'`, and no other command moved. -/
structure BankStep (p f : Nat) (s : State) (c' : InFlight) (b' : Bank) (t : State) : Prop where
  params : t.params = s.params
  bank : t.bank? f = some b'
  own : t.busyWith p c'
  others : ∀ q d, q ≠ p → (t.busyWith q d ↔ s.busyWith q d)

/-- A micro-step of a port at its turn; the fields of the schedule stand outside the states. -/
theorem step_of_moved (hbusy : s.busyWith p c) (h : advance p c s = .moved c' s') (hparams : s'.params = s.params)
    (hb : s'.bank? f = some b) :
    ∃ t, step (s.scheduled k (.micro p :: agenda)) = .next (t.scheduled p agenda) ∧ BankStep p f s c' b t := by
  refine ⟨s'.park p c', ?_, hparams, hb, State.busyWith_park_self (ports_of_moved h) hbusy,
    fun q d hq => State.busyWith_park_ne (ports_of_moved h) hq⟩
  rw [step_micro rfl, microMove_scheduled, microMove_of_busy hbusy, h]
  rfl

/-- The command after the first micro-step of SetBit read this byte (R77). -/
def InFlight.loaded (c : InFlight) (v : Byte) (rest : List Micro) : InFlight :=
  { c with latch := { c.latch with byte := v }, todo := rest }

theorem step_setRead {j : Nat} (hbusy : s.busyWith p c) (hb : s.bank? f = some b)
    (hl : b.legal s.params.log2MaxBytes) (htodo : c.todo = .setRead f h j :: rest) :
    ∃ t, step (s.scheduled k (.micro p :: agenda)) = .next (t.scheduled p agenda) ∧
      BankStep p f s (c.loaded (Memory.read b.storage (slotOf b.bitlen (probePosition h j))) rest) b t := by
  refine step_of_moved (s' := s) hbusy ?_ rfl hb
  have hj : slotOf b.bitlen (probePosition h j) < s.physicalBytes := slotOf_lt_physical hl _
  simp only [advance, htodo, stepSetRead, readProbe, hb, memRead_ok hb hj, InFlight.loaded]

/-- The bank after the second micro-step of SetBit of this position, where the first read `v` (R77). -/
def Bank.stored (b : Bank) (position : Word64) (v : Byte) : Bank :=
  { b with storage := Memory.write b.storage (slotOf b.bitlen position) (v ||| bitMask (offsetOf position)) }

theorem step_setWrite {j : Nat} (hbusy : s.busyWith p c) (hb : s.bank? f = some b)
    (hl : b.legal s.params.log2MaxBytes) (htodo : c.todo = .setWrite f h j :: rest) :
    ∃ t, step (s.scheduled k (.micro p :: agenda)) = .next (t.scheduled p agenda) ∧
      BankStep p f s { c with todo := rest } (b.stored (probePosition h j) c.latch.byte) t := by
  have hj : slotOf b.bitlen (probePosition h j) < s.physicalBytes := slotOf_lt_physical hl _
  refine step_of_moved (s' := s.modifyBank f fun _ => b.stored (probePosition h j) c.latch.byte) hbusy ?_
    (State.modifyBank_params ..) ((State.bank?_modifyBank_self ..).trans (by rw [hb]; rfl))
  simp only [advance, htodo, stepSetWrite, hb, memWrite_ok _ hb hj]
  rw [s.modifyBank_eq_const hb rfl]
  rfl

/-- A bit of the slot after a store there: the stored byte's, or the position's own (R77). -/
theorem Bank.bit_stored {position position' : Word64} {v : Byte} (hwf : Memory.wf b.storage)
    (hslot : slotOf b.bitlen position' = slotOf b.bitlen position) : (b.stored position v).bit position' =
      (v.getLsbD (offsetOf position') || decide (offsetOf position' = offsetOf position)) := by
  simp only [Bank.bit, Bank.stored, hslot, Memory.read_write_eq hwf.1, BitVec.getLsbD_or, getLsbD_bitMask]

/-- Settles O46: the second port stores the byte that it read before the first port stored, so without the first port's
bit. -/
theorem raceLosesABit : Obligations.RaceLosesABit := by
  intro s p q f i j h g b cp cq rp rq hpq hb hl _ hwf hp hq htp htq hslot hoffset hclear
  obtain ⟨s₁, hstep₁, hread₁⟩ := step_setRead (k := s.cur) (agenda := [.micro q, .micro p, .micro q]) hp hb hl htp
  obtain ⟨s₂, hstep₂, hread₂⟩ := step_setRead (k := p) (agenda := [.micro p, .micro q])
    ((hread₁.others q _ hpq.symm).2 hq) hread₁.bank (hread₁.params ▸ hl) htq
  rw [← hslot] at hread₂
  obtain ⟨s₃, hstep₃, hwrite₁⟩ := step_setWrite (k := q) (agenda := [.micro q]) ((hread₂.others p _ hpq).2 hread₁.own)
    hread₂.bank (by rw [hread₂.params, hread₁.params]; exact hl) rfl
  obtain ⟨s₄, hstep₄, hwrite₂⟩ := step_setWrite (k := p) (agenda := []) ((hwrite₁.others q _ hpq.symm).2 hread₂.own)
    hwrite₁.bank (by rw [hwrite₁.params, hread₂.params, hread₁.params]; exact hl) rfl
  have hwf₁ : Memory.wf (b.stored (probePosition h i)
      (Memory.read b.storage (slotOf b.bitlen (probePosition h i)))).storage := Memory.wf_write hwf _ _
  refine ⟨s₄.scheduled q [], _, ?_, hwrite₂.bank, ?_, ?_⟩
  · exact (run_succ hstep₁).trans ((run_succ hstep₂).trans ((run_succ hstep₃).trans (run_succ hstep₄)))
  · refine (Bank.bit_stored hwf₁ hslot).trans ?_
    rw [decide_eq_false hoffset, Bool.or_false]
    exact hclear
  · exact (Bank.bit_stored hwf₁ rfl).trans (by rw [decide_eq_true rfl, Bool.or_true])

end Sys2Proof.Machine
end

section
/-! Commands that wait at the guard of a bank with CONC 1 (R90, R86). -/

namespace Sys2Proof.Machine

variable {p f : Nat} {c : InFlight} {s : State} {b : Bank} {i : Instr} {rest : List Micro}

/-- An acquisition that finds the lock held, for a reading command exclusively, is not enabled (R90). -/
theorem advance_lockMicro_blocked (htodo : c.todo = lockMicro i :: rest) (hb : s.bank? (bankOf i.fid) = some b)
    (hheld : b.guard.writer ≠ none ∨ isReading i = false ∧ b.guard.readers ≠ []) : advance p c s = .blocked c s := by
  unfold lockMicro at htodo
  cases hi : isReading i with
  | true =>
    have hwriter : b.guard.writer ≠ none := hheld.resolve_right fun h => Bool.noConfusion (hi.symm.trans h.1)
    simp only [hi, if_true] at htodo
    simp only [advance, htodo, stepAcquire, hb, Guard.acquireShared, if_neg hwriter]
  | false =>
    have hclosed : ¬ (b.guard.writer = none ∧ b.guard.readers = []) := fun h =>
      hheld.elim (fun hw => hw h.1) fun hr => hr.2 h.2
    simp only [hi, Bool.false_eq_true, if_false] at htodo
    simp only [advance, htodo, stepAcquire, hb, Guard.acquireExcl, if_neg hclosed]

/-- A command whose next micro-step is not enabled stays in flight as it is. -/
theorem conclude_drive_of_blocked (h : advance p c s = .blocked c s) (n : Nat) :
    conclude p (drive n p c s) = .next (s.park p c) := by
  cases n with
  | zero => rfl
  | succ n => simp only [drive, h, conclude]

/-- A command that is admitted and whose first micro-step after that is not enabled (R86). -/
theorem runCommand_blocked (hidle : s.idleTurn) (hpacket : packetCheck s i = none)
    (hpend : (namedBanks i).any s.configPending = false) (hbank : bankCheck s i = none)
    (h : advance s.cur (InFlight.started s i) (s.afterAdmission s.cur i) =
      .blocked (InFlight.started s i) (s.afterAdmission s.cur i)) :
    runCommand i s = .next ((s.afterAdmission s.cur i).park s.cur (InFlight.started s i)) := by
  obtain ⟨port, hport, hin⟩ := hidle
  simp only [runCommand, hport, hin, hpacket, runAdmitted, admission, hpend, Bool.false_eq_true, if_false, hbank]
  exact conclude_drive_of_blocked h _

/-- A program on a bank with CONC 1 begins with its acquisition (R90). -/
theorem program_eq_lockMicro_cons (params : Params) (hi : i.opcode ≠ .config) (hconc : b.conc = true) :
    ∃ rest, program params b i = lockMicro i :: rest := by
  obtain ⟨body, answer, -, heq⟩ := program_eq_guarded params b hi
  exact ⟨_, by rw [heq, guarded, if_pos hconc]⟩

/-- The source of a MERGE into bank `b` passes the checks of R211, R213 and R255. -/
def State.sourceOf (s : State) (i : Instr) (b bs : Bank) : Prop :=
  s.bank? (bankOf i.sfid) = some bs ∧ bs.cfg = true ∧ bs.guard.configPending = false ∧
    b.bitlen = bs.bitlen ∧ b.k = bs.k ∧ bs.conc = false

theorem packetCheck_eq_none (hi : i.opcode ≠ .config) (hb : s.bank? (bankOf i.fid) = some b)
    (hmerge : i.opcode = .merge → ∃ bs, s.sourceOf i b bs) : packetCheck s i = none := by
  have hconfig : configCheck s i = none := by
    cases i with
    | config => exact absurd rfl hi
    | _ => rfl
  refine packetCheck_none_iff.2 ⟨bank?_lt hb, fun hm => ?_, hconfig⟩
  obtain ⟨bs, hbs, -⟩ := hmerge hm
  exact bank?_lt hbs

theorem namedBanks_not_pending (hb : s.bank? (bankOf i.fid) = some b) (hpend : b.guard.configPending = false)
    (hmerge : i.opcode = .merge → ∃ bs, s.sourceOf i b bs) : (namedBanks i).any s.configPending = false := by
  rw [List.any_eq_false]
  intro f hf
  obtain rfl | ⟨hm, rfl⟩ := mem_namedBanks_iff.1 hf
  · simp [configPending_of_bank hb, hpend]
  · obtain ⟨bs, hbs, -, hpend', -⟩ := hmerge hm
    simp [configPending_of_bank hbs, hpend']

theorem bankCheck_eq_none (hb : s.bank? (bankOf i.fid) = some b) (hcfg : b.cfg = true)
    (hmerge : i.opcode = .merge → ∃ bs, s.sourceOf i b bs) : bankCheck s i = none := by
  have hfid : configured s (bankOf i.fid) = true := by rw [configured_of_bank hb, hcfg]
  by_cases hm : i.opcode = .merge
  · obtain ⟨bs, hbs, hcfg', -, hbitlen, hk, hconc⟩ := hmerge hm
    have hsfid : configured s (bankOf i.sfid) = true := by rw [configured_of_bank hbs, hcfg']
    simp [bankCheck, hfid, hsfid, hm, hb, hbs, mergeCheck, hbitlen, hk, hconc]
  · exact bankCheck_none hm fun _ => hfid

/-- A command that finds the lock of its bank held is admitted, and stays at its acquisition (R90). -/
theorem exec_of_lock_held (hidle : s.idleTurn) (hi : i.opcode ≠ .config) (hb : s.bank? (bankOf i.fid) = some b)
    (hcfg : b.cfg = true) (hconc : b.conc = true) (hpend : b.guard.configPending = false)
    (hmerge : i.opcode = .merge → ∃ bs, s.sourceOf i b bs)
    (hheld : b.guard.writer ≠ none ∨ isReading i = false ∧ b.guard.readers ≠ []) :
    exec i s = .next ((s.modifyBank (bankOf i.fid) fun b => { b with guard := b.guard.wait s.cur }).park s.cur
      ⟨encode i, true, Latch.start, program s.params b i⟩) := by
  have hhome : homeBank s i = b := by simp [homeBank, hb]
  have hafter : s.afterAdmission s.cur i =
      s.modifyBank (bankOf i.fid) fun b => { b with guard := b.guard.wait s.cur } := by
    rw [State.afterAdmission, if_neg hi, hhome, hconc]; rfl
  have hstarted : InFlight.started s i = ⟨encode i, true, Latch.start, program s.params b i⟩ := by
    rw [InFlight.started, hhome]
  obtain ⟨rest, hprogram⟩ := program_eq_lockMicro_cons s.params hi hconc
  have hb' : (s.afterAdmission s.cur i).bank? (bankOf i.fid) = some { b with guard := b.guard.wait s.cur } := by
    rw [hafter, State.bank?_modifyBank_self, hb]; rfl
  rw [exec_eq_runCommand, ← hafter, ← hstarted]
  exact runCommand_blocked hidle (packetCheck_eq_none hi hb hmerge) (namedBanks_not_pending hb hpend hmerge)
    (bankCheck_eq_none hb hcfg hmerge)
    (advance_lockMicro_blocked (by rw [hstarted]; exact hprogram) hb' hheld)

theorem isReading_eq_false_of_writes (h : isInsertion i = true ∨ i.opcode = .reset ∨ i.opcode = .merge) :
    isReading i = false := by
  cases ho : i.opcode <;> simp [isInsertion, isReading, ho] at h ⊢

/-- Settles O30: the command's acquisition is not enabled, and its admission only adds the port to the waiting set. -/
theorem guardMakesWait : Obligations.GuardMakesWait := by
  intro s i b hidle hb hcfg hconc hpend hmerge hkind
  have hi : i.opcode ≠ .config := fun h => by simp [isInsertion, isReading, h] at hkind
  have hheld : b.guard.writer ≠ none ∨ isReading i = false ∧ b.guard.readers ≠ [] := by
    obtain ⟨hwriting, hw | hr⟩ | ⟨-, hw⟩ := hkind
    · exact .inl hw
    · exact .inr ⟨isReading_eq_false_of_writes hwriting, hr⟩
    · exact .inl hw
  have ⟨port, hport, _⟩ := hidle
  refine ⟨_, _, exec_of_lock_held hidle hi hb hcfg hconc hpend hmerge hheld, ?_, rfl,
    ⟨_, State.busyWith_park (by rw [State.port?_modifyBank]; exact hport) _, rfl, rfl⟩, fun g hg => ?_⟩
  · exact (State.bank?_modifyBank_self ..).trans (by rw [hb]; rfl)
  · exact (State.bank?_modifyBank ..).trans (if_neg hg.symm)

end Sys2Proof.Machine
end

section
/-! The opcode and the must-be-0 bits of a command word (R112 to R114, R124), and what they make of a packet handed to
an IDLE port. -/

namespace Sys2Proof

theorem Opcode.ofBits_eq_some_iff {b : BitVec 5} {op : Opcode} : Opcode.ofBits b = some op ↔ b = op.code :=
  ⟨fun h => (Opcode.code_of_ofBits h).symm, fun h => by rw [h, Opcode.ofBits_code]⟩

theorem Opcode.ofBits_eq_none_iff (b : BitVec 5) : Opcode.ofBits b = none ↔ b = 0x00#5 ∨ 0x15 ≤ b.toNat := by
  revert b; decide

/-! ### Selection (R114) -/

/-- The row's mask is its must-be-0 bits and the five bits of OP. -/
theorem Opcode.getLsbD_selectMask (op : Opcode) {j : Nat} (hj : j < 32) :
    op.selectMask.getLsbD j = (decide (j < 5) || op.reservedMask.getLsbD j) := by
  revert j; cases op <;> decide

theorem Opcode.getLsbD_reservedMask_of_lt (op : Opcode) {j : Nat} (hj : j < 5) :
    op.reservedMask.getLsbD j = false := by
  revert j; cases op <;> decide

/-- A command word matches the row of `op` exactly when its OP is `op` and no must-be-0 bit of `op` is set. -/
theorem and_selectMask_eq_code_iff (op : Opcode) (c : Word32) :
    c &&& op.selectMask = op.code.setWidth 32 ↔
      Opcode.ofBits (cmdOp c) = some op ∧ c &&& op.reservedMask = 0 := by
  have hcode : ∀ j, 5 ≤ j → op.code.getLsbD j = false := fun j hj => BitVec.getLsbD_of_ge _ _ hj
  have hmask : ∀ j < 5, op.reservedMask.getLsbD j = false := fun j hj => op.getLsbD_reservedMask_of_lt hj
  have hmatch : c &&& op.selectMask = op.code.setWidth 32 ↔
      ∀ j < 32, (c.getLsbD j && (decide (j < 5) || op.reservedMask.getLsbD j)) = op.code.getLsbD j := by
    rw [BitVec.eq_of_getLsbD_eq_iff]
    refine forall₂_congr fun j hj => ?_
    simp only [BitVec.getLsbD_and, op.getLsbD_selectMask hj, BitVec.getLsbD_setWidth, hj, decide_true,
      Bool.true_and]
  have hop : cmdOp c = op.code ↔ ∀ j < 5, c.getLsbD j = op.code.getLsbD j := by
    rw [BitVec.eq_of_getLsbD_eq_iff]
    refine forall₂_congr fun j hj => ?_
    simp [cmdOp, hj]
  have hres : c &&& op.reservedMask = 0 ↔ ∀ j < 32, (c.getLsbD j && op.reservedMask.getLsbD j) = false := by
    rw [BitVec.eq_of_getLsbD_eq_iff]
    refine forall₂_congr fun j hj => ?_
    simp
  rw [Opcode.ofBits_eq_some_iff, hmatch, hop, hres]
  refine ⟨fun h => ⟨fun j hj => ?_, fun j hj => ?_⟩, fun ⟨hop, hres⟩ j hj => ?_⟩
  · simpa [hj] using h j (by omega)
  · by_cases h5 : j < 5
    · simp [hmask j h5]
    · simpa [h5, hcode j (by omega)] using h j hj
  · by_cases h5 : j < 5
    · simp [h5, hop j h5]
    · simpa [h5, hcode j (by omega)] using hres j hj

/-! ### The decoder's answers (R273 steps 1 to 4) -/

section
variable {bs : List Byte} {op : Opcode}

theorem decode_of_no_opcode (h4 : 4 ≤ bs.length) (hop : Opcode.ofBits (cmdOp (commandWord bs)) = none) :
    decode bs = .error .illegalOpcode := by
  rw [decode, if_neg (by omega), hop]

theorem decode_of_reserved (h4 : 4 ≤ bs.length) (hop : Opcode.ofBits (cmdOp (commandWord bs)) = some op)
    (hres : commandWord bs &&& op.reservedMask ≠ 0) : decode bs = .error .reservedField := by
  rw [decode, if_neg (by omega), hop]
  exact if_pos hres

theorem decode_eq_ok_iff {i : Instr} : decode bs = .ok i ↔
    4 ≤ bs.length ∧ ∃ op, Opcode.ofBits (cmdOp (commandWord bs)) = some op ∧
      commandWord bs &&& op.reservedMask = 0 ∧ expectedLength op bs = some bs.length ∧ operands op bs = i := by
  by_cases h4 : bs.length < 4
  · simp [decode, h4]
  · cases hop : Opcode.ofBits (cmdOp (commandWord bs)) with
    | none => simp [decode_of_no_opcode (Nat.le_of_not_lt h4) hop]
    | some op =>
      by_cases hres : commandWord bs &&& op.reservedMask = 0
      · by_cases hlen : expectedLength op bs = some bs.length
        · simp [decode, h4, hop, hres, lengthOk, hlen, Nat.le_of_not_lt h4]
        · simp [decode, h4, hop, hres, lengthOk, hlen]
      · simp [decode_of_reserved (Nat.le_of_not_lt h4) hop hres,
          show ¬ commandWord bs &&& op.reservedMask = 0#32 from hres]

end

/-- Settles O3: each row's mask is the must-be-0 bits and OP, and a word with a legal OP that matches no row has a
must-be-0 bit set. -/
theorem selectionPatterns : Obligations.SelectionPatterns := by
  refine ⟨and_selectMask_eq_code_iff .config, and_selectMask_eq_code_iff .merge, fun op c hconfig hmerge => ?_,
    fun bs h4 hnone => ?_⟩
  · have hmask : op.selectMask = 0xFFFF00FF#32 := by
      cases op
      case config => exact absurd rfl hconfig
      case merge => exact absurd rfl hmerge
      all_goals rfl
    rw [← hmask]
    exact and_selectMask_eq_code_iff op c
  · cases hop : Opcode.ofBits (cmdOp (commandWord bs)) with
    | none => exact .inl (decode_of_no_opcode h4 hop)
    | some op =>
      exact .inr (decode_of_reserved h4 hop fun hres =>
        hnone op ((and_selectMask_eq_code_iff op _).2 ⟨hop, hres⟩))

end Sys2Proof

namespace Sys2Proof.Machine

/-- Settles O7: the decoder answers the error, and its response changes the current port only. -/
theorem illegalAndReservedRefused : Obligations.IllegalAndReservedRefused := by
  refine ⟨Opcode.ofBits_eq_none_iff, fun s bs _ h4 => ⟨fun hop => ?_, fun op hop hres => ?_⟩,
    fun s e => ⟨State.raise_banks .., fun q hq => ?_⟩⟩
  · rw [runPacket, decode_of_no_opcode h4 hop]
  · rw [runPacket, decode_of_reserved h4 hop hres]
  · exact (State.port?_modifyPort ..).trans (if_neg hq.symm)

end Sys2Proof.Machine
end

section
/-! Packets and commands correspond one to one (R112 to R123): a well-formed command is what its packet decodes to, a
packet that decodes is that of a well-formed command, and a stream shows a packet's length. -/

namespace Sys2Proof

/-! ### Fields of a packet that was written -/

/-- A field of `n` bytes reads as it was written (R110). -/
theorem fieldAt_append_leBytes (pre rest : List Byte) {n v : Nat} (hv : v < 256 ^ n) :
    fieldAt pre.length n (pre ++ (leBytes n v ++ rest)) = v := by
  rw [fieldAt, List.drop_left, List.take_left' (leBytes_length n v), leValue_leBytes, Nat.mod_eq_of_lt hv]

/-- What follows the packet does not change a field of it. -/
theorem fieldAt_append_left {off n : Nat} {bs : List Byte} (h : off + n ≤ bs.length) (tail : List Byte) :
    fieldAt off n (bs ++ tail) = fieldAt off n bs := by
  rw [fieldAt, fieldAt, List.drop_append_of_le_length (by omega), List.take_append_of_le_length (by simp; omega)]

theorem toNat_lt_pow {w n : Nat} (hw : 8 * n = w) (x : BitVec w) : x.toNat < 256 ^ n := by
  have := x.isLt
  subst hw
  rwa [Nat.pow_mul] at this

theorem length_encode (i : Instr) : (encode i).length = 4 + i.payload.length := by
  simp [encode]

section
variable {i : Instr} {n v : Nat} {rest : List Byte}

theorem fieldAt_encode (pre : List Byte) (hp : i.payload = pre ++ (leBytes n v ++ rest)) (hv : v < 256 ^ n) :
    fieldAt (4 + pre.length) n (encode i) = v := by
  rw [encode, hp, ← List.append_assoc,
    show 4 + pre.length = (commandBytes i.opcode i.concBit i.fid i.sfid ++ pre).length by simp]
  exact fieldAt_append_leBytes _ rest hv

theorem fieldAt_four_encode (hp : i.payload = leBytes n v ++ rest) (hv : v < 256 ^ n) :
    fieldAt 4 n (encode i) = v :=
  fieldAt_encode [] hp hv

/-- An integer operand reads as it was written (R115). -/
theorem ofNat_fieldAt_four_encode {w : Nat} {x : BitVec w} (hp : i.payload = leBytes n x.toNat ++ rest)
    (hw : 8 * n = w) : BitVec.ofNat w (fieldAt 4 n (encode i)) = x := by
  rw [fieldAt_four_encode hp (toNat_lt_pow hw x), BitVec.ofNat_toNat, BitVec.setWidth_eq]

theorem drop_eight_encode (hp : i.payload = leBytes 4 v ++ rest) : (encode i).drop 8 = rest := by
  rw [encode, hp, ← List.append_assoc]
  exact List.drop_left' (by simp)

end

/-! ### The command word of a packet -/

/-- A command sets only the fields that its opcode leaves free (R112). -/
theorem Instr.fieldsOk (i : Instr) : i.opcode.fieldsOk i.concBit i.sfid := by
  cases i <;> simp [Opcode.fieldsOk, Instr.opcode, Instr.concBit, Instr.sfid]

theorem commandWord_encode (i : Instr) : Laws.EncodedWord.Statement i :=
  commandWord_fields _ _ _ _ _ i.fieldsOk

theorem ofBits_commandWord_encode (i : Instr) :
    Opcode.ofBits (cmdOp (commandWord (encode i))) = some i.opcode :=
  Opcode.ofBits_eq_some_iff.2 (commandWord_encode i).1

theorem commandWord_append {bs : List Byte} (h4 : 4 ≤ bs.length) (tail : List Byte) :
    commandWord (bs ++ tail) = commandWord bs := by
  match bs, h4 with
  | _ :: _ :: _ :: _ :: _, _ => rfl

/-! ### Batches that were written -/

/-- The walk of R119 over the elements of a batch ends where they end. -/
theorem walkElements_flatMap_keyPayload (pre : List Byte) {keys : List (List Byte)}
    (hkeys : ∀ key ∈ keys, key.length < 2 ^ 32) :
    walkElements keys.length pre.length (pre ++ keys.flatMap keyPayload) =
      some (pre ++ keys.flatMap keyPayload).length := by
  induction keys generalizing pre with
  | nil => simp [walkElements]
  | cons key keys ih =>
    obtain ⟨hkey, hkeys⟩ := List.forall_mem_cons.1 hkeys
    have hfield : fieldAt pre.length 4 (pre ++ (key :: keys).flatMap keyPayload) = key.length := by
      rw [List.flatMap_cons, keyPayload, List.append_assoc]
      exact fieldAt_append_leBytes pre _ hkey
    have hih := ih (pre ++ keyPayload key) hkeys
    rw [List.append_assoc, ← List.flatMap_cons, List.length_append, keyPayload_length, ← Nat.add_assoc] at hih
    rw [List.length_cons, walkElements, hfield, hih, if_neg (by simp; omega)]

theorem takeKeys_flatMap_keyPayload {keys : List (List Byte)} (hkeys : ∀ key ∈ keys, key.length < 2 ^ 32) :
    takeKeys keys.length (keys.flatMap keyPayload) = keys := by
  induction keys with
  | nil => rfl
  | cons key keys ih =>
    obtain ⟨hkey, hkeys⟩ := List.forall_mem_cons.1 hkeys
    have hsplit : (key :: keys).flatMap keyPayload = leBytes 4 key.length ++ (key ++ keys.flatMap keyPayload) := by
      simp [keyPayload]
    have hfield : fieldAt 0 4 ((key :: keys).flatMap keyPayload) = key.length := by
      rw [hsplit]
      exact fieldAt_append_leBytes [] _ hkey
    rw [List.length_cons, takeKeys, hfield, ← List.drop_drop, hsplit, List.drop_left' (leBytes_length ..),
      List.take_left, List.drop_left, ih hkeys]

theorem takeWords_flatMap_leBytes {w : Nat} (hw : 8 * (w / 8) = w) (vs : List (BitVec w)) :
    takeWords w vs.length (vs.flatMap fun v => leBytes (w / 8) v.toNat) = vs := by
  induction vs with
  | nil => rfl
  | cons v vs ih =>
    rw [List.flatMap_cons, List.length_cons, takeWords, List.take_left' (leBytes_length ..),
      List.drop_left' (leBytes_length ..), ih, leValue_leBytes, Nat.mod_eq_of_lt (toNat_lt_pow hw v),
      BitVec.ofNat_toNat, BitVec.setWidth_eq]

/-! ### Lengths (R119, R123) -/

theorem Instr.wf_addb_iff {fid : FilterId} {keys : List (List Byte)} :
    (Instr.addb fid keys).wf = true ↔ keys.length < 2 ^ 32 ∧ ∀ key ∈ keys, key.length < 2 ^ 32 := by
  simp [Instr.wf, fitsU32]

/-- A command's packet has the length that R119 expects of it. -/
theorem expectedLength_encode {i : Instr} (h : i.wf = true) :
    expectedLength i.opcode (encode i) = some (encode i).length := by
  have hcounted : ∀ {v rest}, i.payload = leBytes 4 v ++ rest → ¬ (encode i).length < 8 := fun hp => by
    rw [length_encode, hp, List.length_append, leBytes_length]; omega
  cases i <;> simp only [Instr.opcode, expectedLength]
  case add fid key | addStr fid key | test fid key | testStr fid key =>
    have hlen : key.length < 256 ^ 4 := of_decide_eq_true h
    rw [if_neg (hcounted rfl), fieldAt_four_encode rfl hlen, length_encode]
    simp [Instr.payload, ← Nat.add_assoc]
  case addb fid keys =>
    obtain ⟨hlen, hkeys⟩ := Instr.wf_addb_iff.1 h
    rw [if_neg (hcounted rfl), fieldAt_four_encode rfl hlen, encode, Instr.payload, keysPayload, ← List.append_assoc]
    exact walkElements_flatMap_keyPayload (commandBytes _ _ _ _ ++ leBytes 4 keys.length) hkeys
  case addbU16 fid vs | addbU32 fid vs | addbU64 fid vs =>
    have hlen : vs.length < 256 ^ 4 := of_decide_eq_true h
    rw [if_neg (hcounted rfl), fieldAt_four_encode rfl hlen, length_encode, Instr.payload, length_wordsPayload,
      ← Nat.add_assoc]
  all_goals simp [length_encode, Instr.payload]

theorem streamElements_of_walkElements {n off e : Nat} {bs : List Byte} (h : walkElements n off bs = some e)
    (tail : List Byte) : streamElements n off (bs ++ tail) = e := by
  induction n generalizing off with
  | zero => exact Option.some.inj h
  | succ n ih =>
    rw [walkElements, Option.ite_none_left_eq_some] at h
    obtain ⟨hoff, h⟩ := h
    rw [streamElements, fieldAt_append_left (by omega)]
    exact ih h

/-- The length that R119 expects of a packet is the one that R123 reads from a stream that begins with it. -/
theorem streamLength_append {op : Opcode} {bs : List Byte} {n : Nat} (h4 : 4 ≤ bs.length)
    (hop : Opcode.ofBits (cmdOp (commandWord bs)) = some op) (h : expectedLength op bs = some n) (tail : List Byte) :
    streamLength (bs ++ tail) = n := by
  rw [streamLength, commandWord_append h4, hop]
  cases op <;> simp only [expectedLength, Option.some.injEq, Option.ite_none_left_eq_some] at h ⊢
  case add | addStr | test | testStr | addbU16 | addbU32 | addbU64 =>
    rw [fieldAt_append_left (by omega), h.2]
  case addb => rw [fieldAt_append_left (by omega), streamElements_of_walkElements h.2]
  all_goals exact h

/-- Settles O4: the packet has the length R119 expects, and R123 reads that length from the packet's own bytes. -/
theorem streamLengthOfPacket : Obligations.StreamLengthOfPacket := by
  intro i tail h
  have h4 : 4 ≤ (encode i).length := by rw [length_encode]; omega
  have hlen := expectedLength_encode h
  exact ⟨streamLength_append h4 (ofBits_commandWord_encode i) hlen tail, hlen⟩

/-! ### Decoding what was encoded -/

/-- The operands are read as they were written, whatever their format (R115, R116). -/
theorem operands_encode {i : Instr} (h : i.wf = true) : operands i.opcode (encode i) = i := by
  obtain ⟨-, hconc, hfid, hsfid, -⟩ := commandWord_encode i
  cases i <;> simp only [Instr.opcode, Instr.concBit, Instr.fid, Instr.sfid] at hconc hfid hsfid ⊢ <;>
    simp only [operands, hfid]
  case config fid conc capacity k =>
    have hk : fieldAt 12 4 (encode (.config fid conc capacity k)) = k.toNat :=
      fieldAt_encode (leBytes 8 capacity.toNat) (rest := []) (by simp [Instr.payload]) k.isLt
    rw [hconc, ofNat_fieldAt_four_encode rfl (by rfl), hk, BitVec.ofNat_toNat, BitVec.setWidth_eq]
  case add | addStr | test | testStr => rw [drop_eight_encode rfl]
  case addU16 | addU32 | addU64 | testU16 | testU32 | testU64 =>
    rw [ofNat_fieldAt_four_encode (List.append_nil _).symm (by rfl)]
  case addb fid keys =>
    obtain ⟨hlen, hkeys⟩ := Instr.wf_addb_iff.1 h
    rw [fieldAt_four_encode rfl hlen, drop_eight_encode rfl, takeKeys_flatMap_keyPayload hkeys]
  case addbU16 fid vs | addbU32 fid vs | addbU64 fid vs =>
    have hlen : vs.length < 256 ^ 4 := of_decide_eq_true h
    rw [fieldAt_four_encode rfl hlen, drop_eight_encode rfl, takeWords_flatMap_leBytes (by rfl)]
  case merge => rw [hsfid]

/-- Settles O1: the packet passes the decoder's checks, and its operands are read as they were written. -/
theorem decodeOfEncode : Obligations.DecodeOfEncode := by
  intro i h
  obtain ⟨-, -, -, -, hres⟩ := commandWord_encode i
  exact decode_eq_ok_iff.2 ⟨by rw [length_encode]; omega, i.opcode, ofBits_commandWord_encode i, hres,
    expectedLength_encode h, operands_encode h⟩

/-! ### Encoding what was decoded -/

theorem length_lt_of_mem_takeKeys {n : Nat} {bs key : List Byte} (h : key ∈ takeKeys n bs) : key.length < 2 ^ 32 := by
  induction n generalizing bs with
  | zero => cases h
  | succ n ih =>
    rw [takeKeys, List.mem_cons] at h
    obtain rfl | h := h
    · exact lt_of_le_of_lt (List.length_take_le ..) (fieldAt_lt 0 4 bs)
    · exact ih h

/-- Every length of a command that was read comes from a 32-bit field (R115). -/
theorem wf_operands {op : Opcode} {bs : List Byte} (h : expectedLength op bs = some bs.length) :
    (operands op bs).wf = true := by
  have hfield : fieldAt 4 4 bs < 2 ^ 32 := fieldAt_lt 4 4 bs
  cases op <;> simp only [expectedLength, Option.ite_none_left_eq_some, Option.some.injEq] at h <;>
    simp only [operands]
  case add | addStr | test | testStr => simp only [Instr.wf, fitsU32, List.length_drop, decide_eq_true_eq]; omega
  case addb =>
    exact Instr.wf_addb_iff.2 ⟨by rwa [length_takeKeys], fun _ => length_lt_of_mem_takeKeys⟩
  case addbU16 | addbU32 | addbU64 => simpa only [Instr.wf, fitsU32, length_takeWords, decide_eq_true_eq] using hfield
  all_goals rfl

/-- Settles O2: the lengths that were read fit their fields, and every byte of the packet is written again. -/
theorem encodeOfDecode : Obligations.EncodeOfDecode := by
  intro bs i h
  refine ⟨?_, encode_of_decode h⟩
  obtain ⟨-, op, -, -, hlen, rfl⟩ := decode_eq_ok_iff.1 h
  exact wf_operands hlen

/-! ### Encodings the spec writes out (R126, R128) -/

/-- Settles O6: the assembler and the encoder run on the lines of R126. -/
theorem assembledLines : Obligations.AssembledLines := by
  refine ⟨⟨?_, ?_⟩, ⟨?_, ?_⟩, ⟨?_, ?_⟩, ⟨?_, ?_⟩⟩ <;> decide

/-- Settles O5: the bytes of R128 are the packets of their commands, which decode to them. -/
theorem specPacketsDecode : Obligations.SpecPacketsDecode :=
  ⟨decodeOfEncode (.config 1 true 1024 3) rfl, decodeOfEncode (.addU32 1 0xDEADBEEF) rfl,
    decodeOfEncode (.addbU16 0 [1, 0x0203]) rfl, decodeOfEncode (.merge 0 1) rfl⟩

end Sys2Proof

namespace Sys2Proof.Machine

/-! ### Responses (R120) -/

/-- Settles O13: the STATUS byte and seven zero bytes come before the eight bytes of RESULT. -/
theorem responsePacketLayout : Obligations.ResponsePacketLayout := by
  intro r
  refine ⟨by simp [Response.packet], rfl, fun j h1 h7 => ?_, ?_, ?_⟩
  · obtain ⟨j, rfl⟩ := Nat.exists_eq_add_of_le' h1
    exact (List.getElem?_append_left (by simp; omega)).trans (List.getElem?_replicate_of_lt (by omega))
  · rw [Response.packet, ← List.append_nil (leBytes 8 r.result.toNat)]
    exact fieldAt_append_leBytes (statusCode r.status :: List.replicate 7 0#8) [] r.result.isLt
  · cases r.status <;> decide

end Sys2Proof.Machine
end

section
/-! The HashEngine and its Codec (R141 to R147): the index pattern of the probe positions, the list of a key's probes,
and the bytes of integer operands. -/

namespace Sys2Proof.Machine

variable {s : State} {b : Bank} {i : Instr} {key : List Byte}

/-! ### Probe positions (R144, R145) -/

theorem toNat_ofNat_and_one (i : Nat) : (BitVec.ofNat 64 i &&& 1#64).toNat = i % 2 := by
  rw [BitVec.toNat_and, BitVec.toNat_ofNat, BitVec.toNat_ofNat, Nat.one_mod, Nat.and_one_is_mod]
  omega

/-- Both sums wrap at multiples of 4, so `i mod 4` alone gives the second index of R144. -/
theorem toNat_add_and_three (i : Nat) :
    (((BitVec.ofNat 64 i + (BitVec.ofNat 64 i &&& 1#64)) &&& 3#64) / 2#64).toNat = (i + i % 2) % 4 / 2 := by
  rw [BitVec.toNat_udiv, BitVec.toNat_and, BitVec.toNat_add, toNat_ofNat_and_one, BitVec.toNat_ofNat,
    show (3#64).toNat = 2 ^ 2 - 1 from rfl, Nat.and_two_pow_sub_one_eq_mod, show (2#64).toNat = 2 from rfl]
  omega

/-- R144 with its indices as numbers. -/
theorem probePosition_eq (h : HashQuad) (i : Nat) :
    probePosition h i = hashAt h (i % 2) + BitVec.ofNat 64 i * hashAt h (2 + (i + i % 2) % 4 / 2) := by
  simp only [probePosition, toNat_ofNat_and_one, toNat_add_and_three]

/-- Settles O8: `i mod 4` gives both indices of R144. -/
theorem probeIndexPattern : Obligations.ProbeIndexPattern := by
  intro h i
  have hindex (j k : Nat) (hj : i % 2 = j) (hk : (i + i % 2) % 4 / 2 = k) :
      probePosition h i = hashAt h j + BitVec.ofNat 64 i * hashAt h (2 + k) := by
    rw [probePosition_eq, hk, hj]
  exact ⟨fun h0 => hindex 0 0 (by omega) (by omega), fun h1 => hindex 1 1 (by omega) (by omega),
    fun h2 => hindex 0 1 (by omega) (by omega), fun h3 => hindex 1 0 (by omega) (by omega)⟩

/-! ### The probes of a key (R147) -/

theorem probesFrom_eq_map (h : HashQuad) (i n : Nat) : probesFrom h i n = (List.range' i n).map (probePosition h) := by
  induction n generalizing i with
  | zero => rfl
  | succ n ih => rw [probesFrom, ih, List.range'_succ, List.map_cons]

theorem probes_eq_map (params : Params) (key : List Byte) (k : Word32) :
    probes params key k = (List.range k.toNat).map (probePosition (baseHash params key)) := by
  rw [probes, probesFrom_eq_map, List.range_eq_range']

/-- Settles O9: the list is a map over 0 to K - 1, and reads nothing of a bank but K and BITLEN. -/
theorem probeList : Obligations.ProbeList := by
  refine ⟨fun params key k => ⟨?_, fun i hi => ?_⟩, fun params key b b' hk hbitlen => ?_⟩
  · rw [probes_eq_map, List.length_map, List.length_range]
  · rw [probes_eq_map, List.getElem?_map, List.getElem?_range hi, Option.map_some]
  · rw [hk, hbitlen]

/-! ### The Codec (R141) -/

theorem leBytes_eq_map (n x : Nat) : leBytes n x = (List.range n).map (fun j => BitVec.ofNat 8 (x >>> (8 * j))) := by
  induction n generalizing x with
  | zero => rfl
  | succ n ih =>
    have hbyte (j : Nat) : (x / 256) >>> (8 * j) = x >>> (8 * (j + 1)) := by
      rw [Nat.mul_succ, Nat.add_comm, Nat.shiftRight_add, Nat.shiftRight_eq_div_pow x 8]
    rw [leBytes, ih, List.range_succ_eq_map, List.map_cons, List.map_map]
    simp only [hbyte, Function.comp_def, Nat.succ_eq_add_one, Nat.mul_zero, Nat.shiftRight_zero]

/-- The bytes of a word, least significant first, are its successive slices of 8 bits (R17). -/
theorem leBytes_toNat {w : Nat} (n : Nat) (v : BitVec w) :
    leBytes n v.toNat = (List.range n).map (fun j => v.extractLsb' (8 * j) 8) := leBytes_eq_map n v.toNat

/-- The command word takes the first four bytes of a packet (R112). -/
theorem drop_encode (i : Instr) : (encode i).drop 4 = i.payload := rfl

/-- A command whose program adds one key adds it at once on a bank it meets no other command at (R160). -/
theorem exec_of_addOneProgram (hm : i.opcode ≠ .merge) (hc : i.opcode ≠ .config)
    (hprogram : program s.params b i = addOneProgram s.params b (bankOf i.fid) key)
    (hready : s.readyToWrite (bankOf i.fid) b) :
    exec i s = .next (s.answered (bankOf i.fid) (b.addKey s.params key) 0) := by
  obtain ⟨hidle, hbank, hopen⟩ := hready
  rw [exec_eq_runCommand]
  refine exec_of_program hm hc hidle hbank ?_
  rw [hprogram]
  exact drive_addOneProgram key hbank hopen

/-- Settles O10: the operand's bytes are slices of it, and the typed and the byte ADD add the same key. -/
theorem codecBytes : Obligations.CodecBytes := by
  refine ⟨fun _ => ⟨rfl, rfl⟩, leBytes_toNat 2, leBytes_toNat 4, leBytes_toNat 8, fun fid v w x => ?_,
    fun s fid b v w x hready => ?_⟩
  · simp only [drop_encode, Instr.payload, encodeU16, encodeU32, encodeU64, and_self]
  · have hadd (key : List Byte) : exec (.add fid key) s = .next (s.answered (bankOf fid) (b.addKey s.params key) 0) :=
      exec_of_addOneProgram nofun nofun rfl hready
    rw [hadd, hadd, hadd]
    exact ⟨exec_of_addOneProgram nofun nofun rfl hready, exec_of_addOneProgram nofun nofun rfl hready,
      exec_of_addOneProgram nofun nofun rfl hready⟩

end Sys2Proof.Machine
end

section
/-! What inserted keys make of a bank: the bits that SetBits leave set, in whatever order (R77, R160, R174). -/

namespace Sys2Proof.Machine

variable {b b' b₁ b₂ : Bank} {params : Params} {key : List Byte} {keys keys' : List (List Byte)}
  {q : Word64} {qs qs' : List Word64}

/-! ### SetBits -/

theorem Bank.setBits_wf (hwf : Memory.wf b.storage) (qs : List Word64) :
    Memory.wf (qs.foldl Bank.setBit b).storage := by
  induction qs generalizing b with
  | nil => exact hwf
  | cons q qs ih => exact ih (Memory.wf_write hwf _ _)

theorem Bank.getLsbD_read_setBit (hwf : Memory.wf b.storage) (q : Word64) (j o : Nat) :
    (Memory.read (b.setBit q).storage j).getLsbD o = true ↔
      (Memory.read b.storage j).getLsbD o = true ∨ slotOf b.bitlen q = j ∧ offsetOf q = o := by
  by_cases hj : slotOf b.bitlen q = j
  · subst hj
    simp [Bank.setBit, Memory.read_write_eq hwf.1, getLsbD_bitMask, @eq_comm Nat o]
  · simp [Bank.setBit, Memory.read_write_ne _ hj, hj]

/-- The bits after SetBits of some positions: those set before, and those of the positions. -/
theorem Bank.getLsbD_read_setBits (hwf : Memory.wf b.storage) (qs : List Word64) (j o : Nat) :
    (Memory.read (qs.foldl Bank.setBit b).storage j).getLsbD o = true ↔
      (Memory.read b.storage j).getLsbD o = true ∨ ∃ q ∈ qs, slotOf b.bitlen q = j ∧ offsetOf q = o := by
  induction qs generalizing b with
  | nil => simp
  | cons q qs ih =>
    rw [List.foldl_cons, ih (Memory.wf_write hwf _ _), Bank.getLsbD_read_setBit hwf, List.exists_mem_cons_iff, or_assoc]
    rfl

/-- Two canonical storages with the same bits are equal. -/
theorem Memory.ext_bits {m m' : List Host.Cell} (hm : Memory.wf m) (hm' : Memory.wf m')
    (h : ∀ j o, (Memory.read m j).getLsbD o = true ↔ (Memory.read m' j).getLsbD o = true) : m = m' :=
  Memory.ext hm hm' fun j => BitVec.eq_of_getLsbD_eq fun o _ => Bool.eq_iff_iff.2 (h j o)

/-- The order of SetBits does not matter (R174). -/
theorem Bank.setBits_storage_perm (hwf : Memory.wf b.storage) (hperm : qs.Perm qs') :
    (qs.foldl Bank.setBit b).storage = (qs'.foldl Bank.setBit b).storage :=
  Memory.ext_bits (Bank.setBits_wf hwf qs) (Bank.setBits_wf hwf qs') fun j o => by
    simp only [Bank.getLsbD_read_setBits hwf, hperm.mem_iff]

/-- A SetBit of a bit that is set stores what is there (R82). -/
theorem Bank.setBit_of_bit (hwf : Memory.wf b.storage) (h : b.bit q = true) : b.setBit q = b := by
  have hstorage : (b.setBit q).storage = b.storage := Memory.ext_bits (Memory.wf_write hwf _ _) hwf fun j o => by
    rw [Bank.getLsbD_read_setBit hwf, or_iff_left_iff_imp]
    rintro ⟨rfl, rfl⟩
    exact h
  exact congrArg (fun storage => { b with storage := storage }) hstorage

theorem Bank.setBits_of_bits (hwf : Memory.wf b.storage) (h : ∀ q ∈ qs, b.bit q = true) :
    qs.foldl Bank.setBit b = b := by
  induction qs with
  | nil => rfl
  | cons q qs ih =>
    rw [List.foldl_cons, Bank.setBit_of_bit hwf (h q List.mem_cons_self)]
    exact ih fun x hx => h x (List.mem_cons_of_mem q hx)

theorem Bank.setBits_with_count (qs : List Word64) (b : Bank) (v : Word64) :
    qs.foldl Bank.setBit { b with count := v } = { qs.foldl Bank.setBit b with count := v } := by
  induction qs generalizing b with
  | nil => rfl
  | cons q qs ih => exact ih (b.setBit q)

/-! ### Inserted keys -/

/-- The probe positions of some keys, one key after another. -/
def probesOf (params : Params) (k : Word32) (keys : List (List Byte)) : List Word64 :=
  keys.flatMap fun key => probes params key k

/-- `add_key` of each key is SetBit of every probe of every key, and one count per key (R160, R165, R170). -/
theorem Bank.addKeys_eq (params : Params) (keys : List (List Byte)) (b : Bank) :
    b.addKeys params keys = { (probesOf params b.k keys).foldl Bank.setBit b with
      count := b.count + BitVec.ofNat 64 keys.length } := by
  induction keys generalizing b with
  | nil => simp [Bank.addKeys, probesOf]
  | cons key keys ih =>
    have hk : (b.addKey params key).k = b.k := (b.addKey_same params key).k
    have hcount : b.count + 1 + BitVec.ofNat 64 keys.length = b.count + BitVec.ofNat 64 (keys.length + 1) := by
      rw [BitVec.ofNat_add, BitVec.add_assoc, BitVec.add_comm 1]; rfl
    change (b.addKey params key).addKeys params keys = _
    rw [ih, hk, Bank.addKey, Bank.setBits_with_count, ← List.foldl_append, hcount]
    rfl

@[simp] theorem Bank.addKeys_count (params : Params) (keys : List (List Byte)) (b : Bank) :
    (b.addKeys params keys).count = b.count + BitVec.ofNat 64 keys.length := by rw [Bank.addKeys_eq]

/-- The bits of a batch do not depend on the order of its elements (R174). -/
theorem Bank.addKeys_storage_perm (hwf : Memory.wf b.storage) (hperm : keys.Perm keys') :
    (b.addKeys params keys).storage = (b.addKeys params keys').storage := by
  simp only [Bank.addKeys_eq]
  exact Bank.setBits_storage_perm hwf (hperm.flatMap_right _)

/-- A key whose bits are all set is counted, and nothing else (R166). -/
theorem Bank.addKey_of_testKey (hwf : Memory.wf b.storage) (h : b.testKey params key = true) :
    b.addKey params key = { b with count := b.count + 1 } := by
  rw [Bank.addKey, Bank.setBits_of_bits hwf (List.all_eq_true.1 h)]

/-! ### Banks that lose no bit -/

/-- What `b'` has of `b` where it lost no bit: the registers that locate a key's bits, and every bit that was set. -/
structure Bank.Keeps (b b' : Bank) : Prop where
  bitlen : b'.bitlen = b.bitlen
  k : b'.k = b.k
  bits : b.BitsKept b'

theorem Bank.Keeps.refl (b : Bank) : b.Keeps b := ⟨rfl, rfl, fun _ _ hset => hset⟩

theorem Bank.Keeps.trans (h : b.Keeps b₁) (h' : b₁.Keeps b₂) : b.Keeps b₂ :=
  ⟨h'.bitlen.trans h.bitlen, h'.k.trans h.k, fun j o hset => h'.bits j o (h.bits j o hset)⟩

theorem Bank.Keeps.bit (h : b.Keeps b') (hset : b.bit q = true) : b'.bit q = true := by
  rw [Bank.bit, h.bitlen]
  exact h.bits _ _ hset

theorem Bank.Keeps.testKey (h : b.Keeps b') (hset : b.testKey params key = true) : b'.testKey params key = true := by
  rw [Bank.testKey, h.k, List.all_eq_true]
  exact fun q hq => h.bit (List.all_eq_true.1 hset q hq)

/-- A key that was added tests 1 (R160, R180). -/
theorem Bank.testKey_addKeys (hwf : Memory.wf b.storage) (hkey : key ∈ keys) :
    (b.addKeys params keys).testKey params key = true := by
  have hsame := Bank.addKeys_same params keys b
  rw [Bank.testKey, hsame.k, List.all_eq_true]
  intro q hq
  have hmem : q ∈ probesOf params b.k keys := List.mem_flatMap.2 ⟨key, hkey, hq⟩
  rw [Bank.bit, hsame.bitlen, Bank.addKeys_eq]
  exact (Bank.getLsbD_read_setBits hwf _ _ _).2 (.inr ⟨q, hmem, rfl, rfl⟩)

end Sys2Proof.Machine
end

section
/-! Insertions and TESTs that meet no other command complete at once (R160 to R174, R180 to R184). -/

namespace Sys2Proof.Machine

variable {s : State} {f : Nat} {b b' : Bank} {i : Instr} {key : List Byte} {keys : List (List Byte)}

/-! ### The state of an answered command -/

theorem State.bank?_answered (hb : s.bank? f = some b) (b' : Bank) (r : Word64) :
    (s.answered f b' r).bank? f = some b' := by
  rw [State.answered, State.bank?_deliver, State.bank?_modifyBank_self, hb]; rfl

/-- The port that was answered is IDLE again. -/
theorem State.idleTurn.deliver (h : s.idleTurn) (r : Response) : (s.deliver s.cur r).idleTurn := by
  obtain ⟨port, hport, -⟩ := h
  exact ⟨_, by rw [State.deliver_eq, State.port?_modifyPort, State.modifyPort_cur, if_pos rfl, hport]; rfl, rfl⟩

/-- After a command that kept the bank's registers and guard, the same port can write the bank at once. -/
theorem State.readyToWrite.answered (h : s.readyToWrite f b) (hsame : b.SameRegisters b') (r : Word64) :
    (s.answered f b' r).readyToWrite f b' := by
  obtain ⟨hidle, ⟨hb, hcfg, hpending, hlegal⟩, hopen⟩ := h
  refine ⟨State.idleTurn.deliver (s := s.modifyBank f fun _ => b') hidle _,
    ⟨State.bank?_answered hb b' r, ?_, ?_, hsame.legal hlegal⟩, ?_⟩
  · rw [hsame.cfg, hcfg]
  · rw [hsame.guard, hpending]
  · rw [hsame.conc, hsame.guard]
    exact hopen

/-! ### Insertions -/

/-- A command whose program adds keys in order adds them at once on a bank it meets no other command at (R170). -/
theorem exec_of_addBatchProgram (hm : i.opcode ≠ .merge) (hc : i.opcode ≠ .config)
    (hprogram : program s.params b i = addBatchProgram s.params b (bankOf i.fid) keys)
    (hready : s.readyToWrite (bankOf i.fid) b) :
    exec i s = .next (s.answered (bankOf i.fid) (b.addKeys s.params keys) 0) := by
  obtain ⟨hidle, hbank, hopen⟩ := hready
  rw [exec_eq_runCommand]
  refine exec_of_program hm hc hidle hbank ?_
  rw [hprogram]
  exact drive_addBatchProgram keys hbank hopen

/-- Every ADD and ADDB form adds the keys of its operand, in order, and completes with RESULT 0 (R160 to R173). -/
theorem exec_of_isInsertion (hi : isInsertion i = true) (hready : s.readyToWrite (bankOf i.fid) b) :
    exec i s = .next (s.answered (bankOf i.fid) (b.addKeys s.params (insertedKeys i)) 0) := by
  cases i with
  | add | addStr | addU16 | addU32 | addU64 => exact exec_of_addOneProgram nofun nofun rfl hready
  | addb | addbU16 | addbU32 | addbU64 => exact exec_of_addBatchProgram nofun nofun rfl hready
  | _ => cases hi

/-- Only insertions insert keys. -/
theorem isInsertion_of_mem (hkey : key ∈ insertedKeys i) : isInsertion i = true := by
  cases i with
  | add | addStr | addU16 | addU32 | addU64 | addb | addbU16 | addbU32 | addbU64 => rfl
  | _ => cases hkey

/-- Settles O15: a single-key insertion is one of the keys that the Codec makes of its operand. -/
theorem addResults : Obligations.AddResults := by
  intro s fid b hready
  obtain ⟨-, h16, h32, h64, -⟩ := codecBytes
  refine ⟨fun key => exec_of_isInsertion (i := .add fid key) rfl hready,
    fun key => exec_of_isInsertion (i := .addStr fid key) rfl hready, fun v => ?_, fun v => ?_, fun v => ?_⟩
  · rw [← h16]
    exact exec_of_isInsertion (i := .addU16 fid v) rfl hready
  · rw [← h32]
    exact exec_of_isInsertion (i := .addU32 fid v) rfl hready
  · rw [← h64]
    exact exec_of_isInsertion (i := .addU64 fid v) rfl hready

/-- Settles O16: a batch inserts what the Codec makes of its elements, in their order. -/
theorem addBatchResults : Obligations.AddBatchResults := by
  intro s fid b hready
  refine ⟨fun keys => ?_,
    fun vs => exec_of_isInsertion (i := .addbU16 fid vs) rfl hready,
    fun vs => exec_of_isInsertion (i := .addbU32 fid vs) rfl hready,
    fun vs => exec_of_isInsertion (i := .addbU64 fid vs) rfl hready⟩
  have hcodec : insertedKeys (.addb fid keys) = keys := List.map_id keys
  have hexec := exec_of_isInsertion (i := .addb fid keys) rfl hready
  rw [hcodec] at hexec
  exact hexec

/-- Settles O34: an insertion adds its keys, each of which counts once. -/
theorem countPerKey : Obligations.CountPerKey := by
  intro s i b hi hready
  exact ⟨_, _, exec_of_isInsertion hi hready, State.bank?_answered hready.2.1.1 _ _, Bank.addKeys_count ..⟩

/-! ### Batches -/

/-- ADDs of keys in turn leave the bank as adding the keys in order does. -/
theorem execAddEach_of_ready (keys : List (List Byte)) {fid : FilterId} (hready : s.readyToWrite (bankOf fid) b) :
    ∃ u, execAddEach fid keys s = some u ∧ u.bank? (bankOf fid) = some (b.addKeys s.params keys) := by
  induction keys generalizing s b with
  | nil => exact ⟨s, rfl, hready.2.1.1⟩
  | cons key keys ih =>
    obtain ⟨u, hu, hbank⟩ := ih (hready.answered (b.addKey_same s.params key) 0)
    refine ⟨u, ?_, hbank⟩
    simp only [execAddEach, exec_of_isInsertion (i := .add fid key) rfl hready]
    exact hu

/-- Settles O36: batch and ADDs add the same keys in the same order, and SetBits commute. -/
theorem batchEquivalence : Obligations.BatchEquivalence := by
  intro s fid keys keys' b hready hwf hperm
  obtain ⟨haddb, -⟩ := addBatchResults s fid b hready
  have hbank := hready.2.1.1
  obtain ⟨u, hu, hubank⟩ := execAddEach_of_ready keys hready
  exact ⟨_, u, _, _, _, haddb keys, State.bank?_answered hbank _ _, hu, hubank, Bank.addKeys_count ..,
    haddb keys', State.bank?_answered hbank _ _, Bank.addKeys_storage_perm hwf hperm.symm⟩

/-! ### TEST -/

/-- A command whose program tests one key answers at once on a bank that it can read (R180). -/
theorem exec_of_testOneProgram (hm : i.opcode ≠ .merge) (hc : i.opcode ≠ .config)
    (hprogram : program s.params b i = testOneProgram s.params b (bankOf i.fid) key)
    (hready : s.readyToRead (bankOf i.fid) b) :
    exec i s = .next (s.deliver s.cur (Response.success (testResult s.params b key))) := by
  obtain ⟨hidle, hbank, hopen⟩ := hready
  rw [exec_eq_runCommand]
  refine exec_of_program hm hc hidle hbank ?_
  rw [hprogram]
  exact drive_testOneProgram key hbank hopen

/-- Every TEST form answers whether the bits of its key are all set, and changes no bank (R180 to R184). -/
theorem exec_of_testedKey (hi : testedKey i = some key) (hready : s.readyToRead (bankOf i.fid) b) :
    exec i s = .next (s.deliver s.cur (Response.success (testResult s.params b key))) := by
  cases i with
  | test | testStr | testU16 | testU32 | testU64 =>
    cases hi
    exact exec_of_testOneProgram nofun nofun rfl hready
  | _ => cases hi

/-- Settles O17: each form tests the key that the Codec makes of its operand. -/
theorem testResults : Obligations.TestResults := fun _ fid _ hready =>
  ⟨fun key => exec_of_testedKey (i := .test fid key) rfl hready,
    fun key => exec_of_testedKey (i := .testStr fid key) rfl hready,
    fun v => exec_of_testedKey (i := .testU16 fid v) rfl hready,
    fun v => exec_of_testedKey (i := .testU32 fid v) rfl hready,
    fun v => exec_of_testedKey (i := .testU64 fid v) rfl hready⟩

end Sys2Proof.Machine
end

section
/-! What runs of commands without RESET and CONFIG of a bank leave in it: every bit that was set (R42, R166, R186). -/

namespace Sys2Proof.Machine

variable {p f : Nat} {c c₀ : InFlight} {s s₀ t u : State} {b bu : Bank} {i : Instr} {key : List Byte}

/-! ### Storage stays canonical under whole commands -/

/-- The storage of bank `f`, where there is one, is canonical. -/
def State.canonicalAt (s : State) (f : Nat) : Prop := ∀ b, s.bank? f = some b → Memory.wf b.storage

theorem State.canonicalAt.modifyBank {f' : Nat} {g : Bank → Bank} (h : s.canonicalAt f)
    (hg : ∀ b, Memory.wf b.storage → Memory.wf (g b).storage) : (s.modifyBank f' g).canonicalAt f := by
  intro b' hb'
  obtain ⟨b, hb, ⟨-, rfl⟩ | ⟨-, rfl⟩⟩ := State.bank?_modifyBank_eq_some hb'
  · exact hg b (h b hb)
  · exact h _ hb

theorem State.canonicalAt.afterAdmission (h : s.canonicalAt f) : (s.afterAdmission p i).canonicalAt f := by
  obtain heq | ⟨f', g, heq⟩ := afterAdmission_eq s p i <;> rw [heq]
  · exact h
  · exact h.modifyBank fun _ hwf => hwf

theorem Runs.canonicalAt (h : Runs p c₀ s₀ c s) (hs : s₀.canonicalAt f) : s.canonicalAt f := by
  induction h with
  | start => exact hs
  | step _ hstep ih =>
    rw [hstep.state]
    exact ih.modifyBank fun _ hwf => Micro.effect_wf _ _ hwf

theorem ExecEnds.canonicalAt (h : ExecEnds i s t) (hs : s.canonicalAt f) : t.canonicalAt f := by
  cases h with
  | queued | refused | pending => exact hs
  | ran _ hruns hend =>
    intro b hb
    exact hruns.canonicalAt hs.afterAdmission b ((hend.bank? f).symm.trans hb)

/-! ### Runs without clearing -/

/-- A command that does not clear bank `f` loses none of its bits, and keeps its BITLEN and K. -/
theorem ExecEnds.keeps (h : ExecEnds i s t) (hclear : ¬ (isClearing i = true ∧ bankOf i.fid = f))
    (hs : s.canonicalAt f) (hb : s.bank? f = some b) : ∃ b', t.bank? f = some b' ∧ b.Keeps b' := by
  obtain ⟨hbut, -⟩ := h.frame
  by_cases hf : f = bankOf i.fid
  · subst hf
    obtain ⟨b', hb'⟩ := bank?_of_lt (hbut.banks ▸ bank?_lt hb)
    have hi : isClearing i = false := eq_false_of_ne_true fun hc => hclear ⟨hc, rfl⟩
    have hconfig : i.opcode ≠ .config := fun hc => by simp [isClearing, hc] at hi
    obtain ⟨-, -, -, hbitlen, hk, -⟩ := (h.bank hb hb').1.registers hconfig
    exact ⟨b', hb', hbitlen, hk, h.bitsKept (hs b hb) hi hb hb'⟩
  · exact ⟨b, (hbut.bank f hf).trans hb, .refl b⟩

/-- What a run without RESET and CONFIG of bank `f`, which is `b` at its start, keeps. -/
structure RunKeeps (f : Nat) (b : Bank) (s u : State) : Prop where
  params : u.params = s.params
  canonical : u.canonicalAt f
  bank : ∃ b', u.bank? f = some b' ∧ b.Keeps b'

theorem RunWithoutClearing.keeps (h : RunWithoutClearing f s u) (hs : s.canonicalAt f) (hb : s.bank? f = some b) :
    RunKeeps f b s u := by
  induction h with
  | refl => exact ⟨rfl, hs, b, hb, .refl b⟩
  | tail p i hrun hi hu ih =>
    obtain ⟨hparams, hcanonical, b₁, hb₁, hkeeps⟩ := ih
    have hends := exec_ends hu
    obtain ⟨b₂, hb₂, hkeeps'⟩ := hends.keeps hi hcanonical hb₁
    exact ⟨hends.frame.1.params.trans hparams, hends.canonicalAt hcanonical, b₂, hb₂, hkeeps.trans hkeeps'⟩

/-- A key that was inserted tests 1 after every run without RESET and CONFIG of its bank, whose storage is still
canonical (R186). -/
theorem testKey_of_inserted (hs : s.StorageInv) (hready : s.readyToWrite (bankOf i.fid) b)
    (hkey : key ∈ insertedKeys i) (ht : exec i s = .next t) (hrun : RunWithoutClearing (bankOf i.fid) t u)
    (hbu : u.bank? (bankOf i.fid) = some bu) : Memory.wf bu.storage ∧ bu.testKey u.params key = true := by
  have hbank := hready.2.1.1
  have hcanonical : s.canonicalAt (bankOf i.fid) := fun b' hb' => (hs b' (State.mem_banks_iff.2 ⟨_, hb'⟩)).1
  have htcanonical := (exec_ends ht).canonicalAt hcanonical
  rw [exec_of_isInsertion (isInsertion_of_mem hkey) hready] at ht
  cases ht
  obtain ⟨hparams, hucanonical, b', hb', hkeeps⟩ := hrun.keeps htcanonical (State.bank?_answered hbank _ _)
  cases hbu.symm.trans hb'
  refine ⟨hucanonical bu hbu, ?_⟩
  rw [hparams]
  exact hkeeps.testKey (Bank.testKey_addKeys (hcanonical b hbank) hkey)

/-- Settles O37: an insertion sets every bit of its key, a run without clearing keeps them, and TEST finds them. -/
theorem noFalseNegatives : Obligations.NoFalseNegatives := by
  intro s t u i j key b bu p hs hready hkey ht hrun hfid hj hread
  obtain ⟨-, htest⟩ := testKey_of_inserted hs hready hkey ht hrun hread.2.1.1
  rw [exec_of_testedKey hj (hfid ▸ hread), testResult, State.turn_params, if_pos htest, State.turn_cur]

/-- Settles O35: the bits that the second ADD sets are still those of the first. -/
theorem addIdempotent : Obligations.AddIdempotent := by
  intro s t u fid key b bu p hs hready ht hrun hready'
  obtain ⟨hwf, htest⟩ := testKey_of_inserted (i := .add fid key) hs hready (List.mem_singleton_self key) ht hrun
    hready'.2.1.1
  refine ⟨?_, fun _ => rfl⟩
  rw [← Bank.addKey_of_testKey hwf htest]
  exact (addResults _ fid bu hready').1 key

end Sys2Proof.Machine
end

section
/-! How many bytes a TEST reads (R185). -/

namespace Sys2Proof.Machine

variable {p f : Nat} {req : List Byte} {adm : Bool} {l : Latch} {rest : List Micro} {s : State} {b : Bank}
  {h : HashQuad}

theorem testBitOps_add (f : Nat) (h : HashQuad) (i m n : Nat) :
    testBitOps f h i (m + n) = testBitOps f h i m ++ testBitOps f h (i + m) n := by
  induction m generalizing i with
  | zero => rw [Nat.zero_add]; rfl
  | succ m ih => rw [Nat.succ_add, testBitOps, ih, testBitOps, List.cons_append, Nat.add_assoc, Nat.add_comm 1 m]

theorem dropTests_testBitOps (f : Nat) (h : HashQuad) (i n : Nat) (rest : List Micro) :
    dropTests (testBitOps f h i n ++ rest) = dropTests rest := by
  induction n generalizing i with
  | zero => rfl
  | succ n ih => exact ih (i + 1)

/-- A TestBit goes on to the next micro-step where its bit is 1, and past the other TestBits where it is 0 (R78,
R180). -/
theorem advance_testRead (i : Nat) (hb : s.bank? f = some b) (hl : b.legal s.params.log2MaxBytes) :
    advance p ⟨req, adm, l, .testRead f h i :: rest⟩ s =
      if b.bit (probePosition h i) = true then .moved ⟨req, adm, l, rest⟩ s
      else .moved ⟨req, adm, { l with hit := false }, dropTests rest⟩ s := by
  have hj : slotOf b.bitlen (probePosition h i) < s.physicalBytes := slotOf_lt_physical hl (probePosition h i)
  simp only [advance, stepTestRead, readProbe, hb, memRead_ok hb hj]
  exact if_congr (testBit_eq _ _) rfl rfl

/-- TestBits that find 1 are one micro-step each, and only go on. -/
theorem drive_testBitOps_of_bits (n i m : Nat) (hb : s.bank? f = some b) (hl : b.legal s.params.log2MaxBytes)
    (hbits : ∀ j, i ≤ j → j < i + n → b.bit (probePosition h j) = true) :
    drive (n + m) p ⟨req, adm, l, testBitOps f h i n ++ rest⟩ s = drive m p ⟨req, adm, l, rest⟩ s := by
  induction n generalizing i with
  | zero => rw [Nat.zero_add]; rfl
  | succ n ih =>
    have hstep := advance_testRead (p := p) (req := req) (adm := adm) (l := l) (h := h)
      (rest := testBitOps f h (i + 1) n ++ rest) i hb hl
    rw [if_pos (hbits i (by omega) (by omega))] at hstep
    rw [Nat.succ_add, testBitOps, List.cons_append, drive_succ_moved hstep]
    exact ih (i + 1) fun j h1 h2 => hbits j (by omega) (by omega)

/-- Settles O44: the TestBits before the first 0 are one micro-step each, and the one that finds it drops the rest. -/
theorem testReadsUntilClear : Obligations.TestReadsUntilClear := by
  intro s p f n h b request l answer hb hl _
  refine ⟨fun j hj hset hclear => ?_, fun hset => ?_⟩
  · obtain ⟨k, rfl⟩ := Nat.exists_eq_add_of_lt hj
    have hstep := advance_testRead (p := p) (req := request) (adm := true) (l := l) (h := h)
      (rest := testBitOps f h (j + 1) k ++ [.respond .ok answer]) j hb hl
    rw [if_neg (by rw [hclear]; exact Bool.false_ne_true), dropTests_testBitOps] at hstep
    rw [Nat.add_assoc, testBitOps_add, List.append_assoc,
      drive_testBitOps_of_bits j 0 1 hb hl fun x _ hx => hset x (by omega), Nat.zero_add]
    exact drive_succ_moved hstep
  · exact drive_testBitOps_of_bits n 0 0 hb hl fun x _ hx => hset x (by omega)

end Sys2Proof.Machine
end

section
/-! MERGE (R210 to R215): its checks, the union of the banks' bytes, and what it keeps of both banks. -/

namespace Sys2Proof.Machine

variable {p fd fs : Nat} {s : State} {b bd bs : Bank} {fid sfid : FilterId} {e : Status} {m src : List Host.Cell}
  {req key : List Byte} {params : Params}

/-! ### The checks (R211, R273) -/

theorem packetCheck_merge (hd : s.bank? (bankOf fid) = some bd) (hs : s.bank? (bankOf sfid) = some bs) :
    packetCheck s (.merge fid sfid) = none :=
  packetCheck_none_iff.2 ⟨bank?_lt hd, fun _ => bank?_lt hs, rfl⟩

theorem merge_not_pending (hd : s.holdsBank (bankOf fid) bd) (hs : s.holdsBank (bankOf sfid) bs) :
    (namedBanks (.merge fid sfid)).any s.configPending = false := by
  obtain ⟨hbd, -, hpendd, -⟩ := hd
  obtain ⟨hbs, -, hpends, -⟩ := hs
  simp [namedBanks, configPending_of_bank hbd, configPending_of_bank hbs, hpendd, hpends]

/-- Between configured banks only R211 is left to check. -/
theorem bankCheck_merge (hd : s.holdsBank (bankOf fid) bd) (hs : s.holdsBank (bankOf sfid) bs) :
    bankCheck s (.merge fid sfid) = mergeCheck bd bs := by
  obtain ⟨hbd, hcfgd, -⟩ := hd
  obtain ⟨hbs, hcfgs, -⟩ := hs
  simp [bankCheck, Instr.opcode, Instr.fid, Instr.sfid, configured_of_bank hbd, configured_of_bank hbs, hcfgd, hcfgs,
    hbd, hbs]

theorem mergeCheck_mismatch (h : bd.bitlen ≠ bs.bitlen ∨ bd.k ≠ bs.k) : mergeCheck bd bs = some .mismatch :=
  if_pos h

theorem mergeCheck_of_eq (hbitlen : bd.bitlen = bs.bitlen) (hk : bd.k = bs.k) :
    mergeCheck bd bs = if bs.conc then some .unsupported else none :=
  if_neg fun h => h.elim (· hbitlen) (· hk)

theorem exec_of_mergeCheck (hidle : s.idleTurn) (hd : s.holdsBank (bankOf fid) bd) (hs : s.holdsBank (bankOf sfid) bs)
    (hcheck : mergeCheck bd bs = some e) : exec (.merge fid sfid) s = .next (s.raise s.cur e) := by
  rw [exec_eq_runCommand]
  exact runCommand_bankError hidle (packetCheck_merge hd.1 hs.1) (merge_not_pending hd hs)
    ((bankCheck_merge hd hs).trans hcheck)

theorem exec_merge_unsupported (hidle : s.idleTurn) (hd : s.holdsBank (bankOf fid) bd)
    (hs : s.holdsBank (bankOf sfid) bs) (hbitlen : bd.bitlen = bs.bitlen) (hk : bd.k = bs.k) (hconc : bs.conc = true) :
    exec (.merge fid sfid) s = .next (s.raise s.cur .unsupported) :=
  exec_of_mergeCheck hidle hd hs ((mergeCheck_of_eq hbitlen hk).trans (if_pos hconc))

/-- Settles O26: the admission step makes R211's two checks in their order, and an error response leaves the banks. -/
theorem mergePreconditions : Obligations.MergePreconditions := fun _ _ _ _ _ hidle hd hs =>
  ⟨fun h => exec_of_mergeCheck hidle hd hs (mergeCheck_mismatch h), exec_merge_unsupported hidle hd hs, rfl, rfl⟩

/-! ### The union of two storages -/

/-- Bytes 0 to `n - 1` become their OR with those of `src` (R210). -/
def Memory.orBelow (m src : List Host.Cell) : Nat → List Host.Cell
  | 0 => m
  | n + 1 => Memory.write (Memory.orBelow m src n) n (Memory.read m n ||| Memory.read src n)

theorem Memory.wf_orBelow (hm : Memory.wf m) (src : List Host.Cell) (n : Nat) : Memory.wf (Memory.orBelow m src n) := by
  induction n with
  | zero => exact hm
  | succ n ih => exact Memory.wf_write ih _ _

theorem Memory.read_orBelow (hm : Memory.wf m) (src : List Host.Cell) (n j : Nat) :
    Memory.read (Memory.orBelow m src n) j =
      if j < n then Memory.read m j ||| Memory.read src j else Memory.read m j := by
  induction n with
  | zero => rfl
  | succ n ih =>
    rw [Memory.orBelow]
    by_cases hj : n = j
    · subst hj
      rw [Memory.read_write_eq (Memory.wf_orBelow hm src n).1, if_pos (Nat.lt_succ_self n)]
    · rw [Memory.read_write_ne _ hj, ih]
      exact if_congr (by omega) rfl rfl

/-- MERGE in one step (R210). -/
def Bank.merge (bd bs : Bank) : Bank := { bd with storage := Memory.orBelow bd.storage bs.storage bd.bitlen.toNat }

/-- In a bank with legal registers every slot is below BITLEN (R72). -/
theorem slotOf_lt_bitlen_toNat {L : Nat} (hl : b.legal L) (q : Word64) : slotOf b.bitlen q < b.bitlen.toNat := by
  rw [bitlen_toNat hl]
  exact slotOf_lt_bitlen hl q

/-- Every slot is below BITLEN, so MERGE reaches every bit that a probe can address. -/
theorem Bank.bit_merge {L : Nat} (hl : bd.legal L) (hwf : Memory.wf bd.storage) (hbitlen : bd.bitlen = bs.bitlen)
    (q : Word64) : (bd.merge bs).bit q = (bd.bit q || bs.bit q) := by
  simp only [Bank.bit, Bank.merge, Memory.read_orBelow hwf, if_pos (slotOf_lt_bitlen_toNat hl q), BitVec.getLsbD_or,
    ← hbitlen]

/-- A bank is its own union with itself (R215). -/
theorem Bank.merge_self (hwf : Memory.wf b.storage) : b.merge b = b := by
  have hstorage : Memory.orBelow b.storage b.storage b.bitlen.toNat = b.storage :=
    Memory.ext (Memory.wf_orBelow hwf _ _) hwf fun j => by rw [Memory.read_orBelow hwf, BitVec.or_self, ite_self]
  rw [Bank.merge, hstorage]

/-- A key that tests 1 in one bank tests 1 in every bank of the same K that has the bits. -/
theorem Bank.testKey_mono {b' : Bank} (hk : b'.k = b.k) (hbit : ∀ q, b.bit q = true → b'.bit q = true)
    (h : b.testKey params key = true) : b'.testKey params key = true := by
  rw [Bank.testKey, hk, List.all_eq_true]
  exact fun q hq => hbit q (List.all_eq_true.1 h q hq)

/-! ### MERGE completes -/

/-- BITLEN is at most the bytes that exist (R36, R41). -/
theorem bitlen_le_physicalBytes (hl : b.legal s.params.log2MaxBytes) : b.bitlen.toNat ≤ s.physicalBytes := by
  rw [bitlen_toNat hl]
  exact Nat.pow_le_pow_right Nat.two_pos hl.1

/-- What bank `fs` is after bank `fd`, which may be the same one, was put to `b`. -/
theorem State.bank?_put (hs : s.bank? fs = some bs) (fd : Nat) (b : Bank) :
    (s.modifyBank fd fun _ => b).bank? fs = some (if fd = fs then b else bs) := by
  rw [State.bank?_modifyBank, hs]
  split <;> rfl

/-- A MERGE that meets no other command (R210); its source may be its destination. -/
theorem drive_mergeProgram (hd : s.holdsBank fd bd) (hs : s.bank? fs = some bs)
    (hopen : bd.conc = true → bd.guard.openExclusive p) (hwf : Memory.wf bd.storage) :
    drive (exclusive bd fd (orByteOps fd fs 0 bd.bitlen.toNat) (.const 0)).length p
        ⟨req, true, Latch.start, exclusive bd fd (orByteOps fd fs 0 bd.bitlen.toNat) (.const 0)⟩
        (s.reachLock p fd bd.conc) =
      .done ((s.modifyBank fd fun _ => bd.merge bs).deliver p (Response.success 0)) := by
  obtain ⟨hbank, -, -, hl⟩ := hd
  refine drive_exclusive hbank hopen rfl fun g l m rest => ?_
  have hsource : (if fd = fs then { bd with guard := g } else bs).storage = bs.storage := by
    split
    · next hsame => cases hbank.symm.trans (hsame ▸ hs); rfl
    · rfl
  obtain ⟨l', storage, hdrive, hwf', hread⟩ := drive_orByteOps (p := p) (req := req) (adm := true) (l := l)
    (rest := rest) bd.bitlen.toNat 0 m (State.bank?_put hbank fd { bd with guard := g })
    (State.bank?_put hs fd { bd with guard := g }) (by rw [if_pos rfl]; exact hwf)
    (by rw [Nat.zero_add]; exact bitlen_le_physicalBytes hl)
  have hstorage : storage = Memory.orBelow bd.storage bs.storage bd.bitlen.toNat :=
    Memory.ext hwf' (Memory.wf_orBelow hwf _ _) fun j => by
      rw [hread, Memory.read_orBelow hwf, hsource, if_pos rfl]
      exact if_congr (by omega) rfl rfl
  refine ⟨l', hdrive.trans ?_⟩
  rw [State.modifyBank_modifyBank, hstorage, if_pos rfl]
  rfl

/-- A MERGE that passes R211's checks, into a bank that it can write at once, makes it the union of the two. -/
theorem exec_merge (hready : s.readyToWrite (bankOf fid) bd) (hs : s.holdsBank (bankOf sfid) bs)
    (hwf : Memory.wf bd.storage) (hbitlen : bd.bitlen = bs.bitlen) (hk : bd.k = bs.k) (hconc : bs.conc = false) :
    exec (.merge fid sfid) s = .next (s.answered (bankOf fid) (bd.merge bs) 0) := by
  obtain ⟨hidle, hd, hopen⟩ := hready
  have hhome : homeBank s (.merge fid sfid) = bd := by simp [homeBank, Instr.fid, hd.1]
  have hcheck : mergeCheck bd bs = none := by simp [mergeCheck_of_eq hbitlen hk, hconc]
  rw [exec_eq_runCommand]
  refine runCommand_admitted hidle (packetCheck_merge hd.1 hs.1) (merge_not_pending hd hs)
    ((bankCheck_merge hd hs).trans hcheck) ?_
  rw [State.afterAdmission, hhome, if_neg nofun]
  exact drive_mergeProgram hd hs.1 hopen hwf

/-- Settles O18: each destination byte below BITLEN is stored once, as its OR with the source's byte. -/
theorem mergeResult : Obligations.MergeResult := fun _ _ _ _ _ hready hs hwf hbitlen hk hconc =>
  ⟨_, exec_merge hready hs hwf hbitlen hk hconc, Memory.wf_orBelow hwf _ _, Memory.read_orBelow hwf _ _⟩

/-- Settles O39: a bit of the destination is the OR of the two banks' bits, and the source is as it was or is the
destination. -/
theorem mergeMonotone : Obligations.MergeMonotone := by
  intro s fid sfid bd bs hready hs hwf hbitlen hk hconc
  have ⟨_, ⟨hbank, _, _, hl⟩, _⟩ := hready
  have hbit := Bank.bit_merge hl hwf hbitlen
  have hdest (q : Word64) (h : bd.bit q = true) : (bd.merge bs).bit q = true := by rw [hbit, h, Bool.true_or]
  have hsource (q : Word64) (h : bs.bit q = true) : (bd.merge bs).bit q = true := by rw [hbit, h, Bool.or_true]
  refine ⟨_, _, _, exec_merge hready hs hwf hbitlen hk hconc, State.bank?_answered hbank _ _,
    State.bank?_put hs.1 _ _, fun q => ⟨fun h => h.elim (hdest q) (hsource q), fun h => ?_⟩,
    fun key h => h.elim (Bank.testKey_mono rfl hdest) (Bank.testKey_mono hk hsource)⟩
  split
  · exact hsource q h
  · exact h

/-- Settles O40: a bank agrees with itself in BITLEN and K, and each byte is stored as it was read. -/
theorem selfMerge : Obligations.SelfMerge := by
  intro s fid b hidle hb hwf
  refine ⟨exec_merge_unsupported hidle hb hb rfl rfl, fun hconc => ?_⟩
  have hopen : b.conc = true → b.guard.openExclusive s.cur := fun h => Bool.noConfusion (hconc.symm.trans h)
  rw [exec_merge ⟨hidle, hb, hopen⟩ hb hwf rfl rfl hconc, Bank.merge_self hwf]

end Sys2Proof.Machine
end

section
/-! RESET (R220), and what it leaves for TEST and SIZE to find (R221). -/

namespace Sys2Proof.Machine

variable {p f : Nat} {s t u : State} {b b' b₁ : Bank} {i : Instr} {fid : FilterId} {req key : List Byte}
  {params : Params}

/-! ### RESET completes -/

/-- RESET in one step (R220). -/
def Bank.reset (b : Bank) : Bank := { b with storage := Memory.zeroBelow b.storage b.bitlen.toNat, count := 0 }

/-- A RESET that meets no other command (R220). -/
theorem drive_resetProgram (hb : s.holdsBank f b) (hopen : b.conc = true → b.guard.openExclusive p)
    (hwf : Memory.wf b.storage) :
    drive (exclusive b f (zeroByteOps f 0 b.bitlen.toNat ++ [.writeCountZero f]) (.const 0)).length p
        ⟨req, true, Latch.start, exclusive b f (zeroByteOps f 0 b.bitlen.toNat ++ [.writeCountZero f]) (.const 0)⟩
        (s.reachLock p f b.conc) =
      .done ((s.modifyBank f fun _ => b.reset).deliver p (Response.success 0)) := by
  obtain ⟨hbank, -, -, hl⟩ := hb
  refine drive_exclusive hbank hopen rfl fun g l m rest => ⟨l, ?_⟩
  have hg : (s.modifyBank f fun _ => { b with guard := g }).bank? f = some { b with guard := g } := by
    rw [State.bank?_put hbank, if_pos rfl]
  obtain ⟨storage, hdrive, hwf', hread⟩ := drive_zeroByteOps (p := p) (req := req) (adm := true) (l := l)
    (rest := .writeCountZero f :: rest) b.bitlen.toNat 0 (m + 1) hg hwf
    (by rw [Nat.zero_add]; exact bitlen_le_physicalBytes hl)
  have hstorage : storage = Memory.zeroBelow b.storage b.bitlen.toNat :=
    Memory.ext hwf' (Memory.wf_zeroBelow hwf _) fun j => by
      rw [hread, Memory.read_zeroBelow]
      exact if_congr (by omega) rfl rfl
  have hzeroed := State.bank?_put hg f { b with guard := g, storage := storage }
  rw [if_pos rfl] at hzeroed
  rw [List.length_append, List.length_singleton, Nat.add_assoc, Nat.add_comm 1 m, List.append_assoc,
    List.singleton_append, hdrive,
    drive_succ_moved (h := by simp only [advance, stepWriteCount, writeCount_ok _ hzeroed]; rfl),
    State.modifyBank_modifyBank, State.modifyBank_modifyBank, hstorage]
  rfl

/-- A RESET of a bank that it can write at once. -/
theorem exec_reset (hready : s.readyToWrite (bankOf fid) b) (hwf : Memory.wf b.storage) :
    exec (.reset fid) s = .next (s.answered (bankOf fid) b.reset 0) := by
  obtain ⟨hidle, hbank, hopen⟩ := hready
  rw [exec_eq_runCommand]
  exact exec_of_program nofun nofun hidle hbank (drive_resetProgram hbank hopen hwf)

/-- Settles O19: each byte below BITLEN is stored once, as 0, and then COUNT. -/
theorem resetResult : Obligations.ResetResult := fun _ _ _ hready hwf =>
  ⟨_, exec_reset hready hwf, Memory.wf_zeroBelow hwf _, Memory.read_zeroBelow _ _⟩

/-! ### Runs without a command that writes the bank -/

/-- What `b'` has of `b` where no command wrote it: the bytes, the registers that locate bits, and COUNT. -/
structure Bank.Unwritten (b b' : Bank) : Prop where
  bitlen : b'.bitlen = b.bitlen
  count : b'.count = b.count
  byte : ∀ j, Memory.read b'.storage j = Memory.read b.storage j

theorem Bank.Unwritten.refl (b : Bank) : b.Unwritten b := ⟨rfl, rfl, fun _ => rfl⟩

theorem Bank.Unwritten.trans (h : b.Unwritten b₁) (h' : b₁.Unwritten b') : b.Unwritten b' :=
  ⟨h'.bitlen.trans h.bitlen, h'.count.trans h.count, fun j => (h'.byte j).trans (h.byte j)⟩

theorem not_storesTo_of_isReading (hi : isReading i = true) (j : Nat) : ¬ storesTo params b i j := by
  cases i with
  | test | testStr | testU16 | testU32 | testU64 | cap | size | fpr => rintro ⟨_, hkey, -⟩; cases hkey
  | _ => cases hi

/-- A read-only command is neither an insertion nor RESET or CONFIG (R88). -/
theorem kinds_of_isReading (hi : isReading i = true) :
    i.opcode ≠ .config ∧ isInsertion i = false ∧ isClearing i = false := by
  cases i with
  | test | testStr | testU16 | testU32 | testU64 | cap | size | fpr => exact ⟨nofun, rfl, rfl⟩
  | _ => cases hi

theorem BankKept.unwritten (h : BankKept params i b b') (hi : isReading i = true) : b.Unwritten b' := by
  obtain ⟨hconfig, hinsertion, hclearing⟩ := kinds_of_isReading hi
  obtain ⟨-, -, -, hbitlen, -⟩ := h.registers hconfig
  exact ⟨hbitlen, h.count hinsertion hclearing, fun j => h.byte j (not_storesTo_of_isReading hi j)⟩

/-- A command whose FID is another bank, or that only reads, writes nothing of bank `f`. -/
theorem ExecEnds.unwritten (h : ExecEnds i s t) (hi : bankOf i.fid = f → isReading i = true)
    (hb : s.bank? f = some b) : ∃ b', t.bank? f = some b' ∧ b.Unwritten b' := by
  obtain ⟨hbut, -⟩ := h.frame
  by_cases hf : bankOf i.fid = f
  · subst hf
    obtain ⟨b', hb'⟩ := bank?_of_lt (hbut.banks ▸ bank?_lt hb)
    exact ⟨b', hb', (h.bank hb hb').1.unwritten (hi rfl)⟩
  · exact ⟨b, (hbut.bank f (Ne.symm hf)).trans hb, .refl b⟩

theorem RunWithoutWriting.unwritten (h : RunWithoutWriting f s u) (hb : s.bank? f = some b) :
    ∃ b', u.bank? f = some b' ∧ b.Unwritten b' := by
  induction h with
  | refl => exact ⟨b, hb, .refl b⟩
  | tail p i _ hi hu ih =>
    obtain ⟨b₁, hb₁, hfirst⟩ := ih
    obtain ⟨b₂, hb₂, hlast⟩ := (exec_ends hu).unwritten hi hb₁
    exact ⟨b₂, hb₂, hfirst.trans hlast⟩

/-! ### What is found after a RESET -/

/-- In a bank without a set bit below BITLEN no key tests 1, since K is not 0 (R36, R180). -/
theorem Bank.testKey_of_clear {L : Nat} (hl : b.legal L) (hclear : ∀ j < b.bitlen.toNat, Memory.read b.storage j = 0)
    (params : Params) (key : List Byte) : b.testKey params key = false := by
  have ⟨_, _, hk⟩ := hl
  have hbit (q : Word64) : b.bit q = false := by
    rw [Bank.bit, hclear _ (slotOf_lt_bitlen_toNat hl q)]
    exact BitVec.getLsbD_zero
  have hcount : b.k.toNat ≠ 0 := fun h => hk (BitVec.eq_of_toNat_eq h)
  have hprobe : probePosition (baseHash params key) 0 ∈ probes params key b.k :=
    probePosition_mem_probesFrom _ le_rfl (by omega)
  exact List.all_eq_false.2 ⟨_, hprobe, by rw [hbit]; exact Bool.false_ne_true⟩

/-- SIZE on a bank that it can read at once (R233). -/
theorem exec_size (hready : s.readyToRead (bankOf fid) b) :
    exec (.size fid) s = .next (s.deliver s.cur (Response.success b.count)) := by
  obtain ⟨hidle, hbank, hopen⟩ := hready
  rw [exec_eq_runCommand]
  exact exec_of_program nofun nofun hidle hbank (drive_countProgram .count hbank.1 hopen)

/-- Settles O38: RESET leaves 0 in COUNT and in every byte that a probe can address, and no other command writes
them. -/
theorem resetClears : Obligations.ResetClears := by
  intro s t u fid b bu p hs hready ht hrun hread
  have ⟨_, ⟨hbank, _⟩, _⟩ := hready
  have hwf : Memory.wf b.storage := (hs b (State.mem_banks_iff.2 ⟨_, hbank⟩)).1
  cases (exec_reset hready hwf).symm.trans ht
  obtain ⟨b', hb', hbitlen, hcount, hbyte⟩ := hrun.unwritten (State.bank?_answered hbank _ _)
  have ⟨_, ⟨hbu, _, _, hl⟩, _⟩ := hread
  cases hb'.symm.trans hbu
  have hclear (j : Nat) (hj : j < bu.bitlen.toNat) : Memory.read bu.storage j = 0 := by
    rw [hbyte, Bank.reset, Memory.read_zeroBelow, if_pos (hbitlen ▸ hj)]
  refine ⟨fun j key hfid hj => ?_, ?_⟩
  · have htest := exec_of_testedKey hj (hfid ▸ hread)
    rwa [testResult, Bank.testKey_of_clear hl hclear, if_neg Bool.false_ne_true] at htest
  · have hsize := exec_size hread
    rwa [hcount] at hsize

end Sys2Proof.Machine
end

section
/-! CAP, SIZE and FPR (R230 to R237), and the capacity that CAP answers after a CONFIG (R231, R250, R251). -/

namespace Sys2Proof.Machine

variable {p L : Nat} {s : State} {b : Bank} {fid : FilterId} {conc : Bool} {capacity : Word64} {k : Word32}
  {req : List Byte}

/-! ### The statistics commands complete -/

/-- CAP on a bank that it can read at once (R230). -/
theorem exec_cap (hready : s.readyToRead (bankOf fid) b) :
    exec (.cap fid) s = .next (s.deliver s.cur (Response.success b.bitlen)) := by
  obtain ⟨hidle, hbank, hopen⟩ := hready
  rw [exec_eq_runCommand]
  exact exec_of_program nofun nofun hidle hbank (drive_capProgram hbank.1 hopen)

/-- FPR on a bank that it can read at once (R236). -/
theorem exec_fpr (hready : s.readyToRead (bankOf fid) b) :
    exec (.fpr fid) s = .next (s.deliver s.cur (Response.success (Config.fprFn.rate b.k b.count b.bitlen))) := by
  obtain ⟨hidle, hbank, hopen⟩ := hready
  rw [exec_eq_runCommand]
  exact exec_of_program nofun nofun hidle hbank (drive_countProgram (.estimate b.k b.bitlen) hbank.1 hopen)

/-- Settles O20: CAP answers the BITLEN of its admission, SIZE and FPR the COUNT that they read. -/
theorem statisticsResults : Obligations.StatisticsResults := fun _ _ _ hready =>
  ⟨exec_cap hready, exec_size hready, exec_fpr hready⟩

/-! ### FPR's estimate (R237) -/

theorem bitlen_ne_zero (hl : b.legal L) : b.bitlen ≠ 0 := fun h =>
  (Nat.two_pow_pos b.log2len.toNat).ne (by rw [← bitlen_toNat hl, h]; rfl)

/-- Settles O43: the K and BITLEN of a configured bank are not 0, so FPR_FN has the properties of R237 at them. -/
theorem fprEstimate : Obligations.FprEstimate := by
  intro s s' fid fid' b b' hready hready' hk hbitlen hcount
  have ⟨_, ⟨_, _, _, hl⟩, _⟩ := hready
  have hk0 : b.k ≠ 0 := hl.2.2
  have hm0 : b.bitlen ≠ 0 := bitlen_ne_zero hl
  have hfpr' := exec_fpr hready'
  rw [hk, hbitlen] at hfpr'
  exact ⟨_, _, exec_fpr hready, hfpr', Config.fprFn.inUnit _ _ _ hk0 hm0, Config.fprFn.inUnit _ _ _ hk0 hm0,
    fun hzero => by rw [hzero, Config.fprFn.atZero _ _ hk0 hm0], fun hsame => by rw [hsame],
    Config.fprFn.mono _ _ _ _ hk0 hm0 hcount⟩

/-! ### The least exponent (R251) -/

/-- The search for an exponent does not end before it has found one, where its last candidate is large enough. -/
theorem le_two_pow_ceilLog2From {c : Nat} (fuel l : Nat) (hc : c ≤ 2 ^ (l + fuel)) :
    c ≤ 2 ^ ceilLog2From c fuel l := by
  induction fuel generalizing l with
  | zero => exact hc
  | succ fuel ih =>
    rw [ceilLog2From]
    split
    · next h => exact h
    · exact ih (l + 1) (by rwa [Nat.add_right_comm])

theorem le_two_pow_ceilLog2 (c : Nat) : c ≤ 2 ^ ceilLog2 c :=
  le_two_pow_ceilLog2From c 0 (by rw [Nat.zero_add]; exact Nat.lt_two_pow_self.le)

theorem ceilLog2_le {c l : Nat} (hc : c ≤ 2 ^ l) : ceilLog2 c ≤ l := ceilLog2From_le hc c 0 l.zero_le

/-! ### CONFIG completes -/

/-- The BITLEN that CONFIG's atomic step brings (R250). -/
theorem Bank.configure_bitlen_toNat (hcap : capacity.toNat ≤ 2 ^ 63) :
    (b.configure capacity k conc).bitlen.toNat = 2 ^ ceilLog2 capacity.toNat := by
  have hlt : 2 ^ ceilLog2 capacity.toNat < 2 ^ 64 :=
    Nat.pow_lt_pow_right Nat.one_lt_two (Nat.lt_succ_of_le (ceilLog2_le hcap))
  change (1#64 <<< ceilLog2 capacity.toNat).toNat = _
  rw [BitVec.toNat_shiftLeft, Nat.shiftLeft_eq, Nat.mod_eq_of_lt (by simpa using hlt)]
  exact Nat.one_mul _

/-- The atomic step of a CONFIG whose bank no other command names, and its response (R250, R254): the bit that its
admission set is clear again. -/
theorem drive_configProgram (hb : s.bank? (bankOf fid) = some b) (hothers : s.othersName p (bankOf fid) = false) :
    drive (programConfig fid conc capacity k).length p
        ⟨req, true, Latch.start, programConfig fid conc capacity k⟩ (s.setPending (bankOf fid) true) =
      .done ((s.modifyBank (bankOf fid) fun _ => b.configure capacity k conc).deliver p (Response.success 0)) := by
  have hpending : (s.setPending (bankOf fid) true).bank? (bankOf fid) =
      some { b with guard := { b.guard with configPending := true } } := by
    rw [State.setPending_eq, State.bank?_modifyBank_self, hb]; rfl
  have hothers' : (s.setPending (bankOf fid) true).othersName p (bankOf fid) = false := hothers
  have hmoved : advance p ⟨req, true, Latch.start, programConfig fid conc capacity k⟩
      (s.setPending (bankOf fid) true) =
      .moved ⟨req, true, Latch.start, [.respond .ok (.const 0)]⟩
        (s.modifyBank (bankOf fid) fun _ => b.configure capacity k conc) := by
    simp only [programConfig, advance, stepConfigure, hpending, hothers', Bool.false_eq_true, if_false]
    rw [State.setPending_eq, State.modifyBank_modifyBank,
      s.modifyBank_eq_const hb (b' := b.configure capacity k conc) rfl]
  exact drive_succ_moved hmoved

/-- A CONFIG that R252 accepts, of a bank that no other command names (R250, R254). -/
theorem exec_config (hidle : s.idleTurn) (hb : s.bank? (bankOf fid) = some b)
    (hpending : b.guard.configPending = false) (hothers : s.othersName s.cur (bankOf fid) = false)
    (hcheck : configCheck s (.config fid conc capacity k) = none) :
    exec (.config fid conc capacity k) s =
      .next (s.answered (bankOf fid) (b.configure capacity k conc) 0) := by
  rw [exec_eq_runCommand]
  refine runCommand_admitted hidle (packetCheck_none_iff.2 ⟨bank?_lt hb, nofun, hcheck⟩) ?_
    (bankCheck_none nofun fun h => (h rfl).elim) (drive_configProgram hb hothers)
  simp [namedBanks, configPending_of_bank hb, hpending]

/-- The bank that a CONFIG answered can be read at once by the same port, where its guard was free. -/
theorem readyToRead_configured (hidle : s.idleTurn) (hb : s.bank? (bankOf fid) = some b) (hfree : b.guard = Guard.free)
    (hlegal : (b.configure capacity k conc).legal s.params.log2MaxBytes) :
    (s.answered (bankOf fid) (b.configure capacity k conc) 0).readyToRead (bankOf fid)
      (b.configure capacity k conc) := by
  have hguard : (b.configure capacity k conc).guard = Guard.free := by
    change { b.guard with configPending := false } = _
    rw [hfree]; rfl
  refine ⟨State.idleTurn.deliver (s := s.modifyBank _ _) hidle _, ⟨State.bank?_answered hb _ _, rfl, rfl, hlegal⟩,
    fun _ => ?_⟩
  rw [hguard]
  exact ⟨rfl, List.not_mem_nil, List.not_mem_nil⟩

/-- Settles O41: CAP finds the BITLEN that CONFIG made, `1 << ceil_log2(capacity)`. -/
theorem capIsPowerOfTwo : Obligations.CapIsPowerOfTwo := by
  intro s fid conc capacity k b hidle hb hfree hothers hL hone hk hcap
  have hcapacity : capacity ≠ 0 := by rintro rfl; exact absurd hone (by decide)
  have hpending : b.guard.configPending = false := by rw [hfree]; rfl
  have hlegal : (b.configure capacity k conc).legal s.params.log2MaxBytes := Bank.configure_legal hL hk hcap
  have hbitlen : (b.configure capacity k conc).bitlen.toNat = 2 ^ ceilLog2 capacity.toNat :=
    Bank.configure_bitlen_toNat (hcap.trans (Nat.pow_le_pow_right Nat.two_pos (by omega)))
  refine ⟨_, _, exec_config hidle hb hpending hothers (configCheck_none_iff.2 ⟨hcapacity, hk, hcap⟩),
    exec_cap (readyToRead_configured hidle hb hfree hlegal), ⟨_, hbitlen⟩, ?_, fun l hl => ?_⟩
  · rw [hbitlen]; exact le_two_pow_ceilLog2 _
  · rw [hbitlen]; exact Nat.pow_le_pow_right Nat.two_pos (ceilLog2_le hl)

end Sys2Proof.Machine
end

section
/-! CONFIG (R250 to R257): the exponent it computes, the bank it makes, the capacities it refuses, and the interlock
that makes commands wait for it and it for them. -/

namespace Sys2Proof.Machine

variable {p f : Nat} {s : State} {b : Bank} {c : InFlight} {fid : FilterId} {conc : Bool} {capacity : Word64}
  {k : Word32} {rest : List Micro}

/-! ### `ceil_log2` (R251) -/

theorem ceilLog2_two_pow (l : Nat) : ceilLog2 (2 ^ l) = l :=
  le_antisymm (ceilLog2_le le_rfl) ((Nat.pow_le_pow_iff_right Nat.one_lt_two).1 (le_two_pow_ceilLog2 _))

/-- Settles O12: the search takes the first exponent that is large enough, and there is one among its candidates. -/
theorem ceilLog2Least : Obligations.CeilLog2Least :=
  ⟨fun c _ => ⟨le_two_pow_ceilLog2 c, fun _ hc =>
    ⟨ceilLog2_le hc, Nat.pow_le_pow_right Nat.two_pos (ceilLog2_le hc)⟩⟩, by decide⟩

/-! ### The bank that CONFIG makes (R250, R254) -/

/-- The bank that CONFIG's atomic step brings, where `config_pending` was clear before the command's admission (R250,
R254). -/
theorem Bank.configure_eq (hpending : b.guard.configPending = false) :
    b.configure capacity k conc =
      { cfg := true, conc := conc, log2len := BitVec.ofNat 6 (ceilLog2 capacity.toNat),
        bitlen := 1#64 <<< ceilLog2 capacity.toNat, k := k, count := 0,
        storage := Memory.zeroBelow b.storage (2 ^ ceilLog2 capacity.toNat), guard := b.guard } := by
  have hguard : { b.guard with configPending := false } = b.guard := by rw [← hpending]
  simp only [Bank.configure, hguard]

/-- Settles O14: the atomic step makes the bank, and the bit that the admission set is clear again. -/
theorem configResult : Obligations.ConfigResult := by
  intro s fid conc capacity k b hidle hb hpending hothers _ hcapacity hk hcap
  have hexec := exec_config (conc := conc) hidle hb hpending hothers (configCheck_none_iff.2 ⟨hcapacity, hk, hcap⟩)
  rw [Bank.configure_eq hpending] at hexec
  exact ⟨_, hexec, Memory.read_zeroBelow b.storage _, fun hwf => Memory.wf_zeroBelow hwf _⟩

/-! ### The capacities that CONFIG refuses (R252, R257) -/

theorem configCheck_refused (h : capacity = 0 ∨ k = 0 ∨ 2 ^ s.params.log2MaxBytes < capacity.toNat) :
    configCheck s (.config fid conc capacity k) = some .configInvalid := by
  simp only [configCheck]
  by_cases hcapacity : capacity = 0
  · rw [if_pos hcapacity]
  · by_cases hk : k = 0
    · rw [if_neg hcapacity, if_pos hk]
    · have hbig : s.physicalBytes < capacity.toNat := (h.resolve_left hcapacity).resolve_left hk
      rw [if_neg hcapacity, if_neg hk, if_pos hbig]

/-- A CONFIG whose bank exists has only R252 left to check. -/
theorem packetCheck_config (hlt : bankOf fid < s.banks.length) :
    packetCheck s (.config fid conc capacity k) = configCheck s (.config fid conc capacity k) :=
  (if_neg (Nat.not_le.2 hlt)).trans (if_neg nofun)

theorem exec_config_refused (hidle : s.idleTurn) (hlt : bankOf fid < s.banks.length)
    (h : capacity = 0 ∨ k = 0 ∨ 2 ^ s.params.log2MaxBytes < capacity.toNat) :
    exec (.config fid conc capacity k) s = .next (s.raise s.cur .configInvalid) := by
  rw [exec_eq_runCommand]
  exact runCommand_packetError hidle ((packetCheck_config hlt).trans (configCheck_refused h))

/-- Settles O22: R252 is checked before the admission, and an error response leaves the banks. -/
theorem configValidation : Obligations.ConfigValidation := fun _ _ _ _ _ hidle hlt h =>
  ⟨exec_config_refused hidle hlt h, rfl⟩

/-- After a CONFIG the bank that it made is there, configured and with legal registers (R250). -/
theorem holdsBank_answered_config (hb : s.bank? (bankOf fid) = some b) (hL : s.params.log2MaxBytes ≤ 61) (hk : k ≠ 0)
    (hcap : capacity.toNat ≤ 2 ^ s.params.log2MaxBytes) :
    (s.answered (bankOf fid) (b.configure capacity k conc) 0).holdsBank (bankOf fid) (b.configure capacity k conc) :=
  ⟨State.bank?_answered hb _ _, rfl, rfl, Bank.configure_legal hL hk hcap⟩

/-- A capacity that is a power of two is the BITLEN that it gives (R250, R257). -/
theorem Bank.configure_bitlen_of_two_pow {L : Nat} (hL : L ≤ 61) (hcap : capacity.toNat = 2 ^ L) :
    (b.configure capacity k conc).bitlen.toNat = 2 ^ L := by
  rw [Bank.configure_bitlen_toNat (hcap.le.trans (Nat.pow_le_pow_right Nat.two_pos (by omega))), hcap,
    ceilLog2_two_pow]

/-- Settles O23: at the bound the exponent is LOG2_MAX_BYTES itself, above it R252 refuses, and the bank that CONFIG
made has the CONC that R211 does not admit of a source. -/
theorem configCapacityBound : Obligations.ConfigCapacityBound := by
  intro s fid conc capacity k b hidle hb hpending hothers hL hk
  refine ⟨fun hcap => ?_, fun hbig => ?_, fun t hcapacity hcap ht fd bd bs hd hbs hbitlen hk' => ?_⟩
  · have hcapacity : capacity ≠ 0 := by
      rintro rfl
      exact (Nat.two_pow_pos _).ne hcap
    exact ⟨_, _, exec_config hidle hb hpending hothers (configCheck_none_iff.2 ⟨hcapacity, hk, hcap.le⟩),
      State.bank?_answered hb _ _, Bank.configure_bitlen_of_two_pow hL hcap⟩
  · have hbound : 2 ^ s.params.log2MaxBytes ≤ 2 ^ 61 := Nat.pow_le_pow_right Nat.two_pos hL
    exact exec_config_refused hidle (bank?_lt hb) (.inr (.inr (by omega)))
  · cases (exec_config hidle hb hpending hothers (configCheck_none_iff.2 ⟨hcapacity, hk, hcap⟩)).symm.trans ht
    have hs := holdsBank_answered_config (conc := true) hb hL hk hcap
    cases hs.1.symm.trans hbs
    exact exec_merge_unsupported (State.idleTurn.deliver (s := s.modifyBank _ _) hidle _) hd hs hbitlen hk' rfl

/-! ### The interlock (R255) -/

/-- CONFIG's atomic step is not enabled while another admitted, unanswered command names its bank (R255). -/
theorem advance_configure_blocked (htodo : c.todo = .configure f capacity k conc :: rest)
    (hb : s.bank? f = some b) (hothers : s.othersName p f = true) : advance p c s = .blocked c s := by
  simp only [advance, htodo, stepConfigure, hb, hothers, if_true]

/-- A CONFIG that finds its bank named by an admitted, unanswered command waits at its atomic step (R255). -/
theorem exec_config_waits (hidle : s.idleTurn) (hpacket : packetCheck s (.config fid conc capacity k) = none)
    (hpending : s.configPending (bankOf fid) = false) (hothers : s.othersName s.cur (bankOf fid) = true) :
    exec (.config fid conc capacity k) s = .next ((s.setPending (bankOf fid) true).park s.cur
      ⟨encode (.config fid conc capacity k), true, Latch.start, programConfig fid conc capacity k⟩) := by
  have hlt : bankOf fid < s.banks.length := (packetCheck_none_iff.1 hpacket).1
  have hb : (s.setPending (bankOf fid) true).bank? (bankOf fid) = some
      { s.banks[bankOf fid] with guard := { s.banks[bankOf fid].guard with configPending := true } } := by
    rw [State.setPending_eq, State.bank?_modifyBank_self, State.bank?, List.getElem?_eq_getElem hlt]; rfl
  have hnone : (namedBanks (.config fid conc capacity k)).any s.configPending = false := by
    simp [namedBanks, hpending]
  rw [exec_eq_runCommand]
  exact runCommand_blocked hidle hpacket hnone (bankCheck_none nofun fun h => (h rfl).elim)
    (advance_configure_blocked rfl hb hothers)

/-- Settles O29: neither the admission nor CONFIG's atomic step is enabled. -/
theorem interlockHolds : Obligations.InterlockHolds := by
  refine ⟨fun s i hidle hpacket hpending => ?_, fun s fid conc capacity k => exec_config_waits⟩
  rw [exec_eq_runCommand]
  exact runCommand_pending hidle hpacket (List.any_eq_true.2 hpending)

end Sys2Proof.Machine
end

section
/-! The exceptions of 60_exceptions.md: the checks of R273 in their order, the error response (R272), and that no step
faults or is refused (R277). -/

namespace Sys2Proof

variable {bs : List Byte} {op : Opcode}

/-! ### The decoder's refusals for a length (R273 steps 1 and 4) -/

theorem decode_of_short (h : bs.length < 4) : decode bs = .error .length := if_pos h

theorem decode_of_wrong_length (h4 : 4 ≤ bs.length) (hop : Opcode.ofBits (cmdOp (commandWord bs)) = some op)
    (hres : commandWord bs &&& op.reservedMask = 0) (hlen : expectedLength op bs ≠ some bs.length) :
    decode bs = .error .length := by
  have hbad : ¬ lengthOk op bs = true := by simpa [lengthOk] using hlen
  rw [decode, if_neg (Nat.not_lt.2 h4), hop]
  exact (if_neg (not_not.2 hres)).trans (if_neg hbad)

/-- The fields of a decoded command are those of its command word (R112). -/
theorem fields_of_decode {i : Instr} (hop : Opcode.ofBits (cmdOp (commandWord bs)) = some op) (h : decode bs = .ok i) :
    i.opcode = op ∧ i.fid = cmdFid (commandWord bs) ∧ (op = .merge → i.sfid = cmdSfid (commandWord bs)) := by
  obtain ⟨-, op', hop', -, -, rfl⟩ := decode_eq_ok_iff.1 h
  cases hop.symm.trans hop'
  exact ⟨opcode_operands op bs, fid_operands op bs, fun hm => (sfid_operands op bs).trans (if_pos hm)⟩

end Sys2Proof

namespace Sys2Proof.Machine

variable {p f : Nat} {s s' t : State} {bd bs : Bank} {i : Instr} {packet : List Byte} {e : Status}
  {port port' : Port} {fid sfid : FilterId}

/-! ### No step stops (R277) -/

/-- Settles O52: what remains of a legal command touches only banks and bytes that exist, so no move of the agenda, and
none of the default order, can fault. -/
theorem noStepStops : Obligations.NoStepStops := fun _ hs => step_next hs

/-! ### Banks that the engine does not have (R273 step 5) -/

theorem packetCheck_of_missing_bank (hf : f ∈ namedBanks i) (hmissing : s.banks.length ≤ f) :
    packetCheck s i = some .badFilterId := by
  unfold packetCheck
  by_cases hfid : s.banks.length ≤ bankOf i.fid
  · exact if_pos hfid
  · obtain rfl | ⟨hmerge, rfl⟩ := mem_namedBanks_iff.1 hf
    · exact absurd hmissing hfid
    · rw [if_neg hfid, if_pos ⟨hmerge, hmissing⟩]

/-- Settles O25: it is the first check after decoding. -/
theorem badFilterIdRefused : Obligations.BadFilterIdRefused := by
  intro s i hidle ⟨f, hf, hmissing⟩
  rw [exec_eq_runCommand]
  exact runCommand_packetError hidle (packetCheck_of_missing_bank hf hmissing)

/-! ### The checks in their order (R273) -/

theorem runPacket_of_error (h : decode packet = .error e) : runPacket packet s = .next (s.raise s.cur e) := by
  rw [runPacket, h]

theorem runPacket_of_ok (h : decode packet = .ok i) : runPacket packet s = exec i s := by rw [runPacket, h]

/-- A MERGE between configured banks, whatever their registers hold, ends in the error of R211's checks. -/
theorem exec_merge_of_mergeCheck (hidle : s.idleTurn) (hd : s.bank? (bankOf fid) = some bd)
    (hs : s.bank? (bankOf sfid) = some bs) (hpendd : s.configPending (bankOf fid) = false)
    (hpends : s.configPending (bankOf sfid) = false) (hcfgd : bd.cfg = true) (hcfgs : bs.cfg = true)
    (hcheck : mergeCheck bd bs = some e) : exec (.merge fid sfid) s = .next (s.raise s.cur e) := by
  have hbank : bankCheck s (.merge fid sfid) = mergeCheck bd bs := by
    simp [bankCheck, Instr.opcode, Instr.fid, Instr.sfid, configured_of_bank, hd, hs, hcfgd, hcfgs]
  rw [exec_eq_runCommand]
  exact runCommand_bankError hidle (packetCheck_merge hd hs) (by simp [namedBanks, hpendd, hpends])
    (hbank.trans hcheck)

/-- Settles O21: the decoder makes steps 1 to 4, `packetCheck` steps 5 and 6, and the admission steps 7 to 9; each
status is that of the first check that fails. -/
theorem checksInOrder : Obligations.ChecksInOrder := by
  intro s packet hidle
  refine ⟨fun hshort => runPacket_of_error (decode_of_short hshort),
    fun h4 hop => runPacket_of_error (decode_of_no_opcode h4 hop),
    fun op h4 hop => ⟨fun hres => runPacket_of_error (decode_of_reserved h4 hop hres),
      fun hres hlen => runPacket_of_error (decode_of_wrong_length h4 hop hres hlen), fun i => fields_of_decode hop⟩,
    fun i hi => ?_⟩
  rw [runPacket_of_ok hi]
  refine ⟨fun hmissing => badFilterIdRefused s i hidle ?_, fun fid conc capacity k heq hlt hbad => ?_,
    fun hconfig hnamed => unconfiguredRefused s i hidle hconfig (fun f hf => (hnamed f hf).1)
      fun f hf => (hnamed f hf).2, fun fid sfid bd bs heq hd hs hpendd hpends hcfgd hcfgs => ?_⟩
  · obtain hfid | ⟨hmerge, hsfid⟩ := hmissing
    · exact ⟨_, mem_namedBanks i, hfid⟩
    · exact ⟨_, mem_namedBanks_iff.2 (.inr ⟨hmerge, rfl⟩), hsfid⟩
  · subst heq
    exact exec_config_refused hidle hlt hbad
  · subst heq
    have hraise : ∀ {e}, mergeCheck bd bs = some e → exec (.merge fid sfid) s = .next (s.raise s.cur e) :=
      exec_merge_of_mergeCheck hidle hd hs hpendd hpends hcfgd hcfgs
    exact ⟨fun h => hraise (mergeCheck_mismatch h),
      fun hbitlen hk hconc => hraise ((mergeCheck_of_eq hbitlen hk).trans (if_pos hconc))⟩

/-! ### Errors write nothing (R272) -/

theorem State.port?_modifyPort_self (hport : s.port? p = some port) (g : Port → Port) :
    (s.modifyPort p g).port? p = some (g port) := by
  rw [State.port?_modifyPort, if_pos rfl, hport]; rfl

/-- An admitted command touches no port before it ends. -/
theorem Runs.ports_eq {c' : InFlight} (h : Runs p (InFlight.started s i) (s.afterAdmission p i) c' s') :
    s'.ports = s.ports := by
  rw [(h.sameBut (started_along s i)).2]
  obtain h | ⟨_, _, h⟩ := afterAdmission_eq s p i <;> rw [h]
  rfl

/-- The only response in a command's program is its success (R121). -/
theorem status_of_respond_mem_program {params : Params} {b : Bank} {status : Status} {answer : Answer}
    (h : .respond status answer ∈ program params b i) : status = .ok := by
  generalize hm : Micro.respond status answer = m at h
  cases mem_program h with
  | respond => cases hm; rfl
  | body _ hbody => cases hbody <;> cases hm
  | lock => unfold lockMicro at hm; split at hm <;> cases hm
  | configure | release => cases hm

/-- What a command handed to the port whose turn it is has delivered there: nothing yet, a success, or the error that
is all it did. -/
theorem ExecEnds.delivered (h : ExecEnds i s t) (hport : s.port? s.cur = some port)
    (hport' : t.port? s.cur = some port') :
    port'.delivered = port.delivered ∨
      (∃ v, port'.delivered = port.delivered ++ [Response.success v]) ∨
      ∃ e, t = s.raise s.cur e ∧ port'.delivered = port.delivered ++ [Response.error e] := by
  cases h with
  | queued | pending =>
    cases (State.port?_modifyPort_self hport _).symm.trans hport'
    exact .inl rfl
  | refused e =>
    cases (State.port?_modifyPort_self hport _).symm.trans hport'
    exact .inr (.inr ⟨e, rfl, rfl⟩)
  | @ran c' s' _ _ hruns hend =>
    have hsame : s'.port? s.cur = some port := by rw [← hport, State.port?, hruns.ports_eq]; rfl
    cases hend with
    | waits =>
      cases (State.port?_modifyPort_self hsame _).symm.trans hport'
      exact .inl rfl
    | answered status answer rest htodo =>
      have hmem : .respond status answer ∈ program s.params (homeBank s i) i :=
        (hruns.along (started_along s i)).suffix.subset (htodo ▸ List.mem_cons_self)
      cases status_of_respond_mem_program hmem
      cases (State.port?_modifyPort_self hsame _).symm.trans hport'
      exact .inr (.inl ⟨_, rfl⟩)

/-- Settles O27: of the ways a command ends only a failed check delivers a status other than OK. -/
theorem errorsWriteNothing : Obligations.ErrorsWriteNothing := by
  intro s t i port port' r hport _ hexec hport' hdelivered hstatus
  obtain hnone | ⟨v, hsuccess⟩ | ⟨e, rfl, herror⟩ := (exec_ends hexec).delivered hport hport'
  · simp [hdelivered] at hnone
  · obtain rfl : r = Response.success v := by simpa [hdelivered] using hsuccess
    exact absurd rfl hstatus
  · obtain rfl : r = Response.error e := by simpa [hdelivered] using herror
    exact ⟨rfl, rfl, rfl⟩

end Sys2Proof.Machine
end

section
/-! The request that the placing offers (log entry 7): an IDLE port of the engine has it at the head of its queue, and
its turn is next. -/

namespace Sys2Proof.Machine

variable {s : State}

theorem decodeTableWord_eq_some_iff {nbits w : Nat} {i : Instr} :
    decodeTableWord nbits w = some i ↔ decode (tablePacket nbits w) = .ok i := by
  unfold decodeTableWord
  cases decode (tablePacket nbits w) with
  | ok j => simp
  | error e => simp

/-- The placing finds a port wherever the engine has one. -/
theorem fetchPort_lt (hports : 0 < s.ports.length) : fetchPort s < s.ports.length := by
  unfold fetchPort
  split
  case h_1 p hfound => exact List.mem_range.1 (List.mem_of_find?_eq_some hfound)
  case h_2 => exact hports

theorem State.withPacket_agenda (s : State) (packet : List Byte) :
    (s.withPacket packet).agenda = .command (fetchPort s) :: s.agenda := rfl

theorem State.port?_withPacket_self {port : Port} (hport : s.port? (fetchPort s) = some port) (packet : List Byte) :
    (s.withPacket packet).port? (fetchPort s) = some { port with inFlight := none, queue := packet :: port.queue } :=
  State.port?_modifyPort_self hport _

theorem State.port?_withPacket_of_ne {q : Nat} (hq : fetchPort s ≠ q) (packet : List Byte) :
    (s.withPacket packet).port? q = s.port? q :=
  (s.port?_modifyPort _ q _).trans (if_neg hq)

/-- Settles O49: the placed request is the first of an IDLE port whose command move is next, so the step takes it and
runs what it decodes to; the placing and the taking touch no other port. -/
theorem fetchedWordRuns : Obligations.FetchedWordRuns := by
  intro s nbits w i hword hports
  obtain ⟨port, hport⟩ : ∃ port, s.port? (fetchPort s) = some port :=
    ⟨_, List.getElem?_eq_getElem (fetchPort_lt hports)⟩
  have hplaced := State.port?_withPacket_self hport (tablePacket nbits w)
  have hstep := (stepRunsDecoded.1 _ _ _ _ _ _ (s.withPacket_agenda _) hplaced rfl rfl).1 i
    (decodeTableWord_eq_some_iff.1 hword)
  refine ⟨_, hstep, ⟨_, (State.port?_modifyPort_self hplaced _ :), rfl⟩, rfl, rfl, rfl, fun q hq => ?_⟩
  calc _ = (s.withPacket (tablePacket nbits w)).port? q := (State.port?_takeRequest _ _ q).trans (if_neg (Ne.symm hq))
    _ = s.port? q := State.port?_withPacket_of_ne (Ne.symm hq) _

end Sys2Proof.Machine
end
